-- ==== Sys2Proof/Word.lean ====
section
/-! DEFINITION. The value types of the ED448 CORE and their plainest arithmetic: the two moduli
(00_scope.md R11, R12), residues modulo each as `Fin`, whose own `+`, `-` and `*` are the modular
ones, and the narrowing of an exact integer to a residue. -/

namespace Sys2Proof

/-- One byte. -/
abbrev Byte := BitVec 8

/-- One 64-bit command word (30_encoding.md R300). -/
abbrev CommandWord := BitVec 64

/-- The field modulus p = 2^448 - 2^224 - 1 (00_scope.md R11). -/
def fieldP : Nat :=
  0xfffffffffffffffffffffffffffffffffffffffffffffffffffffffeffffffffffffffffffffffffffffffffffffffffffffffffffffffff

/-- The scalar modulus, the group order L (00_scope.md R12). -/
def orderL : Nat :=
  0x3fffffffffffffffffffffffffffffffffffffffffffffffffffffff7cca23e9c44edb49aed63690216cc2728dc58f552378c292ab5844f3

theorem fieldP_pos : 0 < fieldP := by decide

theorem orderL_pos : 0 < orderL := by decide

/-- A field value: a residue in [0, p) (10_state.md R101). -/
abbrev Fe := Fin fieldP

/-- A scalar value: an integer in [0, L) (10_state.md R102). -/
abbrev Sc := Fin orderL

/-- The residue of a natural number modulo p. -/
def Fe.ofNat (n : Nat) : Fe := ⟨n % fieldP, Nat.mod_lt _ fieldP_pos⟩

/-- The residue of an integer modulo p (`a mod m` of 00_scope.md R22 is the representative in [0, m)). -/
def Fe.ofInt (z : Int) : Fe := Fe.ofNat (z % (fieldP : Int)).toNat

/-- The residue of a natural number modulo L. -/
def Sc.ofNat (n : Nat) : Sc := ⟨n % orderL, Nat.mod_lt _ orderL_pos⟩

/-- The field constants zero, one and two (40_field.md R410). -/
def Fe.zero : Fe := Fe.ofNat 0

@[inherit_doc Fe.zero] def Fe.one : Fe := Fe.ofNat 1

@[inherit_doc Fe.zero] def Fe.two : Fe := Fe.ofNat 2

end Sys2Proof
end

