-- ==== Sys2Proof/Syntax.lean ====
section
/-! DEFINITION. The 63 commands of E448C 1.0 as syntax (30_encoding.md R308): one constructor per row
of the opcode map, arguments in the order RD, RA, RB, RC, modifier, immediate. The operand classes of
R303 and the index classes of R306 are types, so an operand out of its class cannot be written. -/

namespace Sys2Proof

/-- Operand class F: a field register index, 0 to 15 (30_encoding.md R303). -/
abbrev FReg := Fin 16
/-- Operand class S: a scalar register index, 0 to 7. -/
abbrev SReg := Fin 8
/-- Operand class P: a point register index, 0 to 7. -/
abbrev PReg := Fin 8
/-- Operand class N: a Niels register index, 0 to 7. -/
abbrev NReg := Fin 8
/-- Operand class M: a mask register index, 0 to 7. -/
abbrev MReg := Fin 8
/-- Operand class FG: the base of four consecutive field registers, 0 to 12. -/
abbrev FGroup := Fin 13

/-- A command. `bd` is MOD.BD (before_double), `am` is MOD.AM (add ar) (30_encoding.md R305). -/
inductive Instr where
  -- 47_sequencer.md
  | nop
  | halt
  | jmp (off : BitVec 16)
  | bmt (c : MReg) (off : BitVec 16)
  | bmf (c : MReg) (off : BitVec 16)
  | setlc (u : BitVec 16)
  | djnz (off : BitVec 16)
  | seta (u : BitVec 16)
  | adda (v : BitVec 16)
  -- 40_field.md, 41_field_inverter.md
  | fadd (d a b : FReg)
  | fsub (d a b : FReg)
  | fneg (d a : FReg)
  | fmul (d a b : FReg)
  | fsqr (d a : FReg)
  | fmulc (d a : FReg) (c : BitVec 32)
  | fwred (d a : FReg)
  | fsred (d a : FReg)
  | fmov (d a : FReg)
  | fconst (d : FReg) (i : Fin 6)
  | finv (d a : FReg)
  | fisr (d a : FReg) (c : MReg)
  -- 42_ct_compare_select.md
  | feq (d : MReg) (a b : FReg)
  | fsel (d a b : FReg) (c : MReg)
  | fcswap (a b : FReg) (c : MReg)
  | fcneg (d a : FReg) (c : MReg)
  | mset (d : MReg) (i : Fin 2)
  | mand (d a b : MReg)
  | mor (d a b : MReg)
  | mxor (d a b : MReg)
  | mnot (d a : MReg)
  | mld (d : MReg) (am : Bool) (base : BitVec 16)
  | mst (a : MReg) (am : Bool) (base : BitVec 16)
  -- 43_field_io.md
  | fld (d : FReg) (c : MReg) (am : Bool) (base : BitVec 16)
  | fldm (d : FReg) (c : MReg) (am : Bool) (strip : BitVec 8) (base : BitVec 16)
  | fst (a : FReg) (am : Bool) (base : BitVec 16)
  -- 44_scalar.md
  | sadd (d a b : SReg)
  | ssub (d a b : SReg)
  | smont (d a b : SReg)
  | smul (d a b : SReg)
  | shalve (d a : SReg)
  | smov (d a : SReg)
  | sconst (d : SReg) (i : Fin 4)
  | sld (d : SReg) (c : MReg) (am : Bool) (base : BitVec 16)
  | sst (a : SReg) (am : Bool) (base : BitVec 16)
  -- 45_point.md
  | pdbl (d a : PReg) (bd : Bool)
  | paddn (d a : PReg) (b : NReg) (bd : Bool)
  | psubn (d a : PReg) (b : NReg) (bd : Bool)
  | paddpn (d a : PReg) (b : NReg) (bd : Bool)
  | psubpn (d a : PReg) (b : NReg) (bd : Bool)
  | padd (d a b : PReg) (bd : Bool)
  | pton (d : NReg) (a : PReg)
  | ncneg (d a : NReg) (c : MReg)
  | pid (d : PReg)
  | peq (d : MReg) (a b : PReg)
  | pvalid (d : MReg) (a : PReg)
  | pfx (d : PReg) (g : FGroup)
  | pxf (g : FGroup) (a : PReg)
  | nfx (d : NReg) (g : FGroup)
  | nxf (g : FGroup) (a : NReg)
  | pmov (d a : PReg)
  -- 46_scalarmul.md
  | psmul (d a : PReg) (b : SReg)
  | pbmul (d : PReg) (a : SReg)
  | pdsmul (d : PReg) (a : SReg) (b : PReg) (c : SReg)
deriving DecidableEq, Repr

end Sys2Proof
end

