-- ==== Sys2Proof/WellFormed.lean ====
section
/-! DEFINITION. Which commands are well formed (30_encoding.md R303, R306). Register classes, the FG
base and the idx:k selectors are bounded by their types in Syntax.lean; the one check left is the
range of FMULC's c32 constant. -/

namespace Sys2Proof

/-- A c32 constant is legal when -2^26 < c < 2^26 (30_encoding.md R306). -/
def legalConst (c : BitVec 32) : Bool := -(2 ^ 26 : Int) < c.toInt && c.toInt < (2 ^ 26 : Int)

/-- The command has an encoding. -/
def Instr.wf : Instr → Bool
  | .fmulc _ _ c => legalConst c
  | .nop | .halt | .jmp _ | .bmt _ _ | .bmf _ _ | .setlc _ | .djnz _ | .seta _ | .adda _ | .fadd _ _ _
  | .fsub _ _ _ | .fneg _ _ | .fmul _ _ _ | .fsqr _ _ | .fwred _ _ | .fsred _ _ | .fmov _ _ | .fconst _ _
  | .finv _ _ | .fisr _ _ _ | .feq _ _ _ | .fsel _ _ _ _ | .fcswap _ _ _ | .fcneg _ _ _ | .mset _ _
  | .mand _ _ _ | .mor _ _ _ | .mxor _ _ _ | .mnot _ _ | .mld _ _ _ | .mst _ _ _ | .fld _ _ _ _
  | .fldm _ _ _ _ _ | .fst _ _ _ | .sadd _ _ _ | .ssub _ _ _ | .smont _ _ _ | .smul _ _ _ | .shalve _ _
  | .smov _ _ | .sconst _ _ | .sld _ _ _ _ | .sst _ _ _ | .pdbl _ _ _ | .paddn _ _ _ _ | .psubn _ _ _ _
  | .paddpn _ _ _ _ | .psubpn _ _ _ _ | .padd _ _ _ _ | .pton _ _ | .ncneg _ _ _ | .pid _ | .peq _ _ _
  | .pvalid _ _ | .pfx _ _ | .pxf _ _ | .nfx _ _ | .nxf _ _ | .pmov _ _ | .psmul _ _ _ | .pbmul _ _
  | .pdsmul _ _ _ _ => true

end Sys2Proof
end

