-- ==== Sys2Proof/Decode.lean ====
section
/-! DEFINITION. The decoder (30_encoding.md R300-R310), total on every 64-bit word, and after it the
encoder. The opcode map is a list of rows with the `match` and `mask` of the spec's table; a word is
rejected by one of the three names of R307, with the information word of 60_exceptions.md R1001. -/

namespace Sys2Proof

/-- The fields of a command word (30_encoding.md R301), most significant first. -/
structure Fields where
  op : BitVec 8
  rd : BitVec 4
  ra : BitVec 4
  rb : BitVec 4
  rc : BitVec 4
  md : BitVec 8
  imm : BitVec 32
deriving DecidableEq, Repr

/-- The word with the given fields. -/
def Fields.pack (f : Fields) : CommandWord :=
  f.op ++ (f.rd ++ (f.ra ++ (f.rb ++ (f.rc ++ (f.md ++ f.imm)))))

/-- The fields of a word: OP [63:56], RD [55:52], RA [51:48], RB [47:44], RC [43:40], MOD [39:32],
IMM [31:0]. -/
def Fields.unpack (w : CommandWord) : Fields where
  op := w.extractLsb' 56 8
  rd := w.extractLsb' 52 4
  ra := w.extractLsb' 48 4
  rb := w.extractLsb' 44 4
  rc := w.extractLsb' 40 4
  md := w.extractLsb' 32 8
  imm := w.extractLsb' 0 32

/-- Why a word is not a command (60_exceptions.md R1003), with the word EINFO records. -/
inductive DecodeError where
  /-- OP is not assigned (30_encoding.md R302, R309). -/
  | illegalOpcode (info : BitVec 32)
  /-- A reserved-zero bit is set, or a register field is out of its class (R303, R304). -/
  | illegalOperand (info : BitVec 32)
  /-- A c32 constant or an idx:k selector is out of range (R306). -/
  | badImmediate (info : BitVec 32)
deriving DecidableEq, Repr

/-- w[63:32], the information word of ILLEGAL_OPCODE and ILLEGAL_OPERAND. -/
def highHalf (w : CommandWord) : BitVec 32 := w.extractLsb' 32 32

/-- w[31:0], the information word of BAD_IMMEDIATE. -/
def lowHalf (w : CommandWord) : BitVec 32 := w.extractLsb' 0 32

/-- What a row reads from the fields once its mask has matched. -/
inductive Reading where
  | command (i : Instr)
  | badGroup
  | badImmediate
deriving DecidableEq, Repr

/-- A register field of class F. -/
def regF (x : BitVec 4) : FReg := x.toFin

/-- A register field of class S, P, N or M: its low three bits (bit 3 is reserved-zero, R304). -/
def reg8 (x : BitVec 4) : Fin 8 := (x.extractLsb' 0 3).toFin

/-- A register field of class FG: legal from 0 to 12 (R303). -/
def readGroup (x : BitVec 4) (k : FGroup → Instr) : Reading :=
  if h : x.toNat < 13 then .command (k ⟨x.toNat, h⟩) else .badGroup

/-- An immediate of class idx:n, legal below n + 1; here `bound` is n + 1 (R306). -/
def readIndex (bound : Nat) (imm : BitVec 32) (k : Fin bound → Instr) : Reading :=
  if h : (imm.extractLsb' 0 16).toNat < bound then .command (k ⟨_, h⟩) else .badImmediate

/-- An immediate of class c32 (R306). -/
def readConst (imm : BitVec 32) (k : BitVec 32 → Instr) : Reading :=
  if legalConst imm then .command (k imm) else .badImmediate

/-- IMM[15:0], the immediate of the classes off16, u16, s16, addr and addrm. -/
def imm16 (f : Fields) : BitVec 16 := f.imm.extractLsb' 0 16

/-- IMM[23:16], the strip mask of class addrm. -/
def immStrip (f : Fields) : BitVec 8 := f.imm.extractLsb' 16 8

/-- MOD[0], the before_double modifier (R301, R305). -/
def modBD (f : Fields) : Bool := f.md.getLsbD 0

/-- MOD[1], the address mode (R301, R305). -/
def modAM (f : Fields) : Bool := f.md.getLsbD 1

/-- One row of the opcode map (30_encoding.md R308). -/
structure Row where
  op : BitVec 8
  match' : CommandWord
  mask : CommandWord
  read : Fields → Reading

/-- Rows of 47_sequencer.md. -/
def sequencerRows : List Row := [
  ⟨0x00, 0x0000000000000000, 0xFFFFFFFFFFFFFFFF, fun _ => .command .nop⟩,
  ⟨0x01, 0x0100000000000000, 0xFFFFFFFFFFFFFFFF, fun _ => .command .halt⟩,
  ⟨0x02, 0x0200000000000000, 0xFFFFFFFFFFFF0000, fun f => .command (.jmp (imm16 f))⟩,
  ⟨0x03, 0x0300000000000000, 0xFFFFF8FFFFFF0000, fun f => .command (.bmt (reg8 f.rc) (imm16 f))⟩,
  ⟨0x04, 0x0400000000000000, 0xFFFFF8FFFFFF0000, fun f => .command (.bmf (reg8 f.rc) (imm16 f))⟩,
  ⟨0x05, 0x0500000000000000, 0xFFFFFFFFFFFF0000, fun f => .command (.setlc (imm16 f))⟩,
  ⟨0x06, 0x0600000000000000, 0xFFFFFFFFFFFF0000, fun f => .command (.djnz (imm16 f))⟩,
  ⟨0x07, 0x0700000000000000, 0xFFFFFFFFFFFF0000, fun f => .command (.seta (imm16 f))⟩,
  ⟨0x08, 0x0800000000000000, 0xFFFFFFFFFFFF0000, fun f => .command (.adda (imm16 f))⟩]

/-- Rows of 40_field.md and 41_field_inverter.md. -/
def fieldRows : List Row := [
  ⟨0x10, 0x1000000000000000, 0xFF000FFFFFFFFFFF, fun f => .command (.fadd (regF f.rd) (regF f.ra) (regF f.rb))⟩,
  ⟨0x11, 0x1100000000000000, 0xFF000FFFFFFFFFFF, fun f => .command (.fsub (regF f.rd) (regF f.ra) (regF f.rb))⟩,
  ⟨0x12, 0x1200000000000000, 0xFF00FFFFFFFFFFFF, fun f => .command (.fneg (regF f.rd) (regF f.ra))⟩,
  ⟨0x13, 0x1300000000000000, 0xFF000FFFFFFFFFFF, fun f => .command (.fmul (regF f.rd) (regF f.ra) (regF f.rb))⟩,
  ⟨0x14, 0x1400000000000000, 0xFF00FFFFFFFFFFFF, fun f => .command (.fsqr (regF f.rd) (regF f.ra))⟩,
  ⟨0x15, 0x1500000000000000, 0xFF00FFFF00000000, fun f => readConst f.imm (.fmulc (regF f.rd) (regF f.ra))⟩,
  ⟨0x16, 0x1600000000000000, 0xFF00FFFFFFFFFFFF, fun f => .command (.fwred (regF f.rd) (regF f.ra))⟩,
  ⟨0x17, 0x1700000000000000, 0xFF00FFFFFFFFFFFF, fun f => .command (.fsred (regF f.rd) (regF f.ra))⟩,
  ⟨0x18, 0x1800000000000000, 0xFF00FFFFFFFFFFFF, fun f => .command (.fmov (regF f.rd) (regF f.ra))⟩,
  ⟨0x19, 0x1900000000000000, 0xFF0FFFFFFFFF0000, fun f => readIndex 6 f.imm (.fconst (regF f.rd))⟩,
  ⟨0x1A, 0x1A00000000000000, 0xFF00FFFFFFFFFFFF, fun f => .command (.finv (regF f.rd) (regF f.ra))⟩,
  ⟨0x1B, 0x1B00000000000000, 0xFF00F8FFFFFFFFFF, fun f => .command (.fisr (regF f.rd) (regF f.ra) (reg8 f.rc))⟩]

/-- Rows of 42_ct_compare_select.md. -/
def selectRows : List Row := [
  ⟨0x20, 0x2000000000000000, 0xFF800FFFFFFFFFFF, fun f => .command (.feq (reg8 f.rd) (regF f.ra) (regF f.rb))⟩,
  ⟨0x21, 0x2100000000000000, 0xFF0008FFFFFFFFFF,
    fun f => .command (.fsel (regF f.rd) (regF f.ra) (regF f.rb) (reg8 f.rc))⟩,
  ⟨0x22, 0x2200000000000000, 0xFFF008FFFFFFFFFF, fun f => .command (.fcswap (regF f.ra) (regF f.rb) (reg8 f.rc))⟩,
  ⟨0x23, 0x2300000000000000, 0xFF00F8FFFFFFFFFF, fun f => .command (.fcneg (regF f.rd) (regF f.ra) (reg8 f.rc))⟩,
  ⟨0x28, 0x2800000000000000, 0xFF8FFFFFFFFF0000, fun f => readIndex 2 f.imm (.mset (reg8 f.rd))⟩,
  ⟨0x29, 0x2900000000000000, 0xFF888FFFFFFFFFFF, fun f => .command (.mand (reg8 f.rd) (reg8 f.ra) (reg8 f.rb))⟩,
  ⟨0x2A, 0x2A00000000000000, 0xFF888FFFFFFFFFFF, fun f => .command (.mor (reg8 f.rd) (reg8 f.ra) (reg8 f.rb))⟩,
  ⟨0x2B, 0x2B00000000000000, 0xFF888FFFFFFFFFFF, fun f => .command (.mxor (reg8 f.rd) (reg8 f.ra) (reg8 f.rb))⟩,
  ⟨0x2C, 0x2C00000000000000, 0xFF88FFFFFFFFFFFF, fun f => .command (.mnot (reg8 f.rd) (reg8 f.ra))⟩,
  ⟨0x2D, 0x2D00000000000000, 0xFF8FFFFDFFFF0000, fun f => .command (.mld (reg8 f.rd) (modAM f) (imm16 f))⟩,
  ⟨0x2E, 0x2E00000000000000, 0xFFF8FFFDFFFF0000, fun f => .command (.mst (reg8 f.ra) (modAM f) (imm16 f))⟩]

/-- Rows of 43_field_io.md. -/
def fieldIORows : List Row := [
  ⟨0x30, 0x3000000000000000, 0xFF0FF8FDFFFF0000,
    fun f => .command (.fld (regF f.rd) (reg8 f.rc) (modAM f) (imm16 f))⟩,
  ⟨0x31, 0x3100000000000000, 0xFF0FF8FDFF000000,
    fun f => .command (.fldm (regF f.rd) (reg8 f.rc) (modAM f) (immStrip f) (imm16 f))⟩,
  ⟨0x32, 0x3200000000000000, 0xFFF0FFFDFFFF0000, fun f => .command (.fst (regF f.ra) (modAM f) (imm16 f))⟩]

/-- Rows of 44_scalar.md. -/
def scalarRows : List Row := [
  ⟨0x40, 0x4000000000000000, 0xFF888FFFFFFFFFFF, fun f => .command (.sadd (reg8 f.rd) (reg8 f.ra) (reg8 f.rb))⟩,
  ⟨0x41, 0x4100000000000000, 0xFF888FFFFFFFFFFF, fun f => .command (.ssub (reg8 f.rd) (reg8 f.ra) (reg8 f.rb))⟩,
  ⟨0x42, 0x4200000000000000, 0xFF888FFFFFFFFFFF, fun f => .command (.smont (reg8 f.rd) (reg8 f.ra) (reg8 f.rb))⟩,
  ⟨0x43, 0x4300000000000000, 0xFF888FFFFFFFFFFF, fun f => .command (.smul (reg8 f.rd) (reg8 f.ra) (reg8 f.rb))⟩,
  ⟨0x44, 0x4400000000000000, 0xFF88FFFFFFFFFFFF, fun f => .command (.shalve (reg8 f.rd) (reg8 f.ra))⟩,
  ⟨0x45, 0x4500000000000000, 0xFF88FFFFFFFFFFFF, fun f => .command (.smov (reg8 f.rd) (reg8 f.ra))⟩,
  ⟨0x46, 0x4600000000000000, 0xFF8FFFFFFFFF0000, fun f => readIndex 4 f.imm (.sconst (reg8 f.rd))⟩,
  ⟨0x47, 0x4700000000000000, 0xFF8FF8FDFFFF0000,
    fun f => .command (.sld (reg8 f.rd) (reg8 f.rc) (modAM f) (imm16 f))⟩,
  ⟨0x48, 0x4800000000000000, 0xFFF8FFFDFFFF0000, fun f => .command (.sst (reg8 f.ra) (modAM f) (imm16 f))⟩]

/-- Rows of 45_point.md. -/
def pointRows : List Row := [
  ⟨0x50, 0x5000000000000000, 0xFF88FFFEFFFFFFFF, fun f => .command (.pdbl (reg8 f.rd) (reg8 f.ra) (modBD f))⟩,
  ⟨0x51, 0x5100000000000000, 0xFF888FFEFFFFFFFF,
    fun f => .command (.paddn (reg8 f.rd) (reg8 f.ra) (reg8 f.rb) (modBD f))⟩,
  ⟨0x52, 0x5200000000000000, 0xFF888FFEFFFFFFFF,
    fun f => .command (.psubn (reg8 f.rd) (reg8 f.ra) (reg8 f.rb) (modBD f))⟩,
  ⟨0x53, 0x5300000000000000, 0xFF888FFEFFFFFFFF,
    fun f => .command (.paddpn (reg8 f.rd) (reg8 f.ra) (reg8 f.rb) (modBD f))⟩,
  ⟨0x54, 0x5400000000000000, 0xFF888FFEFFFFFFFF,
    fun f => .command (.psubpn (reg8 f.rd) (reg8 f.ra) (reg8 f.rb) (modBD f))⟩,
  ⟨0x55, 0x5500000000000000, 0xFF888FFEFFFFFFFF,
    fun f => .command (.padd (reg8 f.rd) (reg8 f.ra) (reg8 f.rb) (modBD f))⟩,
  ⟨0x56, 0x5600000000000000, 0xFF88FFFFFFFFFFFF, fun f => .command (.pton (reg8 f.rd) (reg8 f.ra))⟩,
  ⟨0x57, 0x5700000000000000, 0xFF88F8FFFFFFFFFF, fun f => .command (.ncneg (reg8 f.rd) (reg8 f.ra) (reg8 f.rc))⟩,
  ⟨0x58, 0x5800000000000000, 0xFF8FFFFFFFFFFFFF, fun f => .command (.pid (reg8 f.rd))⟩,
  ⟨0x59, 0x5900000000000000, 0xFF888FFFFFFFFFFF, fun f => .command (.peq (reg8 f.rd) (reg8 f.ra) (reg8 f.rb))⟩,
  ⟨0x5A, 0x5A00000000000000, 0xFF88FFFFFFFFFFFF, fun f => .command (.pvalid (reg8 f.rd) (reg8 f.ra))⟩,
  ⟨0x5B, 0x5B00000000000000, 0xFF80FFFFFFFFFFFF, fun f => readGroup f.ra (.pfx (reg8 f.rd))⟩,
  ⟨0x5C, 0x5C00000000000000, 0xFF08FFFFFFFFFFFF, fun f => readGroup f.rd (.pxf · (reg8 f.ra))⟩,
  ⟨0x5D, 0x5D00000000000000, 0xFF80FFFFFFFFFFFF, fun f => readGroup f.ra (.nfx (reg8 f.rd))⟩,
  ⟨0x5E, 0x5E00000000000000, 0xFF08FFFFFFFFFFFF, fun f => readGroup f.rd (.nxf · (reg8 f.ra))⟩,
  ⟨0x5F, 0x5F00000000000000, 0xFF88FFFFFFFFFFFF, fun f => .command (.pmov (reg8 f.rd) (reg8 f.ra))⟩]

/-- Rows of 46_scalarmul.md. -/
def engineRows : List Row := [
  ⟨0x60, 0x6000000000000000, 0xFF888FFFFFFFFFFF, fun f => .command (.psmul (reg8 f.rd) (reg8 f.ra) (reg8 f.rb))⟩,
  ⟨0x61, 0x6100000000000000, 0xFF88FFFFFFFFFFFF, fun f => .command (.pbmul (reg8 f.rd) (reg8 f.ra))⟩,
  ⟨0x62, 0x6200000000000000, 0xFF8888FFFFFFFFFF,
    fun f => .command (.pdsmul (reg8 f.rd) (reg8 f.ra) (reg8 f.rb) (reg8 f.rc))⟩]

/-- The opcode map (30_encoding.md R308): 63 rows. -/
def opcodeMap : List Row :=
  sequencerRows ++ (fieldRows ++ (selectRows ++ (fieldIORows ++ (scalarRows ++ (pointRows ++ engineRows)))))

/-- The row of an opcode, none where it is unassigned (30_encoding.md R302, R309). -/
def rowOf (op : BitVec 8) : Option Row := opcodeMap.find? (·.op == op)

/-- What a row makes of a word: its mask first, then the FG base, then the immediate (R307). -/
def Row.decode (r : Row) (w : CommandWord) : Except DecodeError Instr :=
  if w &&& r.mask ≠ r.match' then .error (.illegalOperand (highHalf w))
  else match r.read (Fields.unpack w) with
    | .command i => .ok i
    | .badGroup => .error (.illegalOperand (highHalf w))
    | .badImmediate => .error (.badImmediate (lowHalf w))

/-- Decoding, in the order of 30_encoding.md R307. -/
def decode (w : CommandWord) : Except DecodeError Instr :=
  match rowOf (w.extractLsb' 56 8) with
  | none => .error (.illegalOpcode (highHalf w))
  | some r => r.decode w

/-- The command of a word given as the opcode table numbers its bits: one 64-bit word, bit 0 its least
significant; bits from `nbits` up are 0. -/
def decodeTableWord (nbits w : Nat) : Option Instr :=
  match decode (BitVec.ofNat 64 (w % 2 ^ nbits)) with
  | .ok i => some i
  | .error _ => none

/-- The 4-bit field of a class F register. -/
def fieldF (r : FReg) : BitVec 4 := BitVec.ofFin r

/-- The 4-bit field of a class S, P, N or M register: bit 3 is 0. -/
def field8 (r : Fin 8) : BitVec 4 := 0#1 ++ (BitVec.ofFin r : BitVec 3)

/-- The 4-bit field of an FG base. -/
def fieldG (g : FGroup) : BitVec 4 := BitVec.ofNat 4 g.val

/-- A 16-bit immediate in IMM[15:0]. -/
def immOf16 (u : BitVec 16) : BitVec 32 := 0#16 ++ u

/-- An addrm immediate: strip in IMM[23:16], base in IMM[15:0]. -/
def immOfStrip (strip : BitVec 8) (base : BitVec 16) : BitVec 32 := 0#8 ++ (strip ++ base)

/-- MOD with BD (bit 0) and AM (bit 1). -/
def modOf (bd am : Bool) : BitVec 8 := 0#6 ++ (BitVec.ofBool am ++ BitVec.ofBool bd)

/-- The fields of a command; a field it does not use is 0 (30_encoding.md R304, R308). -/
def Instr.fields : Instr → Fields
  | .nop => ⟨0x00, 0, 0, 0, 0, 0, 0⟩
  | .halt => ⟨0x01, 0, 0, 0, 0, 0, 0⟩
  | .jmp off => ⟨0x02, 0, 0, 0, 0, 0, immOf16 off⟩
  | .bmt c off => ⟨0x03, 0, 0, 0, field8 c, 0, immOf16 off⟩
  | .bmf c off => ⟨0x04, 0, 0, 0, field8 c, 0, immOf16 off⟩
  | .setlc u => ⟨0x05, 0, 0, 0, 0, 0, immOf16 u⟩
  | .djnz off => ⟨0x06, 0, 0, 0, 0, 0, immOf16 off⟩
  | .seta u => ⟨0x07, 0, 0, 0, 0, 0, immOf16 u⟩
  | .adda v => ⟨0x08, 0, 0, 0, 0, 0, immOf16 v⟩
  | .fadd d a b => ⟨0x10, fieldF d, fieldF a, fieldF b, 0, 0, 0⟩
  | .fsub d a b => ⟨0x11, fieldF d, fieldF a, fieldF b, 0, 0, 0⟩
  | .fneg d a => ⟨0x12, fieldF d, fieldF a, 0, 0, 0, 0⟩
  | .fmul d a b => ⟨0x13, fieldF d, fieldF a, fieldF b, 0, 0, 0⟩
  | .fsqr d a => ⟨0x14, fieldF d, fieldF a, 0, 0, 0, 0⟩
  | .fmulc d a c => ⟨0x15, fieldF d, fieldF a, 0, 0, 0, c⟩
  | .fwred d a => ⟨0x16, fieldF d, fieldF a, 0, 0, 0, 0⟩
  | .fsred d a => ⟨0x17, fieldF d, fieldF a, 0, 0, 0, 0⟩
  | .fmov d a => ⟨0x18, fieldF d, fieldF a, 0, 0, 0, 0⟩
  | .fconst d i => ⟨0x19, fieldF d, 0, 0, 0, 0, immOf16 (BitVec.ofNat 16 i.val)⟩
  | .finv d a => ⟨0x1A, fieldF d, fieldF a, 0, 0, 0, 0⟩
  | .fisr d a c => ⟨0x1B, fieldF d, fieldF a, 0, field8 c, 0, 0⟩
  | .feq d a b => ⟨0x20, field8 d, fieldF a, fieldF b, 0, 0, 0⟩
  | .fsel d a b c => ⟨0x21, fieldF d, fieldF a, fieldF b, field8 c, 0, 0⟩
  | .fcswap a b c => ⟨0x22, 0, fieldF a, fieldF b, field8 c, 0, 0⟩
  | .fcneg d a c => ⟨0x23, fieldF d, fieldF a, 0, field8 c, 0, 0⟩
  | .mset d i => ⟨0x28, field8 d, 0, 0, 0, 0, immOf16 (BitVec.ofNat 16 i.val)⟩
  | .mand d a b => ⟨0x29, field8 d, field8 a, field8 b, 0, 0, 0⟩
  | .mor d a b => ⟨0x2A, field8 d, field8 a, field8 b, 0, 0, 0⟩
  | .mxor d a b => ⟨0x2B, field8 d, field8 a, field8 b, 0, 0, 0⟩
  | .mnot d a => ⟨0x2C, field8 d, field8 a, 0, 0, 0, 0⟩
  | .mld d am base => ⟨0x2D, field8 d, 0, 0, 0, modOf false am, immOf16 base⟩
  | .mst a am base => ⟨0x2E, 0, field8 a, 0, 0, modOf false am, immOf16 base⟩
  | .fld d c am base => ⟨0x30, fieldF d, 0, 0, field8 c, modOf false am, immOf16 base⟩
  | .fldm d c am strip base => ⟨0x31, fieldF d, 0, 0, field8 c, modOf false am, immOfStrip strip base⟩
  | .fst a am base => ⟨0x32, 0, fieldF a, 0, 0, modOf false am, immOf16 base⟩
  | .sadd d a b => ⟨0x40, field8 d, field8 a, field8 b, 0, 0, 0⟩
  | .ssub d a b => ⟨0x41, field8 d, field8 a, field8 b, 0, 0, 0⟩
  | .smont d a b => ⟨0x42, field8 d, field8 a, field8 b, 0, 0, 0⟩
  | .smul d a b => ⟨0x43, field8 d, field8 a, field8 b, 0, 0, 0⟩
  | .shalve d a => ⟨0x44, field8 d, field8 a, 0, 0, 0, 0⟩
  | .smov d a => ⟨0x45, field8 d, field8 a, 0, 0, 0, 0⟩
  | .sconst d i => ⟨0x46, field8 d, 0, 0, 0, 0, immOf16 (BitVec.ofNat 16 i.val)⟩
  | .sld d c am base => ⟨0x47, field8 d, 0, 0, field8 c, modOf false am, immOf16 base⟩
  | .sst a am base => ⟨0x48, 0, field8 a, 0, 0, modOf false am, immOf16 base⟩
  | .pdbl d a bd => ⟨0x50, field8 d, field8 a, 0, 0, modOf bd false, 0⟩
  | .paddn d a b bd => ⟨0x51, field8 d, field8 a, field8 b, 0, modOf bd false, 0⟩
  | .psubn d a b bd => ⟨0x52, field8 d, field8 a, field8 b, 0, modOf bd false, 0⟩
  | .paddpn d a b bd => ⟨0x53, field8 d, field8 a, field8 b, 0, modOf bd false, 0⟩
  | .psubpn d a b bd => ⟨0x54, field8 d, field8 a, field8 b, 0, modOf bd false, 0⟩
  | .padd d a b bd => ⟨0x55, field8 d, field8 a, field8 b, 0, modOf bd false, 0⟩
  | .pton d a => ⟨0x56, field8 d, field8 a, 0, 0, 0, 0⟩
  | .ncneg d a c => ⟨0x57, field8 d, field8 a, 0, field8 c, 0, 0⟩
  | .pid d => ⟨0x58, field8 d, 0, 0, 0, 0, 0⟩
  | .peq d a b => ⟨0x59, field8 d, field8 a, field8 b, 0, 0, 0⟩
  | .pvalid d a => ⟨0x5A, field8 d, field8 a, 0, 0, 0, 0⟩
  | .pfx d g => ⟨0x5B, field8 d, fieldG g, 0, 0, 0, 0⟩
  | .pxf g a => ⟨0x5C, fieldG g, field8 a, 0, 0, 0, 0⟩
  | .nfx d g => ⟨0x5D, field8 d, fieldG g, 0, 0, 0, 0⟩
  | .nxf g a => ⟨0x5E, fieldG g, field8 a, 0, 0, 0, 0⟩
  | .pmov d a => ⟨0x5F, field8 d, field8 a, 0, 0, 0, 0⟩
  | .psmul d a b => ⟨0x60, field8 d, field8 a, field8 b, 0, 0, 0⟩
  | .pbmul d a => ⟨0x61, field8 d, field8 a, 0, 0, 0, 0⟩
  | .pdsmul d a b c => ⟨0x62, field8 d, field8 a, field8 b, field8 c, 0, 0⟩

/-- The word of a command. -/
def encode (i : Instr) : CommandWord := i.fields.pack

end Sys2Proof
end

