-- ==== Sys2Proof/Config.lean ====
section
/-! DEFINITION. What an implementation fixes and what the spec leaves open: the memory sizes and the
free values (the free base point needs the curve: Machine/BasePoint.lean). An `opaque` constant here has no body, so nothing proved
about the model rests on what it is. -/

namespace Sys2Proof.Config

/-- IMEM holds 512 command words (00_scope.md R15). -/
def imemWords : Nat := 512

/-- DMEM holds 4096 bytes (00_scope.md R15). -/
def dmemBytes : Nat := 4096

/-- IMEM holds 8 bytes a word in the host's window (20_memory.md R231). -/
def imemBytes : Nat := 4096

/-- The 16 bits a host read of PC, LC or AR returns while BUSY: "any 16-bit value"
(10_state.md R144, R149, R150). Free: log entry 4. -/
opaque freeHalf : Nat → BitVec 16

/-- Whether one byte of a store cancelled by a soft reset got its new value
(70_reset_and_hazards.md R1101: "which one is unspecified, byte by byte"). Free: log entry 5. -/
opaque freeBit : Nat → Bool

end Sys2Proof.Config
end

