-- ==== Sys2Proof/Machine/State.lean ====
section
/-! DEFINITION. The state of the ED448 CORE as plain data (10_state.md), with the memories of
20_memory.md, the outcomes a step can have, and the state after reset (10_state.md R180). -/

namespace Sys2Proof.Machine

/-- Extended twisted-Edwards coordinates (10_state.md R104). -/
structure ExtPoint where
  x : Fe
  y : Fe
  z : Fe
  t : Fe
deriving DecidableEq, Repr

/-- A point register: four coordinates and the stale-T bit TS (10_state.md R104, R105). -/
structure PointReg where
  coords : ExtPoint
  ts : Bool
deriving DecidableEq, Repr

/-- A Niels register: (YpX, YmX, T2d, Z) (10_state.md R106). -/
structure Niels where
  ypx : Fe
  ymx : Fe
  t2d : Fe
  z : Fe
deriving DecidableEq, Repr

/-- The identity (0, 1, 1, 0) (00_scope.md R26). -/
def ExtPoint.identity : ExtPoint := ⟨Fe.zero, Fe.one, Fe.one, Fe.zero⟩

/-- The Niels form (1, 1, 0, 1) of the identity (10_state.md R106). -/
def Niels.identity : Niels := ⟨Fe.one, Fe.one, Fe.zero, Fe.one⟩

/-- A memory: the bytes that differ from `unlistedByte`, by rising address (log entry 1). -/
abbrev Memory := List Host.Cell

/-- The run state (10_state.md R113). -/
inductive RunState where
  | idle
  | running
deriving DecidableEq, Repr

/-- The width of a host access. 20_memory.md R230 gives an effect to one aligned 32-bit word and speaks of
every other access as one "of another width", without saying which widths there are. DESIGN CHOICE, log
entry 17: 8, 16 and 32 bits, and one name for every width above 32 bits. -/
inductive AccessSize where
  /-- 8 bits. -/
  | byte
  /-- 16 bits. -/
  | half
  /-- 32 bits, the one width whose accesses have an effect. -/
  | word
  /-- Any width above 32 bits. -/
  | wider
deriving DecidableEq, Repr

/-- One coming action of the host or of the platform's reset input (log entry 3). -/
inductive HostAction where
  /-- The host stays silent while the core takes one turn: to the end of the command. -/
  | letCoreStep
  /-- The host stays silent while the core passes a command boundary, so that its next access lands while
  that command is in progress (60_exceptions.md R1006). -/
  | letCoreBegin
  /-- The host writes `v` at a byte offset of the window (20_memory.md R230). Where `size` is not 32 bits the
  access is ignored, and `v` with it (log entry 17). -/
  | write (offset : BitVec 14) (size : AccessSize) (v : BitVec 32)
  /-- The host reads at a byte offset of the window. -/
  | read (offset : BitVec 14) (size : AccessSize)
  /-- Power-on reset; the memories come up with the given bytes (70_reset_and_hazards.md R1100). -/
  | powerOnReset (imemInit dmemInit : List Host.Cell)
deriving DecidableEq, Repr

/-- The state of the machine. The last three fields are the model's own (log entries 3 and 4). -/
structure State where
  /-- Field registers F[0..15] (R100). -/
  f : Vector Fe 16
  /-- Scalar registers S[0..7] (R102). -/
  sc : Vector Sc 8
  /-- Point registers P[0..7] with their TS bits (R104, R105). -/
  p : Vector PointReg 8
  /-- Niels registers N[0..7] (R106). -/
  n : Vector Niels 8
  /-- Mask registers M[0..7] (R107). -/
  m : Vector (BitVec 32) 8
  /-- Program counter, an IMEM word index (R110, R144). -/
  pc : BitVec 16
  /-- Loop counter (R111, R149). -/
  lc : BitVec 16
  /-- Address register (R112, R150). -/
  ar : BitVec 16
  /-- Run state, STATUS.BUSY (R113). -/
  run : RunState
  /-- The hidden abort latch (R114). -/
  abortLatch : Bool
  /-- The command at pc has passed its boundary and is in progress, with nothing written yet
  (60_exceptions.md R1006, 70_reset_and_hazards.md R1101). -/
  inProgress : Bool
  /-- CTRL.IE (R141). -/
  ie : Bool
  /-- STATUS.DONE (R142). -/
  done : Bool
  /-- STATUS.ERR (R142). -/
  err : Bool
  /-- STATUS.HAC (R142). -/
  hac : Bool
  /-- ENTRY (R143). -/
  entry : BitVec 16
  /-- CAUSE (R145). -/
  cause : BitVec 8
  /-- EPC (R146). -/
  epc : BitVec 16
  /-- EINFO (R147). -/
  einfo : BitVec 32
  /-- IMEM: word i at bytes 8i to 8i + 7, in the order of its host window (20_memory.md R202, R231;
  log entry 2). -/
  imem : Memory
  /-- DMEM, byte addresses 0 to 4095 (20_memory.md R201). -/
  dmem : Memory
  /-- What the host and the reset input do next, oldest first. -/
  host : List HostAction
  /-- The word the last host read returned, none before the first. -/
  hostRead : Option (BitVec 32)
  /-- How many free values have been drawn. -/
  freeCount : Nat
deriving DecidableEq, Repr

/-- No command and no host access stops the machine: an exception of the core is a next state
(60_exceptions.md R1010), so there is no fault (safe: log entry 12). -/
inductive Fault where
deriving DecidableEq, Repr

/-- Why a step has no meaning. -/
inductive Refusal where
  /-- Raised by an arm of `exec` whose instruction has no meaning yet: safe. No arm raises it. -/
  | notModelled (mnemonic : String)
deriving DecidableEq, Repr

/-- The outcome of a command or a step. -/
abbrev Result := Host.Outcome State Fault Refusal

/-- The core after a power-on reset with the given memory contents and the host's coming actions
(10_state.md R180, 70_reset_and_hazards.md R1100). -/
def State.powerOn (imem dmem : Memory) (host : List HostAction) (hostRead : Option (BitVec 32))
    (freeCount : Nat) : State where
  f := Vector.replicate 16 Fe.zero
  sc := Vector.replicate 8 (Sc.ofNat 0)
  p := Vector.replicate 8 ⟨ExtPoint.identity, false⟩
  n := Vector.replicate 8 Niels.identity
  m := Vector.replicate 8 0
  pc := 0
  lc := 0
  ar := 0
  run := .idle
  abortLatch := false
  inProgress := false
  ie := false
  done := false
  err := false
  hac := false
  entry := 0
  cause := 0
  epc := 0
  einfo := 0
  imem := imem
  dmem := dmem
  host := host
  hostRead := hostRead
  freeCount := freeCount

/-- The machine right after power-on reset, the host silent. IMEM_INIT and DMEM_INIT list nothing:
DESIGN CHOICE, log entry 1. -/
def State.reset : State := State.powerOn [] [] [] none 0

end Sys2Proof.Machine
end

