-- ==== Sys2Proof/Machine/Ops.lean ====
section
/-! DEFINITION. The named operations over memory and registers, taking an exception
(60_exceptions.md R1010), and placing and fetching a command word. -/

namespace Sys2Proof.Machine

/-! ## Memory -/

/-- What an unlisted byte reads as: the power-on content the spec leaves open. DESIGN CHOICE, log
entry 1. -/
def unlistedByte : Byte := 0

/-- One byte of memory. -/
def Memory.read : Memory → Nat → Byte
  | [], _ => unlistedByte
  | (k, b) :: rest, a => if k = a then b else Memory.read rest a

/-- Write one byte, keeping the list sorted and without a byte equal to `unlistedByte`. -/
def Memory.write : Memory → Nat → Byte → Memory
  | [], a, b => if b = unlistedByte then [] else [(a, b)]
  | (k, c) :: rest, a, b =>
    if a < k then (if b = unlistedByte then (k, c) :: rest else (a, b) :: (k, c) :: rest)
    else if a = k then (if b = unlistedByte then rest else (a, b) :: rest)
    else (k, c) :: Memory.write rest a b

/-- `MemRead(addr, n)`: n bytes read little-endian (00_scope.md R24). -/
def Memory.readLE (mem : Memory) (a : Nat) : Nat → Nat
  | 0 => 0
  | n + 1 => (mem.read a).toNat + 256 * Memory.readLE mem (a + 1) n

/-- `MemWrite(addr, n, v)`: n bytes written little-endian (00_scope.md R24). -/
def Memory.writeLE (mem : Memory) (a : Nat) : Nat → Nat → Memory
  | 0, _ => mem
  | n + 1, v => Memory.writeLE (mem.write a (BitVec.ofNat 8 v)) (a + 1) n (v / 256)

/-- All addresses of the list are above `lo`, rise strictly, and no byte is `unlistedByte`. -/
def Memory.wfAbove : Nat → Memory → Bool
  | _, [] => true
  | lo, (k, b) :: rest => lo ≤ k && b != unlistedByte && Memory.wfAbove (k + 1) rest

/-- The canonical form of a memory: strictly rising addresses, no byte equal to `unlistedByte`. -/
def Memory.wf (mem : Memory) : Bool := Memory.wfAbove 0 mem

/-- No address of the list is `size` or more. -/
def Memory.within (size : Nat) (mem : Memory) : Bool := mem.all (fun c => c.1 < size)

/-- The memory of `size` bytes with the given bytes, later entries over earlier ones. -/
def Memory.ofCells (size : Nat) (cells : List Host.Cell) : Memory :=
  cells.foldl (fun mem c => if c.1 < size then mem.write c.1 c.2 else mem) []

/-! ## Registers (00_scope.md R23) -/

/-- `F[i]`. -/
def State.getF (s : State) (i : FReg) : Fe := s.f[i]
/-- `S[i]`. -/
def State.getS (s : State) (i : SReg) : Sc := s.sc[i]
/-- `P[i]`. -/
def State.getP (s : State) (i : PReg) : PointReg := s.p[i]
/-- `N[i]`. -/
def State.getN (s : State) (i : NReg) : Niels := s.n[i]
/-- `M[i]`. -/
def State.getM (s : State) (i : MReg) : BitVec 32 := s.m[i]

/-- `F[i] <- v`. -/
def State.setF (s : State) (i : FReg) (v : Fe) : State := { s with f := s.f.set i v }
/-- `S[i] <- v`. -/
def State.setS (s : State) (i : SReg) (v : Sc) : State := { s with sc := s.sc.set i v }
/-- `P[i] <- v`. -/
def State.setP (s : State) (i : PReg) (v : PointReg) : State := { s with p := s.p.set i v }
/-- `N[i] <- v`. -/
def State.setN (s : State) (i : NReg) (v : Niels) : State := { s with n := s.n.set i v }
/-- `M[i] <- v`. -/
def State.setM (s : State) (i : MReg) (v : BitVec 32) : State := { s with m := s.m.set i v }
/-- `lc <- v`. -/
def State.setLc (s : State) (v : BitVec 16) : State := { s with lc := v }
/-- `ar <- v`. -/
def State.setAr (s : State) (v : BitVec 16) : State := { s with ar := v }
/-- `MemWrite(a, n, v)` on DMEM. -/
def State.storeLE (s : State) (a n v : Nat) : State := { s with dmem := s.dmem.writeLE a n v }
/-- `MemRead(a, n)` on DMEM. -/
def State.loadLE (s : State) (a n : Nat) : Nat := s.dmem.readLE a n

/-! ## The program counter -/

/-- `pc <- (pc + 1) mod 2^16` (47_sequencer.md R902). -/
def State.advance (s : State) : State := { s with pc := s.pc + 1 }

/-- `pc <- (pc + sext(off)) mod 2^16`, from the branch's own index (47_sequencer.md R903); adding a
16-bit word modulo 2^16 is adding its signed value. -/
def State.branch (s : State) (off : BitVec 16) : State := { s with pc := s.pc + off }

/-- A command that neither branches nor stops completes with its writes done. -/
def complete (s : State) : Result := .next s.advance

/-! ## Exceptions (60_exceptions.md) -/

/-- The exceptions (R1001); NONE is the code 0. -/
inductive Cause where
  | illegalOpcode
  | illegalOperand
  | badImmediate
  | pcRange
  | dmemMisaligned
  | dmemRange
  | staleT
  | aborted
deriving DecidableEq, Repr

/-- CAUSE[7:0] of an exception (R1001). -/
def causeCode : Cause → BitVec 8
  | .illegalOpcode => 1
  | .illegalOperand => 2
  | .badImmediate => 3
  | .pcRange => 4
  | .dmemMisaligned => 5
  | .dmemRange => 6
  | .staleT => 7
  | .aborted => 8

/-- Exception entry (R1010): CAUSE, EPC, EINFO and STATUS.ERR are written and the core becomes idle;
pc and everything else stay. -/
def State.raise (s : State) (c : Cause) (info : BitVec 32) : State :=
  { s with cause := causeCode c, epc := s.pc, einfo := info, err := true, run := .idle }

/-- `raise E(info)` as the end of a command. -/
def raised (s : State) (c : Cause) (info : BitVec 32) : Result := .next (s.raise c info)

/-- The exception of a word that does not decode (R1003). -/
def raisedDecode (s : State) : DecodeError → Result
  | .illegalOpcode info => raised s .illegalOpcode info
  | .illegalOperand info => raised s .illegalOperand info
  | .badImmediate info => raised s .badImmediate info

/-- ABORTED is taken at a boundary: EINFO is 0 and the latch is cleared (R1006). -/
def State.takeAbort (s : State) : State := { s.raise .aborted 0 with abortLatch := false }

/-! ## Start and reset -/

/-- Whether the command at pc is in progress (60_exceptions.md R1006). -/
def State.setInProgress (s : State) (b : Bool) : State := { s with inProgress := b }

/-- START (47_sequencer.md R901). -/
def State.start (s : State) : State :=
  { s with pc := s.entry, cause := 0, done := false, err := false, abortLatch := false, run := .running }

/-- HALT's effect: DONE is set, the core becomes idle, pc stays (47_sequencer.md R911). -/
def State.halt (s : State) : State := { s with done := true, run := .idle }

/-! ## Fetching -/

/-- IMEM[i] (20_memory.md R202, R216). -/
def State.imemWord (s : State) (i : Nat) : CommandWord := BitVec.ofNat 64 (s.imem.readLE (8 * i) 8)

/-- The state in which the very next step fetches and runs the word w: the word at IMEM[pc] (pc made 0
where it is outside IMEM), the core RUNNING, no abort latched, no command in progress, the host
silent (log entry 8). -/
def State.placeCommand (s : State) (w : CommandWord) : State :=
  let pc := if s.pc.toNat < Config.imemWords then s.pc else 0
  { s with
    pc := pc, run := .running, abortLatch := false, inProgress := false, host := []
    imem := s.imem.writeLE (8 * pc.toNat) 8 w.toNat }

end Sys2Proof.Machine
end

