-- ==== Sys2Proof/Machine/Flags.lean ====
section
/-! DEFINITION. The only flags of the core: the mask words (10_state.md R107, R108), and the STATUS
bits that are functions of the state (R142). -/

namespace Sys2Proof.Machine

/-- ONES, the true mask (00_scope.md R22). -/
def ones : BitVec 32 := 0xFFFFFFFF

/-- `mask(b)` (00_scope.md R22). -/
def maskOf (b : Bool) : BitVec 32 := if b then ones else 0

/-- A mask word holds one of its two values (10_state.md R107). -/
def legalMask (w : BitVec 32) : Bool := w == 0 || w == ones

/-- M[c] = ONES: the condition of the selectors and of BMT. -/
def State.maskTrue (s : State) (c : MReg) : Bool := s.getM c == ones

/-- M[c] = 0: the condition of BMF. -/
def State.maskFalse (s : State) (c : MReg) : Bool := s.getM c == 0

/-- STATUS.BUSY (10_state.md R142). -/
def State.busy (s : State) : Bool := s.run == .running

/-- The interrupt output, and STATUS.IRQ: IE AND (DONE OR ERR) (60_exceptions.md R1020). -/
def State.irq (s : State) : Bool := s.ie && (s.done || s.err)

/-- The STATUS word: IRQ, HAC, ERR, DONE, BUSY in bits 4 to 0 (10_state.md R142). -/
def State.statusWord (s : State) : BitVec 32 :=
  0#27 ++ (BitVec.ofBool s.irq ++ (BitVec.ofBool s.hac ++ (BitVec.ofBool s.err ++
    (BitVec.ofBool s.done ++ BitVec.ofBool s.busy))))

end Sys2Proof.Machine
end

