-- ==== Sys2Proof/Machine/Operands.lean ====
section
/-! DEFINITION. Operand forms: the effective address with its alignment and range checks
(20_memory.md R210-R212, 60_exceptions.md R1005), the stale-T check of a point operand
(60_exceptions.md R1004), and the groups of four field registers (30_encoding.md R303). -/

namespace Sys2Proof.Machine

/-- EA = (base + (AM ? ar : 0)) mod 2^16 (20_memory.md R210). -/
def State.effAddr (s : State) (am : Bool) (base : BitVec 16) : BitVec 16 :=
  base + (if am then s.ar else 0)

/-- A memory command of n bytes: alignment is checked first, then the range on the unwrapped sum, and
only then does the command act on its address (60_exceptions.md R1005). -/
def memoryCommand (n : Nat) (am : Bool) (base : BitVec 16) (s : State) (act : Nat → State) : Result :=
  let ea := s.effAddr am base
  if ea.toNat % 4 ≠ 0 then raised s .dmemMisaligned (ea.setWidth 32)
  else if Config.dmemBytes < ea.toNat + n then raised s .dmemRange (ea.setWidth 32)
  else complete (act ea.toNat)

/-- STALE_T(a): a point whose T is about to be read must have TS = 0 (60_exceptions.md R1004). -/
def withFreshT (a : PReg) (s : State) (k : ExtPoint → Result) : Result :=
  if (s.getP a).ts then raised s .staleT (BitVec.ofNat 32 a.val) else k (s.getP a).coords

/-- F[g + k] of the group with base g. -/
def groupReg (g : FGroup) (k : Fin 4) : FReg := ⟨g.val + k.val, by omega⟩

/-- The four registers of a group written in one go. -/
def State.setGroup (s : State) (g : FGroup) (a b c d : Fe) : State :=
  (((s.setF (groupReg g 0) a).setF (groupReg g 1) b).setF (groupReg g 2) c).setF (groupReg g 3) d

/-- F[g + k], read. -/
def State.getGroup (s : State) (g : FGroup) (k : Fin 4) : Fe := s.getF (groupReg g k)

end Sys2Proof.Machine
end

