-- ==== Sys2Proof/Machine/Scalar.lean ====
section
/-! DEFINITION. Scalar arithmetic (44_scalar.md). `+` and `-` on `Sc` are those of the integers mod L. -/

namespace Sys2Proof.Machine

/-- The inverse modulo L of the Montgomery radix R = 2^448 (44_scalar.md R603; 95_test_vectors.md
section 2). -/
def montRInv : Nat :=
  0x2b1f7dc1f7afb220b3dbd679b284c536856c1d6cc9e7f74b5926c891ced2502755fdd4f7fb2411b7dfd98dc4a53f3574b50eeb00f1769696

/-- R^2 mod L (00_scope.md R13). -/
def montR2 : Sc :=
  Sc.ofNat 0x3402a939f823b7292052bcb7e4d070af1a9cc14ba3c47c44ae17cf725ee4d8380d66de2388ea18597af32c4bc1b195d9e3539257049b9b60

/-- ADJ = (2^450 - 1) mod L, the engines' offset (00_scope.md R13). -/
def scalarAdj : Sc := Sc.ofNat 0x8335dc163bb124b65129c96fde933d8d723a70aadc873d6d54a7bb0cf

/-- Montgomery multiplication: x·y·R^(-1) mod L (R603). -/
def scalarMont (x y : Sc) : Sc := Sc.ofNat (x.val * y.val * montRInv)

/-- Multiplication as two Montgomery multiplications (R604). -/
def scalarMul (x y : Sc) : Sc := scalarMont (scalarMont x y) montR2

/-- Halving: (s + (s odd ? L : 0)) div 2 (R605). -/
def scalarHalve (x : Sc) : Sc :=
  ⟨(x.val + if x.val % 2 = 1 then orderL else 0) / 2, by have := x.isLt; split <;> omega⟩

/-- The constants SC[0..3] (R607). -/
def scalarConst : Fin 4 → Sc
  | 0 => Sc.ofNat 0
  | 1 => Sc.ofNat 1
  | 2 => montR2
  | 3 => scalarAdj

/-- SADD (R601). -/
def execSadd (d a b : SReg) (s : State) : Result := complete (s.setS d (s.getS a + s.getS b))

/-- SSUB (R602). -/
def execSsub (d a b : SReg) (s : State) : Result := complete (s.setS d (s.getS a - s.getS b))

/-- SMONT (R603). -/
def execSmont (d a b : SReg) (s : State) : Result := complete (s.setS d (scalarMont (s.getS a) (s.getS b)))

/-- SMUL (R604). -/
def execSmul (d a b : SReg) (s : State) : Result := complete (s.setS d (scalarMul (s.getS a) (s.getS b)))

/-- SHALVE (R605). -/
def execShalve (d a : SReg) (s : State) : Result := complete (s.setS d (scalarHalve (s.getS a)))

/-- SMOV (R606). -/
def execSmov (d a : SReg) (s : State) : Result := complete (s.setS d (s.getS a))

/-- SCONST (R607). -/
def execSconst (d : SReg) (i : Fin 4) (s : State) : Result := complete (s.setS d (scalarConst i))

/-- SLD (R611): v mod L, and whether v was below L. -/
def execSld (d : SReg) (c : MReg) (am : Bool) (base : BitVec 16) (s : State) : Result :=
  memoryCommand 56 am base s fun ea =>
    let v := s.loadLE ea 56
    (s.setS d (Sc.ofNat v)).setM c (maskOf (v < orderL))

/-- SST (R612). -/
def execSst (a : SReg) (am : Bool) (base : BitVec 16) (s : State) : Result :=
  memoryCommand 56 am base s fun ea => s.storeLE ea 56 (s.getS a).val

end Sys2Proof.Machine
end

