-- ==== Sys2Proof/Machine/Field.lean ====
section
/-! DEFINITION. Field arithmetic (40_field.md) and the prime-field inverter (41_field_inverter.md).
`+`, `-` and `*` on `Fe` are those of the integers mod p. -/

namespace Sys2Proof.Machine

/-- -x mod p, as (0 - x) mod p (40_field.md R403). -/
def fieldNeg (x : Fe) : Fe := Fe.zero - x

/-- x^e mod p for e < 2^fuel, one bit of e at a time from the top. -/
def fieldPowBits (x : Fe) : Nat → Nat → Fe
  | 0, _ => Fe.one
  | fuel + 1, e =>
    let half := fieldPowBits x fuel (e / 2)
    if e % 2 = 1 then half * half * x else half * half

/-- x^e mod p (00_scope.md R22) for an exponent of at most 448 bits. -/
def fieldPow (x : Fe) (e : Nat) : Fe := fieldPowBits x 448 e

/-- x^(p-2) mod p, the inverse of a non-zero x, and 0 for x = 0 (41_field_inverter.md R450). -/
def fieldInv (x : Fe) : Fe := fieldPow x (fieldP - 2)

/-- x^((p-3)/4) mod p (41_field_inverter.md R451). -/
def fieldIsr (x : Fe) : Fe := fieldPow x ((fieldP - 3) / 4)

/-- The constants FC[0..5] (40_field.md R410): 0, 1, 2, d = -39081, D_TW = -39082, 2·D_TW. -/
def fieldConst : Fin 6 → Fe
  | 0 => Fe.zero
  | 1 => Fe.one
  | 2 => Fe.two
  | 3 => Fe.ofInt (-39081)
  | 4 => Fe.ofInt (-39082)
  | 5 => Fe.ofInt (-78164)

/-- FADD (R401). -/
def execFadd (d a b : FReg) (s : State) : Result := complete (s.setF d (s.getF a + s.getF b))

/-- FSUB (R402). -/
def execFsub (d a b : FReg) (s : State) : Result := complete (s.setF d (s.getF a - s.getF b))

/-- FNEG (R403). -/
def execFneg (d a : FReg) (s : State) : Result := complete (s.setF d (fieldNeg (s.getF a)))

/-- FMUL (R404). -/
def execFmul (d a b : FReg) (s : State) : Result := complete (s.setF d (s.getF a * s.getF b))

/-- FSQR (R405). -/
def execFsqr (d a : FReg) (s : State) : Result := complete (s.setF d (s.getF a * s.getF a))

/-- FMULC (R406): the exact signed product, reduced mod p. -/
def execFmulc (d a : FReg) (c : BitVec 32) (s : State) : Result :=
  complete (s.setF d (Fe.ofInt ((s.getF a).val * c.toInt)))

/-- FWRED (R407): a register already holds a residue. -/
def execFwred (d a : FReg) (s : State) : Result := complete (s.setF d (s.getF a))

/-- FSRED (R408): a register already holds a residue. -/
def execFsred (d a : FReg) (s : State) : Result := complete (s.setF d (s.getF a))

/-- FMOV (R409). -/
def execFmov (d a : FReg) (s : State) : Result := complete (s.setF d (s.getF a))

/-- FCONST (R410). -/
def execFconst (d : FReg) (i : Fin 6) (s : State) : Result := complete (s.setF d (fieldConst i))

/-- FINV (41_field_inverter.md R450). -/
def execFinv (d a : FReg) (s : State) : Result := complete (s.setF d (fieldInv (s.getF a)))

/-- FISR (41_field_inverter.md R451): the root, and whether it is one. -/
def execFisr (d a : FReg) (c : MReg) (s : State) : Result :=
  let x := s.getF a
  let r := fieldIsr x
  complete ((s.setF d r).setM c (maskOf (r * r * x == Fe.one)))

end Sys2Proof.Machine
end

