-- ==== Sys2Proof/Machine/Edwards.lean ====
section
/-! DEFINITION. The point formulas (45_point.md R700, R701, R703): the definition of every point
command, whatever its inputs (R715). All arithmetic is mod p. -/

namespace Sys2Proof.Machine

/-- An affine point. -/
structure AffinePoint where
  x : Fe
  y : Fe
deriving DecidableEq, Repr

/-- D_TW, the adder's curve constant -39082 (00_scope.md R16). -/
def curveD : Fe := Fe.ofInt (-39082)

/-- toPN: the projected Niels form (R700). -/
def toPN (q : ExtPoint) : Niels := ⟨q.y + q.x, q.y - q.x, Fe.two * curveD * q.t, q.z⟩

/-- affN: the affine Niels form (R700). -/
def affN (q : AffinePoint) : Niels := ⟨q.y + q.x, q.y - q.x, Fe.two * curveD * q.x * q.y, Fe.one⟩

/-- negN: the Niels form of the negated point (R700). -/
def negN (n : Niels) : Niels := ⟨n.ymx, n.ypx, fieldNeg n.t2d, n.z⟩

/-- dbl: doubling; with bd the final T multiplication is skipped and T passes through (R701, R702). -/
def dbl (q : ExtPoint) (bd : Bool) : ExtPoint :=
  let a := q.x * q.x
  let b := q.y * q.y
  let c := Fe.two * (q.z * q.z)
  let d := fieldNeg a
  let e := (q.x + q.y) * (q.x + q.y) - a - b
  let g := d + b
  let f := g - c
  let h := d - b
  ⟨e * f, g * h, f * g, if bd then q.t else e * h⟩

/-- add_core: unified addition of a Niels point, with the Z factor dv (R703). -/
def addCore (q : ExtPoint) (n : Niels) (dv : Fe) (bd : Bool) : ExtPoint :=
  let a := (q.y - q.x) * n.ymx
  let b := (q.y + q.x) * n.ypx
  let c := q.t * n.t2d
  let e := b - a
  let f := dv - c
  let g := dv + c
  let h := b + a
  ⟨e * f, g * h, f * g, if bd then q.t else e * h⟩

/-- addPN: addition of a projected Niels point (R703). -/
def addPN (q : ExtPoint) (n : Niels) (bd : Bool) : ExtPoint := addCore q n (Fe.two * q.z * n.z) bd

/-- addN: addition of an affine Niels point; its Z is never read (R703). -/
def addN (q : ExtPoint) (n : Niels) (bd : Bool) : ExtPoint := addCore q n (Fe.two * q.z) bd

/-- The affine point (X/Z, Y/Z) of extended coordinates (10_state.md R104). -/
def toAffine (q : ExtPoint) : AffinePoint := ⟨q.x * fieldInv q.z, q.y * fieldInv q.z⟩

/-- X·Y = Z·T, -X² + Y² = Z² + D_TW·T² and Z ≠ 0 (R719). -/
def onCurve (q : ExtPoint) : Bool :=
  q.x * q.y == q.z * q.t &&
  q.y * q.y - q.x * q.x == q.z * q.z + curveD * (q.t * q.t) &&
  q.z != Fe.zero

/-- The projective comparison X1·Y2 = X2·Y1 (R713). -/
def sameRatio (q r : ExtPoint) : Bool := q.x * r.y == r.x * q.y

end Sys2Proof.Machine
end

