-- ==== Sys2Proof/Machine/BasePoint.lean ====
section
/-! DEFINITION. The parameter BASE_POINT (00_scope.md R19): a free point among all the affine points on the
curve of R16 whose order is L. -/

namespace Sys2Proof.Machine

/-- n·B in extended coordinates for n < 2^fuel, one bit of n at a time from the top. -/
def multipleBits (b : AffinePoint) : Nat → Nat → ExtPoint
  | 0, _ => ExtPoint.identity
  | fuel + 1, n =>
    let twice := dbl (multipleBits b fuel (n / 2)) false
    if n % 2 = 1 then addN twice (affN b) false else twice

/-- The affine point n·B for n < 2^450. -/
def affineMultiple (b : AffinePoint) (n : Nat) : AffinePoint := toAffine (multipleBits b 450 n)

/-- The coordinates represent the identity, the affine point (0, 1) (00_scope.md R26). -/
def ExtPoint.isIdentity (q : ExtPoint) : Bool := q.x == Fe.zero && q.y == q.z && q.z != Fe.zero

/-- -x² + y² = 1 + D_TW·x²·y² (00_scope.md R16). -/
def AffinePoint.onCurve (b : AffinePoint) : Bool :=
  b.y * b.y - b.x * b.x == Fe.one + curveD * (b.x * b.x) * (b.y * b.y)

/-- The order is exactly L: L·B is the identity and B is not. L is prime (00_scope.md R12), so no smaller
multiple of B is the identity. -/
def AffinePoint.hasOrderL (b : AffinePoint) : Bool :=
  (multipleBits b 450 orderL).isIdentity && b != ⟨Fe.zero, Fe.one⟩

/-- What 00_scope.md R19 demands of BASE_POINT. -/
def AffinePoint.legalBase (b : AffinePoint) : Bool := b.onCurve && b.hasOrderL

/-- The points that BASE_POINT may be. -/
abbrev LegalBase := { b : AffinePoint // b.legalBase = true }

/-- The test point B_T of 95_test_vectors.md section 2, "not claimed to be the conventional base point"
(92_eei_decisions.md D21). It serves only to show that there is a legal point. -/
def testPoint : AffinePoint where
  x := Fe.ofNat 0x950dc1f5c754083be94df52fdab369bc56ac074a2398c81e881a66c82494e3fbc430c6adfdc78d0202584be14865ed1cfcacfcf20a288642
  y := Fe.ofNat 0x3b65099395defa1aded002e9ed43eb1e3dfd7a9c985ab9aa032f047c7414dd4f506f04f33bd84c412523fc1e8ade56e67cf47bbff325d131

theorem testPoint_legal : testPoint.legalBase = true := by decide +kernel

end Sys2Proof.Machine

namespace Sys2Proof.Config

/-- BASE_POINT, any legal point once one is known to exist (00_scope.md R19). Free: log entry 6. -/
opaque freeBase [Inhabited Machine.LegalBase] : Machine.LegalBase

end Sys2Proof.Config

namespace Sys2Proof.Machine

/-- BASE_POINT, a parameter of the model (00_scope.md R19; log entry 6). -/
def basePoint : AffinePoint := (@Config.freeBase ⟨testPoint, testPoint_legal⟩).val

/-- BASE_POINT is on the curve and of order L (00_scope.md R19). -/
theorem basePoint_legal : basePoint.legalBase = true := (@Config.freeBase ⟨testPoint, testPoint_legal⟩).property

end Sys2Proof.Machine
end

