-- ==== Sys2Proof/Machine/Tables.lean ====
section
/-! DEFINITION. The read-only tables COMB_ROM and WNAF_ROM as functions of the base point
(46_scalarmul.md R830, R831; log entry 7). The hardware's tables are those of BASE_POINT. -/

namespace Sys2Proof.Machine

/-- n(j, idx) = 2^(18·(4 + 5j)) + Σ_{k<4} (2·idx_k - 1)·2^(18·(k + 5j)) (R830). -/
def combMultiple (j idx : Nat) : Int :=
  (2 ^ (18 * (4 + 5 * j)) : Nat) +
    ([0, 1, 2, 3].map fun k =>
      (if idx.testBit k then 1 else -1 : Int) * (2 ^ (18 * (k + 5 * j)) : Nat)).sum

/-- COMB_ROM[16·j + idx] (R830). -/
def combRom (b : AffinePoint) (j idx : Nat) : Niels := affN (affineMultiple b (combMultiple j idx).toNat)

/-- WNAF_ROM[i] (R831). -/
def wnafRom (b : AffinePoint) (i : Nat) : Niels := affN (affineMultiple b (2 * i + 1))

end Sys2Proof.Machine
end

