-- ==== Sys2Proof/Machine/Engines.lean ====
section
/-! DEFINITION. The three scalar-multiplication engines (46_scalarmul.md), as the exact sequences of
adder operations that define their results. -/

namespace Sys2Proof.Machine

/-! ## Common parts -/

/-- s <- SHALVE(SADD(k, ADJ)), so that 2s ≡ k + 2^450 - 1 mod L (R801). -/
def offsetHalve (k : Sc) : Sc := scalarHalve (k + scalarAdj)

/-- The entries of odd_table after the first: n further steps of acc <- acc + 2P (R802). -/
def oddTableFrom (pn2 : Niels) : Nat → ExtPoint → List Niels
  | 0, _ => []
  | n + 1, acc =>
    let acc' := addPN acc pn2 false
    toPN acc' :: oddTableFrom pn2 n acc'

/-- odd_table(P, n) for n ≥ 1: entry i represents (2i + 1)·P (R802). -/
def oddTable (q : ExtPoint) (n : Nat) : List Niels :=
  toPN q :: oddTableFrom (toPN (dbl q false)) (n - 1) q

/-- The signed table entry of a 5-bit digit: a clear top bit flips the digit and negates the entry
(R803, R810; 90_conflicts.md C3). -/
def signedEntry (digit : Nat) (entry : Nat → Niels) : Niels :=
  if digit.testBit 4 then entry (digit % 16) else negN (entry ((digit ^^^ 0x1F) % 16))

/-- Entry i of a table held as a list. Every index used is below the table's length. -/
def tableEntry (tbl : List Niels) (i : Nat) : Niels := tbl.getD i Niels.identity

/-! ## PSMUL -/

/-- Window w of s: s[5w+4 : 5w] (R803). -/
def windowDigit (s w : Nat) : Nat := s / 2 ^ (5 * w) % 32

/-- One window: four before_double doublings, one full doubling, one addition (R804). -/
def windowStep (tbl : List Niels) (s w : Nat) (q : ExtPoint) : ExtPoint :=
  let q4 := dbl (dbl (dbl (dbl q true) true) true) true
  addPN (dbl q4 false) (signedEntry (windowDigit s w) (tableEntry tbl)) (w != 0)

/-- The windows w = n - 1 down to 0. -/
def windowLoop (tbl : List Niels) (s : Nat) : Nat → ExtPoint → ExtPoint
  | 0, q => q
  | w + 1, q => windowLoop tbl s w (windowStep tbl s w q)

/-- The fixed-window multiplication (R804). -/
def windowMultiply (q : ExtPoint) (k : Sc) : ExtPoint :=
  windowLoop (oddTable q 16) (offsetHalve k).val 90 ExtPoint.identity

/-! ## PBMUL -/

/-- The comb digit of group j at spacing i: bits i + 18·(k + 5j) of s (R810). -/
def combDigit (s i j : Nat) : Nat :=
  ([0, 1, 2, 3, 4].map fun k => (s.testBit (i + 18 * (k + 5 * j))).toNat * 2 ^ k).sum

/-- One spacing position: one doubling, then the five groups (R811). -/
def combStep (b : AffinePoint) (s i : Nat) (q : ExtPoint) : ExtPoint :=
  [0, 1, 2, 3, 4].foldl
    (fun acc j => addN acc (signedEntry (combDigit s i j) (combRom b j)) (j == 4 && i != 0))
    (dbl q false)

/-- The spacing positions i = n - 1 down to 0. -/
def combLoop (b : AffinePoint) (s : Nat) : Nat → ExtPoint → ExtPoint
  | 0, q => q
  | i + 1, q => combLoop b s i (combStep b s i q)

/-- The fixed-base comb multiplication (R811). -/
def combMultiply (b : AffinePoint) (k : Sc) : ExtPoint :=
  combLoop b (offsetHalve k).val 18 ExtPoint.identity

/-! ## PDSMUL -/

/-- The digit of an odd v: v mod 2^(tb+2), centred (R820; 90_conflicts.md C4). -/
def wnafDigit (v tb : Nat) : Int :=
  let d : Nat := v % 2 ^ (tb + 2)
  if 2 ^ (tb + 1) ≤ d then (d : Int) - (2 ^ (tb + 2) : Nat) else d

/-- recode_wnaf from position pos on, for v below 2^fuel (R820). -/
def recodeFrom (tb : Nat) : Nat → Nat → Nat → List (Nat × Int)
  | 0, _, _ => []
  | fuel + 1, v, pos =>
    if v = 0 then []
    else if v % 2 = 1 then
      let d := wnafDigit v tb
      (pos, d) :: recodeFrom tb fuel (((v : Int) - d).toNat / 2) (pos + 1)
    else recodeFrom tb fuel (v / 2) (pos + 1)

/-- recode_wnaf(v, tb): the (position, digit) pairs, lowest position first (R820). -/
def recodeWnaf (v tb : Nat) : List (Nat × Int) := recodeFrom tb 448 v 0

/-- The table entry of a wNAF digit: index (|d| - 1)/2, negated for a negative digit (R822). -/
def wnafEntry (d : Int) (entry : Nat → Niels) : Niels :=
  let e := entry ((d.natAbs - 1) / 2)
  if d < 0 then negN e else e

/-- One position: double, then the variable point's digit, then the base point's (R822). -/
def doubleBaseStep (b : AffinePoint) (cp cv : List (Nat × Int)) (tv : List Niels) (i : Nat) (a : ExtPoint) :
    ExtPoint :=
  let a1 := dbl a false
  let a2 := match cv.lookup i with
    | some dv => addPN a1 (wnafEntry dv (tableEntry tv)) false
    | none => a1
  match cp.lookup i with
  | some dp => addN a2 (wnafEntry dp (wnafRom b)) false
  | none => a2

/-- The positions i = n - 1 down to 0. -/
def doubleBaseLoop (b : AffinePoint) (cp cv : List (Nat × Int)) (tv : List Niels) : Nat → ExtPoint → ExtPoint
  | 0, a => a
  | i + 1, a => doubleBaseLoop b cp cv tv i (doubleBaseStep b cp cv tv i a)

/-- The number of positions: one more than the largest position in either stream, 0 if both are
empty. -/
def positions (cp cv : List (Nat × Int)) : Nat := (cp ++ cv).foldl (fun n e => max n (e.1 + 1)) 0

/-- The double-base multiplication s_pre·B + s_var·Q (R822); with no digit it is the identity. -/
def doubleBaseMultiply (b : AffinePoint) (spre : Sc) (q : ExtPoint) (svar : Sc) : ExtPoint :=
  let cp := recodeWnaf spre.val 5
  let cv := recodeWnaf svar.val 3
  doubleBaseLoop b cp cv (oddTable q 8) (positions cp cv) ExtPoint.identity

/-! ## The commands -/

/-- PSMUL (R804). -/
def execPsmul (d a : PReg) (b : SReg) (s : State) : Result :=
  withFreshT a s fun q => complete (s.setP d ⟨windowMultiply q (s.getS b), false⟩)

/-- PBMUL (R811). -/
def execPbmul (d : PReg) (a : SReg) (s : State) : Result :=
  complete (s.setP d ⟨combMultiply basePoint (s.getS a), false⟩)

/-- PDSMUL (R822). -/
def execPdsmul (d : PReg) (a : SReg) (b : PReg) (c : SReg) (s : State) : Result :=
  withFreshT b s fun q =>
    complete (s.setP d ⟨doubleBaseMultiply basePoint (s.getS a) q (s.getS c), false⟩)

end Sys2Proof.Machine
end

