-- ==== Sys2Proof/Machine/FieldIO.lean ====
section
/-! DEFINITION. Field element load and store (43_field_io.md). -/

namespace Sys2Proof.Machine

/-- A field decode of the integer v: the residue, and whether v was canonical (R550, R551). -/
def State.decodeField (s : State) (d : FReg) (c : MReg) (v : Nat) : State :=
  (s.setF d (Fe.ofNat v)).setM c (maskOf (v < fieldP))

/-- The integer of a 57-byte field encoding whose last byte loses the bits of `strip`: lo + top·2^448 (R551). -/
def strippedValue (lo top : Nat) (strip : BitVec 8) : Nat :=
  lo + (BitVec.ofNat 8 top &&& ~~~strip).toNat * 256 ^ 56

/-- FLD (R550). -/
def execFld (d : FReg) (c : MReg) (am : Bool) (base : BitVec 16) (s : State) : Result :=
  memoryCommand 56 am base s fun ea => s.decodeField d c (s.loadLE ea 56)

/-- FLDM (R551). -/
def execFldm (d : FReg) (c : MReg) (am : Bool) (strip : BitVec 8) (base : BitVec 16) (s : State) : Result :=
  memoryCommand 57 am base s fun ea =>
    s.decodeField d c (strippedValue (s.loadLE ea 56) (s.loadLE (ea + 56) 1) strip)

/-- FST (R552). -/
def execFst (a : FReg) (am : Bool) (base : BitVec 16) (s : State) : Result :=
  memoryCommand 56 am base s fun ea => s.storeLE ea 56 (s.getF a).val

end Sys2Proof.Machine
end

