-- ==== Sys2Proof/Machine/Point.lean ====
section
/-! DEFINITION. The point commands (45_point.md). -/

namespace Sys2Proof.Machine

/-- PDBL (R704): T is not an input, so a stale operand is no exception. -/
def execPdbl (d a : PReg) (bd : Bool) (s : State) : Result :=
  complete (s.setP d ⟨dbl (s.getP a).coords bd, bd⟩)

/-- PADDN (R705). -/
def execPaddn (d a : PReg) (b : NReg) (bd : Bool) (s : State) : Result :=
  withFreshT a s fun q => complete (s.setP d ⟨addN q (s.getN b) bd, bd⟩)

/-- PSUBN (R706). -/
def execPsubn (d a : PReg) (b : NReg) (bd : Bool) (s : State) : Result :=
  withFreshT a s fun q => complete (s.setP d ⟨addN q (negN (s.getN b)) bd, bd⟩)

/-- PADDPN (R707). -/
def execPaddpn (d a : PReg) (b : NReg) (bd : Bool) (s : State) : Result :=
  withFreshT a s fun q => complete (s.setP d ⟨addPN q (s.getN b) bd, bd⟩)

/-- PSUBPN (R708). -/
def execPsubpn (d a : PReg) (b : NReg) (bd : Bool) (s : State) : Result :=
  withFreshT a s fun q => complete (s.setP d ⟨addPN q (negN (s.getN b)) bd, bd⟩)

/-- PADD (R709): RA is checked before RB. -/
def execPadd (d a b : PReg) (bd : Bool) (s : State) : Result :=
  withFreshT a s fun q => withFreshT b s fun r => complete (s.setP d ⟨addPN q (toPN r) bd, bd⟩)

/-- PTON (R710). -/
def execPton (d : NReg) (a : PReg) (s : State) : Result :=
  withFreshT a s fun q => complete (s.setN d (toPN q))

/-- NCNEG (R711). -/
def execNcneg (d a : NReg) (c : MReg) (s : State) : Result :=
  complete (s.setN d (if s.maskTrue c then negN (s.getN a) else s.getN a))

/-- PID (R712). -/
def execPid (d : PReg) (s : State) : Result := complete (s.setP d ⟨ExtPoint.identity, false⟩)

/-- PEQ (R713): T is not read. -/
def execPeq (d : MReg) (a b : PReg) (s : State) : Result :=
  complete (s.setM d (maskOf (sameRatio (s.getP a).coords (s.getP b).coords)))

/-- PVALID (R719). -/
def execPvalid (d : MReg) (a : PReg) (s : State) : Result :=
  withFreshT a s fun q => complete (s.setM d (maskOf (onCurve q)))

/-- PMOV (R720): all five fields, TS among them. -/
def execPmov (d a : PReg) (s : State) : Result := complete (s.setP d (s.getP a))

/-- PFX (R721). -/
def execPfx (d : PReg) (g : FGroup) (s : State) : Result :=
  complete (s.setP d ⟨⟨s.getGroup g 0, s.getGroup g 1, s.getGroup g 2, s.getGroup g 3⟩, false⟩)

/-- PXF (R722): T is copied as data, stale or not. -/
def execPxf (g : FGroup) (a : PReg) (s : State) : Result :=
  let q := (s.getP a).coords
  complete (s.setGroup g q.x q.y q.z q.t)

/-- NFX (R723). -/
def execNfx (d : NReg) (g : FGroup) (s : State) : Result :=
  complete (s.setN d ⟨s.getGroup g 0, s.getGroup g 1, s.getGroup g 2, s.getGroup g 3⟩)

/-- NXF (R724). -/
def execNxf (g : FGroup) (a : NReg) (s : State) : Result :=
  let n := s.getN a
  complete (s.setGroup g n.ypx n.ymx n.t2d n.z)

end Sys2Proof.Machine
end

