-- ==== Sys2Proof/Machine/Select.lean ====
section
/-! DEFINITION. Comparator, selectors and mask commands (42_ct_compare_select.md). -/

namespace Sys2Proof.Machine

/-- FEQ (R501). -/
def execFeq (d : MReg) (a b : FReg) (s : State) : Result :=
  complete (s.setM d (maskOf (s.getF a == s.getF b)))

/-- FSEL (R502): a true mask picks RB. -/
def execFsel (d a b : FReg) (c : MReg) (s : State) : Result :=
  complete (s.setF d (if s.maskTrue c then s.getF b else s.getF a))

/-- FCSWAP (R503): both registers are written in both cases. -/
def execFcswap (a b : FReg) (c : MReg) (s : State) : Result :=
  let va := s.getF a
  let vb := s.getF b
  complete (if s.maskTrue c then (s.setF a vb).setF b va else (s.setF a va).setF b vb)

/-- FCNEG (R504). -/
def execFcneg (d a : FReg) (c : MReg) (s : State) : Result :=
  complete (s.setF d (if s.maskTrue c then fieldNeg (s.getF a) else s.getF a))

/-- MSET (R505). -/
def execMset (d : MReg) (i : Fin 2) (s : State) : Result := complete (s.setM d (maskOf (i == 1)))

/-- MAND (R506). -/
def execMand (d a b : MReg) (s : State) : Result := complete (s.setM d (s.getM a &&& s.getM b))

/-- MOR (R507). -/
def execMor (d a b : MReg) (s : State) : Result := complete (s.setM d (s.getM a ||| s.getM b))

/-- MXOR (R508). -/
def execMxor (d a b : MReg) (s : State) : Result := complete (s.setM d (s.getM a ^^^ s.getM b))

/-- MNOT (R509). -/
def execMnot (d a : MReg) (s : State) : Result := complete (s.setM d (s.getM a ^^^ ones))

/-- MLD (R510): any non-zero word loads as ONES. -/
def execMld (d : MReg) (am : Bool) (base : BitVec 16) (s : State) : Result :=
  memoryCommand 4 am base s fun ea => s.setM d (maskOf (s.loadLE ea 4 != 0))

/-- MST (R511). -/
def execMst (a : MReg) (am : Bool) (base : BitVec 16) (s : State) : Result :=
  memoryCommand 4 am base s fun ea => s.storeLE ea 4 (s.getM a).toNat

end Sys2Proof.Machine
end

