-- ==== Sys2Proof/Machine/Sequencer.lean ====
section
/-! DEFINITION. The control-flow commands (47_sequencer.md). -/

namespace Sys2Proof.Machine

/-- NOP (R910). -/
def execNop (s : State) : Result := complete s

/-- HALT (R911). -/
def execHalt (s : State) : Result := .next s.halt

/-- JMP (R912). -/
def execJmp (off : BitVec 16) (s : State) : Result := .next (s.branch off)

/-- BMT (R913). -/
def execBmt (c : MReg) (off : BitVec 16) (s : State) : Result :=
  .next (if s.maskTrue c then s.branch off else s.advance)

/-- BMF (R914). -/
def execBmf (c : MReg) (off : BitVec 16) (s : State) : Result :=
  .next (if s.maskFalse c then s.branch off else s.advance)

/-- SETLC (R915). -/
def execSetlc (u : BitVec 16) (s : State) : Result := complete (s.setLc u)

/-- DJNZ (R916): lc is decremented mod 2^16 first, then tested. -/
def execDjnz (off : BitVec 16) (s : State) : Result :=
  let t := s.setLc (s.lc - 1)
  .next (if t.lc ≠ 0 then t.branch off else t.advance)

/-- SETA (R917). -/
def execSeta (u : BitVec 16) (s : State) : Result := complete (s.setAr u)

/-- ADDA (R918). -/
def execAdda (v : BitVec 16) (s : State) : Result := complete (s.setAr (s.ar + v))

end Sys2Proof.Machine
end

