-- ==== Sys2Proof/Machine/Dispatch.lean ====
section
/-! DEFINITION. What each command does: one arm per constructor of Instr, one call of its meaning. -/

namespace Sys2Proof.Machine

def exec (i : Instr) (s : State) : Host.Outcome State Fault Refusal :=
  match i with
  | .nop => Sys2Proof.Machine.execNop s
  | .halt => Sys2Proof.Machine.execHalt s
  | .jmp off => Sys2Proof.Machine.execJmp off s
  | .bmt c off => Sys2Proof.Machine.execBmt c off s
  | .bmf c off => Sys2Proof.Machine.execBmf c off s
  | .setlc u => Sys2Proof.Machine.execSetlc u s
  | .djnz off => Sys2Proof.Machine.execDjnz off s
  | .seta u => Sys2Proof.Machine.execSeta u s
  | .adda v => Sys2Proof.Machine.execAdda v s
  | .fadd d a b => Sys2Proof.Machine.execFadd d a b s
  | .fsub d a b => Sys2Proof.Machine.execFsub d a b s
  | .fneg d a => Sys2Proof.Machine.execFneg d a s
  | .fmul d a b => Sys2Proof.Machine.execFmul d a b s
  | .fsqr d a => Sys2Proof.Machine.execFsqr d a s
  | .fmulc d a c => Sys2Proof.Machine.execFmulc d a c s
  | .fwred d a => Sys2Proof.Machine.execFwred d a s
  | .fsred d a => Sys2Proof.Machine.execFsred d a s
  | .fmov d a => Sys2Proof.Machine.execFmov d a s
  | .fconst d k => Sys2Proof.Machine.execFconst d k s
  | .finv d a => Sys2Proof.Machine.execFinv d a s
  | .fisr d a c => Sys2Proof.Machine.execFisr d a c s
  | .feq d a b => Sys2Proof.Machine.execFeq d a b s
  | .fsel d a b c => Sys2Proof.Machine.execFsel d a b c s
  | .fcswap a b c => Sys2Proof.Machine.execFcswap a b c s
  | .fcneg d a c => Sys2Proof.Machine.execFcneg d a c s
  | .mset d k => Sys2Proof.Machine.execMset d k s
  | .mand d a b => Sys2Proof.Machine.execMand d a b s
  | .mor d a b => Sys2Proof.Machine.execMor d a b s
  | .mxor d a b => Sys2Proof.Machine.execMxor d a b s
  | .mnot d a => Sys2Proof.Machine.execMnot d a s
  | .mld d am base => Sys2Proof.Machine.execMld d am base s
  | .mst a am base => Sys2Proof.Machine.execMst a am base s
  | .fld d c am base => Sys2Proof.Machine.execFld d c am base s
  | .fldm d c am strip base => Sys2Proof.Machine.execFldm d c am strip base s
  | .fst a am base => Sys2Proof.Machine.execFst a am base s
  | .sadd d a b => Sys2Proof.Machine.execSadd d a b s
  | .ssub d a b => Sys2Proof.Machine.execSsub d a b s
  | .smont d a b => Sys2Proof.Machine.execSmont d a b s
  | .smul d a b => Sys2Proof.Machine.execSmul d a b s
  | .shalve d a => Sys2Proof.Machine.execShalve d a s
  | .smov d a => Sys2Proof.Machine.execSmov d a s
  | .sconst d k => Sys2Proof.Machine.execSconst d k s
  | .sld d c am base => Sys2Proof.Machine.execSld d c am base s
  | .sst a am base => Sys2Proof.Machine.execSst a am base s
  | .pdbl d a bd => Sys2Proof.Machine.execPdbl d a bd s
  | .paddn d a b bd => Sys2Proof.Machine.execPaddn d a b bd s
  | .psubn d a b bd => Sys2Proof.Machine.execPsubn d a b bd s
  | .paddpn d a b bd => Sys2Proof.Machine.execPaddpn d a b bd s
  | .psubpn d a b bd => Sys2Proof.Machine.execPsubpn d a b bd s
  | .padd d a b bd => Sys2Proof.Machine.execPadd d a b bd s
  | .pton d a => Sys2Proof.Machine.execPton d a s
  | .ncneg d a c => Sys2Proof.Machine.execNcneg d a c s
  | .pid d => Sys2Proof.Machine.execPid d s
  | .peq d a b => Sys2Proof.Machine.execPeq d a b s
  | .pvalid d a => Sys2Proof.Machine.execPvalid d a s
  | .pfx d g => Sys2Proof.Machine.execPfx d g s
  | .pxf g a => Sys2Proof.Machine.execPxf g a s
  | .nfx d g => Sys2Proof.Machine.execNfx d g s
  | .nxf g a => Sys2Proof.Machine.execNxf g a s
  | .pmov d a => Sys2Proof.Machine.execPmov d a s
  | .psmul d a b => Sys2Proof.Machine.execPsmul d a b s
  | .pbmul d a => Sys2Proof.Machine.execPbmul d a s
  | .pdsmul d a b c => Sys2Proof.Machine.execPdsmul d a b c s

end Sys2Proof.Machine
end

