-- ==== Sys2Proof/Machine/Cycle.lean ====
section
/-! DEFINITION. One turn of the core: the execution loop of 47_sequencer.md R900. -/

namespace Sys2Proof.Machine

/-- Fetch, decode and execute the command at pc, with the fetch and decode exceptions. -/
def runCommand (s : State) : Result :=
  if Config.imemWords ≤ s.pc.toNat then raised s .pcRange (s.pc.setWidth 32)
  else match decode (s.imemWord s.pc.toNat) with
    | .error e => raisedDecode s e
    | .ok i => exec i s

/-- One pass of the loop: nothing while IDLE. A command in progress is never interrupted and ends as it
would without the latch; at a boundary the latch gives ABORTED, else the next command runs
(60_exceptions.md R1006). -/
def coreTurn (s : State) : Result :=
  match s.run with
  | .idle => .next s
  | .running =>
    if s.inProgress then runCommand (s.setInProgress false)
    else if s.abortLatch then .next s.takeAbort
    else runCommand s

/-- The core passes a boundary, where it alone tests the latch (60_exceptions.md R1006): ABORTED, or the
command at pc is in progress. While IDLE or in a command there is no boundary. -/
def State.passBoundary (s : State) : State :=
  match s.run with
  | .idle => s
  | .running => if s.inProgress then s else if s.abortLatch then s.takeAbort else s.setInProgress true

end Sys2Proof.Machine
end

