-- ==== Sys2Proof/Machine/Mmio.lean ====
section
/-! DEFINITION. The host's side: the MMIO window (20_memory.md R230-R240), the control block
(10_state.md R140-R151), soft reset and power-on reset (70_reset_and_hazards.md R1100, R1101). -/

namespace Sys2Proof.Machine

/-! ## Soft reset -/

/-- The first n bytes of DMEM when a command that would turn `old` into `new` is cancelled: each byte
is the old or the new one, freely (R1101; log entry 5). Bytes from n up are the old ones. -/
def cancelledBytes (old new : Memory) (count : Nat) : Nat → Memory
  | 0 => old
  | n + 1 =>
    (cancelledBytes old new count n).write n (if Config.freeBit (count + n) then new.read n else old.read n)

/-- DMEM after the command in progress, the one at pc, is cancelled (log entry 5). -/
def State.cancelledDmem (s : State) : Memory :=
  match runCommand s with
  | .next t => cancelledBytes s.dmem t.dmem s.freeCount Config.dmemBytes
  | .fault _ => s.dmem
  | .refused _ => s.dmem

/-- CTRL.SRST (R1101): the reset values, IMEM kept, DMEM kept but for a cancelled store. -/
def State.softReset (s : State) : State :=
  if s.busy && s.inProgress then
    State.powerOn s.imem s.cancelledDmem s.host s.hostRead (s.freeCount + Config.dmemBytes)
  else State.powerOn s.imem s.dmem s.host s.hostRead s.freeCount

/-- The reset input (R1100): the reset values, both memories with any content. -/
def State.powerOnReset (s : State) (imemInit dmemInit : List Host.Cell) : State :=
  State.powerOn (Memory.ofCells Config.imemBytes imemInit) (Memory.ofCells Config.dmemBytes dmemInit)
    s.host s.hostRead s.freeCount

/-! ## The control block -/

/-- ID (10_state.md R140). -/
def idWord : BitVec 32 := 0xE4480100

/-- CFG: DMEM_WORDS = 1024 and IMEM_WORDS = 512 (10_state.md R148). -/
def cfgWord : BitVec 32 := 0x04000200

/-- A host access to a window while BUSY sets the sticky HAC (20_memory.md R240). -/
def State.conflict (s : State) : State := { s with hac := true }

/-- A write of CTRL. SRST makes every other bit ignored; else IE, then ABORT while RUNNING, then START
if the core was IDLE before the write (10_state.md R141). -/
def State.writeCtrl (s : State) (v : BitVec 32) : State :=
  if v.getLsbD 2 then s.softReset
  else
    let t := { s with ie := v.getLsbD 3 }
    if s.busy then (if v.getLsbD 1 then { t with abortLatch := true } else t)
    else if v.getLsbD 0 then t.start else t

/-- A write of STATUS: DONE, ERR and HAC are W1C (10_state.md R142). -/
def State.writeStatus (s : State) (v : BitVec 32) : State :=
  { s with done := s.done && !v.getLsbD 1, err := s.err && !v.getLsbD 2, hac := s.hac && !v.getLsbD 3 }

/-- A write of ENTRY, refused while BUSY (10_state.md R143). -/
def State.writeEntry (s : State) (v : BitVec 32) : State :=
  if s.busy then s.conflict else { s with entry := v.setWidth 16 }

/-- A write to the control block; the RO and reserved offsets ignore it (10_state.md R140-R151). -/
def State.writeControl (s : State) (offset : Nat) (v : BitVec 32) : State :=
  if offset = 0x004 then s.writeCtrl v
  else if offset = 0x008 then s.writeStatus v
  else if offset = 0x00C then s.writeEntry v
  else s

/-- PC, LC or AR as the host reads it: its value while IDLE, any 16 bits while BUSY (10_state.md R144,
R149, R150). -/
def State.readQuiet (s : State) (x : BitVec 16) : BitVec 32 × State :=
  if s.busy then ((Config.freeHalf s.freeCount).setWidth 32, { s with freeCount := s.freeCount + 1 })
  else (x.setWidth 32, s)

/-- A read of the control block (10_state.md R140-R151). -/
def State.readControl (s : State) (offset : Nat) : BitVec 32 × State :=
  if offset = 0x000 then (idWord, s)
  else if offset = 0x004 then (0#28 ++ (BitVec.ofBool s.ie ++ 0#3), s)
  else if offset = 0x008 then (s.statusWord, s)
  else if offset = 0x00C then (s.entry.setWidth 32, s)
  else if offset = 0x010 then s.readQuiet s.pc
  else if offset = 0x014 then (s.cause.setWidth 32, s)
  else if offset = 0x018 then (s.epc.setWidth 32, s)
  else if offset = 0x01C then (s.einfo, s)
  else if offset = 0x020 then s.readQuiet s.lc
  else if offset = 0x024 then s.readQuiet s.ar
  else if offset = 0x028 then (cfgWord, s)
  else (0, s)

/-! ## The window -/

/-- The parts of the 16 KiB window (20_memory.md R230). -/
inductive WindowPart where
  | control
  | imem
  | dmem
  | reserved
deriving DecidableEq, Repr

/-- The part an offset lies in. -/
def windowPart (offset : BitVec 14) : WindowPart :=
  if offset.toNat < 0x1000 then .control
  else if offset.toNat < 0x2000 then .imem
  else if offset.toNat < 0x3000 then .dmem
  else .reserved

/-- An offset's distance from the start of its part. -/
def windowIndex (offset : BitVec 14) : Nat := offset.toNat % 0x1000

/-- A host access that has an effect: one aligned 32-bit word (20_memory.md R230). -/
def wholeWord (offset : BitVec 14) (size : AccessSize) : Bool := size == .word && offset.toNat % 4 == 0

/-- A host write (20_memory.md R230-R240). -/
def State.hostWrite (s : State) (offset : BitVec 14) (size : AccessSize) (v : BitVec 32) : State :=
  if !wholeWord offset size then s
  else match windowPart offset with
    | .control => s.writeControl (windowIndex offset) v
    | .imem => if s.busy then s.conflict else { s with imem := s.imem.writeLE (windowIndex offset) 4 v.toNat }
    | .dmem => if s.busy then s.conflict else { s with dmem := s.dmem.writeLE (windowIndex offset) 4 v.toNat }
    | .reserved => s

/-- A host read: the word returned and the state after it (20_memory.md R230-R240). -/
def State.readWindow (s : State) (offset : BitVec 14) (size : AccessSize) : BitVec 32 × State :=
  if !wholeWord offset size then (0, s)
  else match windowPart offset with
    | .control => s.readControl (windowIndex offset)
    | .imem => if s.busy then (0, s.conflict) else (BitVec.ofNat 32 (s.imem.readLE (windowIndex offset) 4), s)
    | .dmem => if s.busy then (0, s.conflict) else (BitVec.ofNat 32 (s.dmem.readLE (windowIndex offset) 4), s)
    | .reserved => (0, s)

/-- A host read whose word is kept in `hostRead`. -/
def State.hostReads (s : State) (offset : BitVec 14) (size : AccessSize) : State :=
  let r := s.readWindow offset size
  { r.2 with hostRead := some r.1 }

/-! ## Which agent moves -/

/-- One step of the machine (log entry 3): the head of `host` is done, where it lets the core move or
there is none the core takes its turn. -/
def machineStep (s : State) : Result :=
  match s.host with
  | [] => coreTurn s
  | .letCoreStep :: rest => coreTurn { s with host := rest }
  | .letCoreBegin :: rest => .next { s with host := rest }.passBoundary
  | .write offset size v :: rest => .next ({ s with host := rest }.hostWrite offset size v)
  | .read offset size :: rest => .next ({ s with host := rest }.hostReads offset size)
  | .powerOnReset imemInit dmemInit :: rest => .next ({ s with host := rest }.powerOnReset imemInit dmemInit)

end Sys2Proof.Machine
end

