-- ==== Sys2Proof/Machine/Step.lean ====
section
/-! DEFINITION. The step, and the state whose next step fetches a given word. -/

namespace Sys2Proof.Machine

/-- One step of the machine: the host's next action, or one turn of the core. -/
def step (s : State) : Host.Outcome State Fault Refusal := machineStep s

/-- s with the word w, its bits from nbits up made 0, where the very next step fetches it (log
entry 8). -/
def State.withFetchWord (s : State) (nbits w : Nat) : State :=
  s.placeCommand (BitVec.ofNat 64 (w % 2 ^ nbits))

end Sys2Proof.Machine
end

