-- ==== Sys2Proof/Safety.lean ====
section
/-! DEFINITION. The terms in which claims speak of runs: the invariant every step keeps, what a command
may write, and what a run shows to one who sees no secret. -/

namespace Sys2Proof.Machine

/-- The invariant of the machine. Both memories are canonical and inside their spaces; a mask register
holds 0 or ONES (10_state.md R107); DONE and ERR are never both 1 (R142); a running core has neither,
and CAUSE 0 (47_sequencer.md R901); a run that ended by HALT left CAUSE 0 and one that ended in ERR a
code from 1 to 8 (60_exceptions.md R1013); a command is in progress only while RUNNING. -/
abbrev State.Inv (s : State) : Prop :=
  s.dmem.wf = true ∧ s.dmem.within Config.dmemBytes = true ∧
  s.imem.wf = true ∧ s.imem.within Config.imemBytes = true ∧
  (∀ r : MReg, s.getM r = 0 ∨ s.getM r = ones) ∧
  ¬ (s.done = true ∧ s.err = true) ∧
  (s.run = .running → s.done = false ∧ s.err = false ∧ s.cause = 0) ∧
  (s.done = true → s.cause = 0) ∧
  (s.err = true → s.cause ≠ 0) ∧
  s.cause ≤ 8 ∧
  (s.inProgress = true → s.run = .running)

/-- What a command may write besides pc: registers by file, lc, ar, and `len` bytes of DMEM from
`start`. -/
structure Writes where
  f : List FReg := []
  sc : List SReg := []
  p : List PReg := []
  n : List NReg := []
  m : List MReg := []
  lc : Bool := false
  ar : Bool := false
  start : Nat := 0
  len : Nat := 0
deriving DecidableEq, Repr

/-- The run state, the host's registers, IMEM and the model's own fields are the same in both. -/
def SameControl (s t : State) : Prop :=
  t.run = s.run ∧ t.abortLatch = s.abortLatch ∧ t.inProgress = s.inProgress ∧ t.ie = s.ie ∧
  t.done = s.done ∧ t.err = s.err ∧ t.hac = s.hac ∧ t.entry = s.entry ∧ t.cause = s.cause ∧ t.epc = s.epc ∧ t.einfo = s.einfo ∧
  t.imem = s.imem ∧ t.host = s.host ∧ t.hostRead = s.hostRead ∧ t.freeCount = s.freeCount

/-- From s to t only pc and what w names may have changed. -/
def OnlyWrites (w : Writes) (s t : State) : Prop :=
  (∀ r, r ∉ w.f → t.getF r = s.getF r) ∧
  (∀ r, r ∉ w.sc → t.getS r = s.getS r) ∧
  (∀ r, r ∉ w.p → t.getP r = s.getP r) ∧
  (∀ r, r ∉ w.n → t.getN r = s.getN r) ∧
  (∀ r, r ∉ w.m → t.getM r = s.getM r) ∧
  (w.lc = false → t.lc = s.lc) ∧
  (w.ar = false → t.ar = s.ar) ∧
  (∀ a, ¬ (w.start ≤ a ∧ a < w.start + w.len) → t.dmem.read a = s.dmem.read a) ∧
  SameControl s t

/-- The command i completes on s: it answers a next state, pc is one further, nothing but w is
written, and the next state satisfies post. -/
def Completes (i : Instr) (s : State) (w : Writes) (post : State → Prop) : Prop :=
  ∃ t, exec i s = .next t ∧ t.pc = s.pc + 1 ∧ OnlyWrites w s t ∧ post t

/-- The command i takes the exception c with the information word info on s: CAUSE, EPC, EINFO and ERR
are written and the core is idle (60_exceptions.md R1010); pc and everything else stay. -/
def Traps (i : Instr) (s : State) (c : Cause) (info : BitVec 32) : Prop :=
  exec i s = .next { s with cause := causeCode c, epc := s.pc, einfo := info, err := true, run := .idle }

/-- The word with the fields f is the command i. -/
def Encodes (f : Fields) (i : Instr) : Prop := decode f.pack = .ok i

/-- A memory command of n bytes finds its address aligned and in range (20_memory.md R211, R212). -/
def GoodAddress (n : Nat) (am : Bool) (base : BitVec 16) (s : State) : Prop :=
  (s.effAddr am base).toNat % 4 = 0 ∧ (s.effAddr am base).toNat + n ≤ 4096

/-- What each command may write, from its rule's "Writes" line; a store's address is the effective
address of its operand. -/
def writesOf (i : Instr) (s : State) : Writes :=
  match i with
  | .nop | .halt | .jmp _ | .bmt _ _ | .bmf _ _ => {}
  | .setlc _ | .djnz _ => { lc := true }
  | .seta _ | .adda _ => { ar := true }
  | .fadd d _ _ | .fsub d _ _ | .fmul d _ _ | .fmulc d _ _ | .fsel d _ _ _ | .fcneg d _ _ => { f := [d] }
  | .fneg d _ | .fsqr d _ | .fwred d _ | .fsred d _ | .fmov d _ | .fconst d _ | .finv d _ => { f := [d] }
  | .fisr d _ c | .fld d c _ _ | .fldm d c _ _ _ => { f := [d], m := [c] }
  | .fcswap a b _ => { f := [a, b] }
  | .feq d _ _ | .mset d _ | .mand d _ _ | .mor d _ _ | .mxor d _ _ | .mnot d _ | .mld d _ _ => { m := [d] }
  | .peq d _ _ | .pvalid d _ => { m := [d] }
  | .mst _ am base => { start := (s.effAddr am base).toNat, len := 4 }
  | .fst _ am base | .sst _ am base => { start := (s.effAddr am base).toNat, len := 56 }
  | .sadd d _ _ | .ssub d _ _ | .smont d _ _ | .smul d _ _ | .shalve d _ | .smov d _ | .sconst d _ => { sc := [d] }
  | .sld d c _ _ => { sc := [d], m := [c] }
  | .pdbl d _ _ | .paddn d _ _ _ | .psubn d _ _ _ | .paddpn d _ _ _ | .psubpn d _ _ _ | .padd d _ _ _ => { p := [d] }
  | .pid d | .pmov d _ | .pfx d _ | .psmul d _ _ | .pbmul d _ | .pdsmul d _ _ _ => { p := [d] }
  | .pton d _ | .ncneg d _ _ | .nfx d _ => { n := [d] }
  | .pxf g _ | .nxf g _ => { f := [groupReg g 0, groupReg g 1, groupReg g 2, groupReg g 3] }

/-! ## Words and bytes -/

/-- A register index as a 4-bit field (30_encoding.md R301). -/
def reg4 {n : Nat} (i : Fin n) : BitVec 4 := BitVec.ofNat 4 i.val

/-- MOD with BD in bit 0 and every other bit 0 (30_encoding.md R301, R305). -/
def modWithBD (bd : Bool) : BitVec 8 := if bd then 1 else 0

/-- MOD with AM in bit 1 and every other bit 0 (30_encoding.md R301, R305). -/
def modWithAM (am : Bool) : BitVec 8 := if am then 2 else 0

/-- The little-endian value of n bytes from address a (00_scope.md R24). -/
def bytesValue (mem : Memory) (a n : Nat) : Nat :=
  ((List.range n).map fun i => (mem.read (a + i)).toNat * 256 ^ i).sum

/-- The n bytes from address a are those of v, the least significant first (20_memory.md R205). -/
def HoldsBytes (mem : Memory) (a n v : Nat) : Prop :=
  ∀ i < n, mem.read (a + i) = BitVec.ofNat 8 (v / 256 ^ i % 256)

/-! ## The point formulas on unbounded integers (45_point.md R700, R701, R703) -/

/-- Extended coordinates as integers. -/
structure IntPoint where
  x : Int
  y : Int
  z : Int
  t : Int
deriving DecidableEq, Repr

/-- A Niels point as integers. -/
structure IntNiels where
  ypx : Int
  ymx : Int
  t2d : Int
  z : Int
deriving DecidableEq, Repr

/-- The coordinates of a point register as integers. -/
def ExtPoint.ints (q : ExtPoint) : IntPoint := ⟨q.x.val, q.y.val, q.z.val, q.t.val⟩

/-- The fields of a Niels register as integers. -/
def Niels.ints (n : Niels) : IntNiels := ⟨n.ypx.val, n.ymx.val, n.t2d.val, n.z.val⟩

/-- The register holds the residues of the integers. -/
def IntPoint.Residues (q : IntPoint) (r : ExtPoint) : Prop :=
  (r.x.val : Int) = q.x % fieldP ∧ (r.y.val : Int) = q.y % fieldP ∧
  (r.z.val : Int) = q.z % fieldP ∧ (r.t.val : Int) = q.t % fieldP

@[inherit_doc IntPoint.Residues] def IntNiels.Residues (m : IntNiels) (n : Niels) : Prop :=
  (n.ypx.val : Int) = m.ypx % fieldP ∧ (n.ymx.val : Int) = m.ymx % fieldP ∧
  (n.t2d.val : Int) = m.t2d % fieldP ∧ (n.z.val : Int) = m.z % fieldP

/-- toPN, with D_TW = -39082 (R700). -/
def IntPoint.toPN (q : IntPoint) : IntNiels := ⟨q.y + q.x, q.y - q.x, 2 * -39082 * q.t, q.z⟩

/-- negN (R700). -/
def IntNiels.neg (n : IntNiels) : IntNiels := ⟨n.ymx, n.ypx, 0 - n.t2d, n.z⟩

/-- dbl (R701). -/
def IntPoint.dbl (q : IntPoint) (bd : Bool) : IntPoint :=
  let a := q.x ^ 2
  let b := q.y ^ 2
  let c := 2 * q.z ^ 2
  let d := -a
  let e := (q.x + q.y) ^ 2 - a - b
  let g := d + b
  let f := g - c
  let h := d - b
  ⟨e * f, g * h, f * g, if bd then q.t else e * h⟩

/-- add_core (R703). -/
def IntPoint.addCore (q : IntPoint) (n : IntNiels) (dv : Int) (bd : Bool) : IntPoint :=
  let a := (q.y - q.x) * n.ymx
  let b := (q.y + q.x) * n.ypx
  let c := q.t * n.t2d
  let e := b - a
  let f := dv - c
  let g := dv + c
  let h := b + a
  ⟨e * f, g * h, f * g, if bd then q.t else e * h⟩

/-- addPN (R703). -/
def IntPoint.addPN (q : IntPoint) (n : IntNiels) (bd : Bool) : IntPoint := q.addCore n (2 * q.z * n.z) bd

/-- addN: the Niels point's Z is not read (R703). -/
def IntPoint.addN (q : IntPoint) (n : IntNiels) (bd : Bool) : IntPoint := q.addCore n (2 * q.z) bd

/-! ## Signed digits (46_scalarmul.md) -/

/-- The entry of a table of odd multiples for the odd digit d: index (|d| - 1)/2, negated for a
negative digit (R803, R822). -/
def signedMultiple (table : Nat → Niels) (d : Int) : Niels :=
  if d < 0 then negN (table ((d.natAbs - 1) / 2)) else table ((d.natAbs - 1) / 2)

/-- d is a non-adjacent form of v of the given width: every digit is 0 or odd and below 2^(width-1) in
magnitude, two digits are at least width positions apart, none lies above position 446, and
Σ d_i·2^i = v (R820). -/
def IsNaf (width v : Nat) (d : Nat → Int) : Prop :=
  (∀ i, d i ≠ 0 → d i % 2 = 1 ∧ (d i).natAbs < 2 ^ (width - 1)) ∧
  (∀ i j, i < j → d i ≠ 0 → d j ≠ 0 → i + width ≤ j) ∧
  (∀ i, 447 ≤ i → d i = 0) ∧
  ((List.range 447).map fun i => d i * 2 ^ i).sum = v

/-- The digit a list of (position, digit) pairs has at a position, 0 where it has none. -/
def digitAt (digits : List (Nat × Int)) (i : Nat) : Int := (digits.lookup i).getD 0

/-! ## Reset and secrecy -/

/-- The registers hold the values of 10_state.md R180. -/
def HasResetValues (s : State) : Prop :=
  (∀ r, (s.getF r).val = 0) ∧
  (∀ r, (s.getS r).val = 0) ∧
  (∀ r, (s.getP r).coords.ints = ⟨0, 1, 1, 0⟩ ∧ (s.getP r).ts = false) ∧
  (∀ r, (s.getN r).ints = ⟨1, 1, 0, 1⟩) ∧
  (∀ r, s.getM r = 0x00000000) ∧
  s.pc = 0 ∧ s.lc = 0 ∧ s.ar = 0 ∧
  s.run = .idle ∧ s.abortLatch = false ∧ s.inProgress = false ∧ s.ie = false ∧ s.statusWord = 0x00000000 ∧
  s.entry = 0 ∧ s.cause = 0 ∧ s.epc = 0 ∧ s.einfo = 0 ∧ s.irq = false

/-- Two states that one who sees no field, scalar, point, Niels or mask register and no DMEM byte
cannot tell apart: the same sequencer, control and IMEM contents, and the same stale-T bits
(70_reset_and_hazards.md R1140). -/
def PublicEq (s t : State) : Prop :=
  t.pc = s.pc ∧ t.lc = s.lc ∧ t.ar = s.ar ∧ t.run = s.run ∧ t.abortLatch = s.abortLatch ∧
  t.inProgress = s.inProgress ∧ t.ie = s.ie ∧ t.done = s.done ∧ t.err = s.err ∧ t.hac = s.hac ∧ t.entry = s.entry ∧ t.cause = s.cause ∧
  t.epc = s.epc ∧ t.einfo = s.einfo ∧ t.imem = s.imem ∧ t.host = s.host ∧
  ∀ r, (t.getP r).ts = (s.getP r).ts

/-- A branch on a mask, the one kind of command whose next pc may depend on a secret
(47_sequencer.md R920). -/
def branchesOnMask (i : Instr) : Prop := ∃ c off, i = .bmt c off ∨ i = .bmf c off

end Sys2Proof.Machine
end

