-- ==== Sys2Proof/Certificates/Slice0/Obligations.lean ====
section
/-! DEFINITION. The statements for the provers. A result statement says that the word with the given
fields is the command (`Encodes`), that the command answers a next state with pc one further and only the
named state written (`Completes`), and what the written state holds. -/

open Sys2Proof Sys2Proof.Machine

/-! ## Encoding (30_encoding.md) -/

/-- The word of every well-formed command, with every operand at every value its class admits, decodes to
that command (R301, R308). -/
def Obligations.EncodedCommandsDecode : Prop :=
  ∀ i : Instr, i.wf = true → decode (encode i) = .ok i

/-- A word that decodes is the one word of its command, and the command is well formed (R310). -/
def Obligations.EveryCommandHasOneWord : Prop :=
  ∀ (w : CommandWord) (i : Instr), decode w = .ok i → i.wf = true ∧ w = encode i

/-- R302, R309: a word is rejected as ILLEGAL_OPCODE exactly when its OP is in one of the unassigned
ranges, whatever its other bits; the information word is its top half. -/
def Obligations.UnassignedOpcodes : Prop :=
  ∀ w : CommandWord,
    let op := w.toNat / 2 ^ 56
    let unassigned := (0x09 ≤ op ∧ op ≤ 0x0F) ∨ (0x1C ≤ op ∧ op ≤ 0x1F) ∨ (0x24 ≤ op ∧ op ≤ 0x27) ∨
      op = 0x2F ∨ (0x33 ≤ op ∧ op ≤ 0x3F) ∨ (0x49 ≤ op ∧ op ≤ 0x4F) ∨ 0x63 ≤ op
    (unassigned → decode w = .error (.illegalOpcode (BitVec.ofNat 32 (w.toNat / 2 ^ 32)))) ∧
    (¬ unassigned → ∀ info, decode w ≠ .error (.illegalOpcode info))

/-- R304: a word of an assigned opcode in which any reserved-zero bit (a bit below OP that is 1 in the
opcode's mask) is set is ILLEGAL_OPERAND, with its top half as the information word. -/
def Obligations.ReservedZeroBits : Prop :=
  ∀ (r : Row) (w : CommandWord) (b : Nat), r ∈ opcodeMap → w.toNat / 2 ^ 56 = r.op.toNat →
    b < 56 → r.mask.getLsbD b = true → w.getLsbD b = true →
    decode w = .error (.illegalOperand (BitVec.ofNat 32 (w.toNat / 2 ^ 32)))

/-- R303, R306, R307: an FG base of 13 to 15 is ILLEGAL_OPERAND; a c32 constant outside
-2^26 < c < 2^26 and a selector beyond its class are BAD_IMMEDIATE, with IMM as the information word. -/
def Obligations.OperandAndImmediateRanges : Prop :=
  (∀ (g : BitVec 4) (a : Fin 8) (op : BitVec 8), 12 < g.toNat →
    (op = 0x5B ∨ op = 0x5D → decode (Fields.pack ⟨op, reg4 a, g, 0, 0, 0, 0⟩) =
      .error (.illegalOperand (op ++ (reg4 a ++ (g ++ 0#16))))) ∧
    (op = 0x5C ∨ op = 0x5E → decode (Fields.pack ⟨op, g, reg4 a, 0, 0, 0, 0⟩) =
      .error (.illegalOperand (op ++ (g ++ (reg4 a ++ 0#16)))))) ∧
  (∀ (d a : FReg) (c : BitVec 32), ¬ (-67108864 < c.toInt ∧ c.toInt < 67108864) →
    decode (Fields.pack ⟨0x15, reg4 d, reg4 a, 0, 0, 0, c⟩) = .error (.badImmediate c)) ∧
  (∀ (d : FReg) (u : BitVec 16), 5 < u.toNat →
    decode (Fields.pack ⟨0x19, reg4 d, 0, 0, 0, 0, u.setWidth 32⟩) = .error (.badImmediate (u.setWidth 32))) ∧
  (∀ (d : MReg) (u : BitVec 16), 1 < u.toNat →
    decode (Fields.pack ⟨0x28, reg4 d, 0, 0, 0, 0, u.setWidth 32⟩) = .error (.badImmediate (u.setWidth 32))) ∧
  (∀ (d : SReg) (u : BitVec 16), 3 < u.toNat →
    decode (Fields.pack ⟨0x46, reg4 d, 0, 0, 0, 0, u.setWidth 32⟩) = .error (.badImmediate (u.setWidth 32)))

/-- The words the spec writes out decode to the commands it gives them for (R311, 47_sequencer.md
R912-R918, 40_field.md R406, R310). -/
def Obligations.WordsOfTheSpec : Prop :=
  decode 0x1012300000000000 = .ok (.fadd 1 2 3) ∧
  decode 0x15000000FFFF6757 = .ok (.fmulc 0 0 (BitVec.ofInt 32 (-39081))) ∧
  decode 0x3050020200000038 = .ok (.fld 5 2 true 0x38) ∧
  decode 0x5011000100000000 = .ok (.pdbl 1 1 true) ∧
  decode 0x040001000000FFFD = .ok (.bmf 1 (BitVec.ofInt 16 (-3))) ∧
  decode 0x0000000000000000 = .ok .nop ∧
  decode 0x0100000000000000 = .ok .halt ∧
  decode 0x0200000000000003 = .ok (.jmp 3) ∧
  decode 0x0300020000000004 = .ok (.bmt 2 4) ∧
  decode 0x05000000000001BE = .ok (.setlc 446) ∧
  decode 0x060000000000FFFF = .ok (.djnz (BitVec.ofInt 16 (-1))) ∧
  decode 0x0700000000000200 = .ok (.seta 0x200) ∧
  decode 0x0800000000000038 = .ok (.adda 56) ∧
  decode 0x15120000FFFF6757 = .ok (.fmulc 1 2 (BitVec.ofInt 32 (-39081)))

/-! ## The sequencer (47_sequencer.md, 60_exceptions.md) -/

/-- R900, R1006, R1120: while RUNNING with pc inside IMEM, a step of a silent host is the decoded command,
executed on the state as it stands: at a boundary where no abort is latched, and, latched or not, where the
command is in progress, which it then is no longer. Where the host's next action is to let the core step,
that action is used up and the rest is the same. IMEM[pc] is read from the bytes of its window
(20_memory.md R216, R231). -/
def Obligations.StepRunsTheDecodedCommand : Prop :=
  ∀ (s : State) (i : Instr), s.run = .running → s.pc.toNat < 512 →
    decode (BitVec.ofNat 64 (bytesValue s.imem (8 * s.pc.toNat) 8)) = .ok i →
    (s.inProgress = false → s.abortLatch = false →
      (s.host = [] → step s = exec i s) ∧
      (∀ rest, s.host = .letCoreStep :: rest → step s = exec i { s with host := rest })) ∧
    (s.inProgress = true →
      (s.host = [] → step s = exec i { s with inProgress := false }) ∧
      (∀ rest, s.host = .letCoreStep :: rest → step s = exec i { s with host := rest, inProgress := false }))

/-- R1002, R1003, R1006, R1009: what stops a run before a command executes, in the order of priority:
ABORTED, at a boundary only, PC_RANGE, then the three decode exceptions; each writes CAUSE, EPC, EINFO and
ERR, makes the core IDLE and changes nothing else, but that ABORTED clears the latch and a command in
progress is so no longer. In a command in progress the latch stops nothing and stays. While IDLE the core
does nothing. The host is silent, or its next action, used up by the step, is to let the core step; or it
lets the core pass a boundary (log entry 3), which takes ABORTED or begins the command at pc. -/
def Obligations.FetchExceptions : Prop :=
  ∀ (s : State) (rest : List HostAction),
    let stopped := fun (c : BitVec 8) (info : BitVec 32) =>
      { s with
        host := rest, cause := c, epc := s.pc, einfo := info, err := true, run := .idle, inProgress := false }
    let word := BitVec.ofNat 64 (bytesValue s.imem (8 * s.pc.toNat) 8)
    let aborts := s.run = .running ∧ s.inProgress = false ∧ s.abortLatch = true
    let runs := s.run = .running ∧ (s.inProgress = true ∨ s.abortLatch = false)
    ((s.host = [] ∧ rest = []) ∨ s.host = .letCoreStep :: rest →
      (s.run = .idle → step s = .next { s with host := rest }) ∧
      (aborts → step s = .next { stopped 8 0 with abortLatch := false }) ∧
      (runs → 512 ≤ s.pc.toNat → step s = .next (stopped 4 (BitVec.ofNat 32 s.pc.toNat))) ∧
      (runs → s.pc.toNat < 512 → ∀ info,
        (decode word = .error (.illegalOpcode info) → step s = .next (stopped 1 info)) ∧
        (decode word = .error (.illegalOperand info) → step s = .next (stopped 2 info)) ∧
        (decode word = .error (.badImmediate info) → step s = .next (stopped 3 info)))) ∧
    (s.host = .letCoreBegin :: rest →
      (s.run = .idle → step s = .next { s with host := rest }) ∧
      (aborts → step s = .next { stopped 8 0 with abortLatch := false }) ∧
      (runs → step s = .next { s with host := rest, inProgress := true }))

/-- R910, R915, R917, R918, R902: NOP, SETLC, SETA and ADDA. -/
def Obligations.CounterCommands : Prop :=
  ∀ (u : BitVec 16) (s : State),
    (Encodes ⟨0x00, 0, 0, 0, 0, 0, 0⟩ .nop ∧ Completes .nop s {} fun _ => True) ∧
    (Encodes ⟨0x05, 0, 0, 0, 0, 0, u.setWidth 32⟩ (.setlc u) ∧
      Completes (.setlc u) s { lc := true } fun t => t.lc = u) ∧
    (Encodes ⟨0x07, 0, 0, 0, 0, 0, u.setWidth 32⟩ (.seta u) ∧
      Completes (.seta u) s { ar := true } fun t => t.ar = u) ∧
    (Encodes ⟨0x08, 0, 0, 0, 0, 0, u.setWidth 32⟩ (.adda u) ∧
      Completes (.adda u) s { ar := true } fun t =>
        (t.ar.toNat : Int) = (s.ar.toNat + u.toInt) % 2 ^ 16)

/-- R911: HALT sets DONE and makes the core IDLE; pc keeps the HALT's index and nothing else changes. -/
def Obligations.HaltEndsTheRun : Prop :=
  ∀ s : State, Encodes ⟨0x01, 0, 0, 0, 0, 0, 0⟩ .halt ∧
    exec .halt s = .next { s with done := true, run := .idle } ∧
    ∀ t, exec .halt s = .next t → t.busy = false ∧ t.pc = s.pc ∧ t.cause = s.cause ∧ t.irq = s.ie

/-- R903, R912-R914: JMP, and BMT and BMF by the mask word; a taken branch goes to pc + off modulo 2^16
from the branch's own index, an untaken one to the next command; nothing but pc changes, and no target is
checked. -/
def Obligations.BranchCommands : Prop :=
  ∀ (c : MReg) (off : BitVec 16) (s : State),
    let taken := (s.pc.toNat + off.toInt) % 2 ^ 16
    let next := ((s.pc.toNat : Int) + 1) % 2 ^ 16
    (Encodes ⟨0x02, 0, 0, 0, 0, 0, off.setWidth 32⟩ (.jmp off) ∧
      ∃ t, exec (.jmp off) s = .next t ∧ OnlyWrites {} s t ∧ (t.pc.toNat : Int) = taken) ∧
    (Encodes ⟨0x03, 0, 0, 0, reg4 c, 0, off.setWidth 32⟩ (.bmt c off) ∧
      ∃ t, exec (.bmt c off) s = .next t ∧ OnlyWrites {} s t ∧
        (t.pc.toNat : Int) = if s.getM c = 0xFFFFFFFF then taken else next) ∧
    (Encodes ⟨0x04, 0, 0, 0, reg4 c, 0, off.setWidth 32⟩ (.bmf c off) ∧
      ∃ t, exec (.bmf c off) s = .next t ∧ OnlyWrites {} s t ∧
        (t.pc.toNat : Int) = if s.getM c = 0x00000000 then taken else next)

/-- R916: DJNZ decrements lc modulo 2^16 and branches where the new lc is not 0. -/
def Obligations.DecrementAndBranch : Prop :=
  ∀ (off : BitVec 16) (s : State),
    Encodes ⟨0x06, 0, 0, 0, 0, 0, off.setWidth 32⟩ (.djnz off) ∧
    ∃ t, exec (.djnz off) s = .next t ∧ OnlyWrites { lc := true } s t ∧
      (t.lc.toNat : Int) = ((s.lc.toNat : Int) - 1) % 2 ^ 16 ∧
      (t.pc.toNat : Int) =
        if s.lc.toNat = 1 then ((s.pc.toNat : Int) + 1) % 2 ^ 16 else (s.pc.toNat + off.toInt) % 2 ^ 16

/-! ## Field commands (40_field.md, 41_field_inverter.md) -/

/-- R401-R403: FADD, FSUB and FNEG write the residue of the integer result. -/
def Obligations.FieldAddSubtractNegate : Prop :=
  ∀ (d a b : FReg) (s : State),
    (Encodes ⟨0x10, reg4 d, reg4 a, reg4 b, 0, 0, 0⟩ (.fadd d a b) ∧
      Completes (.fadd d a b) s { f := [d] } fun t =>
        (t.getF d).val = ((s.getF a).val + (s.getF b).val) % fieldP) ∧
    (Encodes ⟨0x11, reg4 d, reg4 a, reg4 b, 0, 0, 0⟩ (.fsub d a b) ∧
      Completes (.fsub d a b) s { f := [d] } fun t =>
        ((t.getF d).val : Int) = ((s.getF a).val - (s.getF b).val : Int) % fieldP) ∧
    (Encodes ⟨0x12, reg4 d, reg4 a, 0, 0, 0, 0⟩ (.fneg d a) ∧
      Completes (.fneg d a) s { f := [d] } fun t =>
        ((t.getF d).val : Int) = (0 - (s.getF a).val : Int) % fieldP)

/-- R404, R405: FMUL and FSQR write the integer product modulo p. -/
def Obligations.FieldMultiplySquare : Prop :=
  ∀ (d a b : FReg) (s : State),
    (Encodes ⟨0x13, reg4 d, reg4 a, reg4 b, 0, 0, 0⟩ (.fmul d a b) ∧
      Completes (.fmul d a b) s { f := [d] } fun t =>
        (t.getF d).val = ((s.getF a).val * (s.getF b).val) % fieldP) ∧
    (Encodes ⟨0x14, reg4 d, reg4 a, 0, 0, 0, 0⟩ (.fsqr d a) ∧
      Completes (.fsqr d a) s { f := [d] } fun t =>
        (t.getF d).val = ((s.getF a).val * (s.getF a).val) % fieldP)

/-- R406: FMULC multiplies by the signed constant; the constant must be below 2^26 in magnitude. -/
def Obligations.FieldMultiplyByConstant : Prop :=
  ∀ (d a : FReg) (c : BitVec 32) (s : State),
    (-67108864 < c.toInt ∧ c.toInt < 67108864 →
      Encodes ⟨0x15, reg4 d, reg4 a, 0, 0, 0, c⟩ (.fmulc d a c) ∧
      Completes (.fmulc d a c) s { f := [d] } fun t =>
        ((t.getF d).val : Int) = ((s.getF a).val * c.toInt) % fieldP) ∧
    (67108864 ≤ |c.toInt| →
      decode (Fields.pack ⟨0x15, reg4 d, reg4 a, 0, 0, 0, c⟩) = .error (.badImmediate c))

/-- R407-R409: FWRED, FSRED and FMOV copy the residue. -/
def Obligations.FieldCopies : Prop :=
  ∀ (d a : FReg) (s : State),
    (Encodes ⟨0x16, reg4 d, reg4 a, 0, 0, 0, 0⟩ (.fwred d a) ∧
      Completes (.fwred d a) s { f := [d] } fun t => t.getF d = s.getF a) ∧
    (Encodes ⟨0x17, reg4 d, reg4 a, 0, 0, 0, 0⟩ (.fsred d a) ∧
      Completes (.fsred d a) s { f := [d] } fun t => t.getF d = s.getF a) ∧
    (Encodes ⟨0x18, reg4 d, reg4 a, 0, 0, 0, 0⟩ (.fmov d a) ∧
      Completes (.fmov d a) s { f := [d] } fun t => t.getF d = s.getF a)

/-- R410: FCONST loads the constant its selector names; a selector above 5 is BAD_IMMEDIATE. -/
def Obligations.FieldConstants : Prop :=
  (∀ (d : FReg) (i : Fin 6) (s : State),
    Encodes ⟨0x19, reg4 d, 0, 0, 0, 0, BitVec.ofNat 32 i.val⟩ (.fconst d i) ∧
    Completes (.fconst d i) s { f := [d] } fun t =>
      (t.getF d).val = [0, 1, 2, fieldP - 39081, fieldP - 39082, fieldP - 78164].getD i.val 0) ∧
  ∀ (d : FReg) (u : BitVec 16), 5 < u.toNat →
    decode (Fields.pack ⟨0x19, reg4 d, 0, 0, 0, 0, u.setWidth 32⟩) = .error (.badImmediate (u.setWidth 32))

/-- R450: FINV writes a^(p-2) modulo p, which is 0 for 0 and the inverse of every other residue. -/
def Obligations.FieldInversion : Prop :=
  ∀ (d a : FReg) (s : State),
    Encodes ⟨0x1A, reg4 d, reg4 a, 0, 0, 0, 0⟩ (.finv d a) ∧
    Completes (.finv d a) s { f := [d] } fun t =>
      ((t.getF d).val : ZMod fieldP) = ((s.getF a).val : ZMod fieldP) ^ (fieldP - 2) ∧
      ((s.getF a).val = 0 → (t.getF d).val = 0) ∧
      ((s.getF a).val ≠ 0 → (s.getF a).val * (t.getF d).val % fieldP = 1)

/-- R451: FISR writes r = x^((p-3)/4) modulo p, and the mask of r·r·x = 1; the mask is true exactly for
the non-zero squares, and for a non-square r·r·x is p - 1. -/
def Obligations.FieldInverseSquareRoot : Prop :=
  ∀ (d a : FReg) (c : MReg) (s : State),
    Encodes ⟨0x1B, reg4 d, reg4 a, 0, reg4 c, 0, 0⟩ (.fisr d a c) ∧
    Completes (.fisr d a c) s { f := [d], m := [c] } fun t =>
      let x := (s.getF a).val
      let r := (t.getF d).val
      (r : ZMod fieldP) = (x : ZMod fieldP) ^ ((fieldP - 3) / 4) ∧
      (t.getM c = if r * r * x % fieldP = 1 then 0xFFFFFFFF else 0x00000000) ∧
      (x = 0 → r = 0 ∧ t.getM c = 0x00000000) ∧
      (x ≠ 0 → (∃ y, y * y % fieldP = x) → t.getM c = 0xFFFFFFFF) ∧
      ((¬ ∃ y, y * y % fieldP = x) → r * r * x % fieldP = fieldP - 1 ∧ t.getM c = 0x00000000)

/-! ## Comparator, selectors and masks (42_ct_compare_select.md) -/

/-- R501-R504: FEQ, FSEL (a true mask picks RB), FCSWAP (also where RA and RB are one register) and
FCNEG. -/
def Obligations.CompareAndSelect : Prop :=
  ∀ (d a b : FReg) (e c : MReg) (s : State),
    (Encodes ⟨0x20, reg4 e, reg4 a, reg4 b, 0, 0, 0⟩ (.feq e a b) ∧
      Completes (.feq e a b) s { m := [e] } fun t =>
        t.getM e = if (s.getF a).val = (s.getF b).val then 0xFFFFFFFF else 0x00000000) ∧
    (Encodes ⟨0x21, reg4 d, reg4 a, reg4 b, reg4 c, 0, 0⟩ (.fsel d a b c) ∧
      Completes (.fsel d a b c) s { f := [d] } fun t =>
        t.getF d = if s.getM c = 0xFFFFFFFF then s.getF b else s.getF a) ∧
    (Encodes ⟨0x22, 0, reg4 a, reg4 b, reg4 c, 0, 0⟩ (.fcswap a b c) ∧
      Completes (.fcswap a b c) s { f := [a, b] } fun t =>
        (t.getF a = if s.getM c = 0xFFFFFFFF then s.getF b else s.getF a) ∧
        (t.getF b = if s.getM c = 0xFFFFFFFF then s.getF a else s.getF b)) ∧
    (Encodes ⟨0x23, reg4 d, reg4 a, 0, reg4 c, 0, 0⟩ (.fcneg d a c) ∧
      Completes (.fcneg d a c) s { f := [d] } fun t =>
        ((t.getF d).val : Int) =
          if s.getM c = 0xFFFFFFFF then (0 - (s.getF a).val : Int) % fieldP else (s.getF a).val)

/-- R505-R509: the mask constants and the bitwise mask commands; a selector above 1 is BAD_IMMEDIATE. -/
def Obligations.MaskLogic : Prop :=
  (∀ (d a b : MReg) (i : Fin 2) (s : State),
    (Encodes ⟨0x28, reg4 d, 0, 0, 0, 0, BitVec.ofNat 32 i.val⟩ (.mset d i) ∧
      Completes (.mset d i) s { m := [d] } fun t =>
        t.getM d = if i.val = 1 then 0xFFFFFFFF else 0x00000000) ∧
    (Encodes ⟨0x29, reg4 d, reg4 a, reg4 b, 0, 0, 0⟩ (.mand d a b) ∧
      Completes (.mand d a b) s { m := [d] } fun t => t.getM d = s.getM a &&& s.getM b) ∧
    (Encodes ⟨0x2A, reg4 d, reg4 a, reg4 b, 0, 0, 0⟩ (.mor d a b) ∧
      Completes (.mor d a b) s { m := [d] } fun t => t.getM d = s.getM a ||| s.getM b) ∧
    (Encodes ⟨0x2B, reg4 d, reg4 a, reg4 b, 0, 0, 0⟩ (.mxor d a b) ∧
      Completes (.mxor d a b) s { m := [d] } fun t => t.getM d = s.getM a ^^^ s.getM b) ∧
    (Encodes ⟨0x2C, reg4 d, reg4 a, 0, 0, 0, 0⟩ (.mnot d a) ∧
      Completes (.mnot d a) s { m := [d] } fun t => t.getM d = s.getM a ^^^ 0xFFFFFFFF)) ∧
  ∀ (d : MReg) (u : BitVec 16), 1 < u.toNat →
    decode (Fields.pack ⟨0x28, reg4 d, 0, 0, 0, 0, u.setWidth 32⟩) = .error (.badImmediate (u.setWidth 32))

/-- R510, R511: MLD loads ONES for any non-zero word; MST stores the four bytes of the mask. -/
def Obligations.MaskLoadStore : Prop :=
  ∀ (d : MReg) (am : Bool) (base : BitVec 16) (s : State), GoodAddress 4 am base s →
    let ea := (s.effAddr am base).toNat
    (Encodes ⟨0x2D, reg4 d, 0, 0, 0, modWithAM am, base.setWidth 32⟩ (.mld d am base) ∧
      Completes (.mld d am base) s { m := [d] } fun t =>
        t.getM d = if bytesValue s.dmem ea 4 ≠ 0 then 0xFFFFFFFF else 0x00000000) ∧
    (Encodes ⟨0x2E, 0, reg4 d, 0, 0, modWithAM am, base.setWidth 32⟩ (.mst d am base) ∧
      (s.Inv → Completes (.mst d am base) s { start := ea, len := 4 } fun t =>
        HoldsBytes t.dmem ea 4 (s.getM d).toNat))

/-! ## Field load and store (43_field_io.md) -/

/-- R550: FLD loads the 56-byte value modulo p, with the mask of its being below p. -/
def Obligations.FieldLoad : Prop :=
  ∀ (d : FReg) (c : MReg) (am : Bool) (base : BitVec 16) (s : State), GoodAddress 56 am base s →
    let v := bytesValue s.dmem (s.effAddr am base).toNat 56
    Encodes ⟨0x30, reg4 d, 0, 0, reg4 c, modWithAM am, base.setWidth 32⟩ (.fld d c am base) ∧
    Completes (.fld d c am base) s { f := [d], m := [c] } fun t =>
      (t.getF d).val = v % fieldP ∧ t.getM c = if v < fieldP then 0xFFFFFFFF else 0x00000000

/-- R551: FLDM loads 57 bytes, the last with the bits of strip cleared. -/
def Obligations.FieldLoadStripped : Prop :=
  ∀ (d : FReg) (c : MReg) (am : Bool) (strip : BitVec 8) (base : BitVec 16) (s : State),
    GoodAddress 57 am base s →
    let ea := (s.effAddr am base).toNat
    let v := bytesValue s.dmem ea 56 + (s.dmem.read (ea + 56) &&& ~~~strip).toNat * 2 ^ 448
    Encodes ⟨0x31, reg4 d, 0, 0, reg4 c, modWithAM am, 0#8 ++ (strip ++ base)⟩ (.fldm d c am strip base) ∧
    Completes (.fldm d c am strip base) s { f := [d], m := [c] } fun t =>
      (t.getF d).val = v % fieldP ∧ t.getM c = if v < fieldP then 0xFFFFFFFF else 0x00000000

/-- R552: FST writes the 56 bytes of the residue. -/
def Obligations.FieldStore : Prop :=
  ∀ (a : FReg) (am : Bool) (base : BitVec 16) (s : State), s.Inv → GoodAddress 56 am base s →
    let ea := (s.effAddr am base).toNat
    Encodes ⟨0x32, 0, reg4 a, 0, 0, modWithAM am, base.setWidth 32⟩ (.fst a am base) ∧
    Completes (.fst a am base) s { start := ea, len := 56 } fun t => HoldsBytes t.dmem ea 56 (s.getF a).val

/-- R553: FLD from where FST has just stored gives the value back, with the mask true. -/
def Obligations.FieldRoundTrip : Prop :=
  ∀ (a d : FReg) (c : MReg) (am : Bool) (base : BitVec 16) (s : State), s.Inv → GoodAddress 56 am base s →
    ∃ t u, exec (.fst a am base) s = .next t ∧ exec (.fld d c am base) t = .next u ∧
      u.getF d = s.getF a ∧ u.getM c = 0xFFFFFFFF

/-! ## Scalar commands (44_scalar.md) -/

/-- R601, R602: SADD and SSUB modulo L. -/
def Obligations.ScalarAddSubtract : Prop :=
  ∀ (d a b : SReg) (s : State),
    (Encodes ⟨0x40, reg4 d, reg4 a, reg4 b, 0, 0, 0⟩ (.sadd d a b) ∧
      Completes (.sadd d a b) s { sc := [d] } fun t =>
        (t.getS d).val = ((s.getS a).val + (s.getS b).val) % orderL) ∧
    (Encodes ⟨0x41, reg4 d, reg4 a, reg4 b, 0, 0, 0⟩ (.ssub d a b) ∧
      Completes (.ssub d a b) s { sc := [d] } fun t =>
        ((t.getS d).val : Int) = ((s.getS a).val - (s.getS b).val : Int) % orderL)

/-- R603, R604: SMONT writes the one value z below L with z·2^448 ≡ x·y modulo L; SMUL writes x·y modulo L. -/
def Obligations.ScalarMultiply : Prop :=
  ∀ (d a b : SReg) (s : State),
    (Encodes ⟨0x42, reg4 d, reg4 a, reg4 b, 0, 0, 0⟩ (.smont d a b) ∧
      Completes (.smont d a b) s { sc := [d] } fun t =>
        (t.getS d).val * 2 ^ 448 % orderL = (s.getS a).val * (s.getS b).val % orderL ∧
        ∀ z, z < orderL → z * 2 ^ 448 % orderL = (s.getS a).val * (s.getS b).val % orderL →
          z = (t.getS d).val) ∧
    (Encodes ⟨0x43, reg4 d, reg4 a, reg4 b, 0, 0, 0⟩ (.smul d a b) ∧
      Completes (.smul d a b) s { sc := [d] } fun t =>
        (t.getS d).val = (s.getS a).val * (s.getS b).val % orderL)

/-- R605-R607: SHALVE (which halves modulo L), SMOV and SCONST; a selector above 3 is BAD_IMMEDIATE. -/
def Obligations.ScalarHalveMoveConstant : Prop :=
  (∀ (d a : SReg) (i : Fin 4) (s : State),
    (Encodes ⟨0x44, reg4 d, reg4 a, 0, 0, 0, 0⟩ (.shalve d a) ∧
      Completes (.shalve d a) s { sc := [d] } fun t =>
        (t.getS d).val = ((s.getS a).val + if (s.getS a).val % 2 = 1 then orderL else 0) / 2 ∧
        2 * (t.getS d).val % orderL = (s.getS a).val) ∧
    (Encodes ⟨0x45, reg4 d, reg4 a, 0, 0, 0, 0⟩ (.smov d a) ∧
      Completes (.smov d a) s { sc := [d] } fun t => t.getS d = s.getS a) ∧
    (Encodes ⟨0x46, reg4 d, 0, 0, 0, 0, BitVec.ofNat 32 i.val⟩ (.sconst d i) ∧
      Completes (.sconst d i) s { sc := [d] } fun t =>
        (t.getS d).val =
          [0, 1, 2 ^ 448 % orderL * (2 ^ 448 % orderL) % orderL, (2 ^ 450 - 1) % orderL].getD i.val 0)) ∧
  ∀ (d : SReg) (u : BitVec 16), 3 < u.toNat →
    decode (Fields.pack ⟨0x46, reg4 d, 0, 0, 0, 0, u.setWidth 32⟩) = .error (.badImmediate (u.setWidth 32))

/-- R611, R612: SLD loads the 56-byte value modulo L with the mask of its being below L; SST writes the 56
bytes of the scalar. -/
def Obligations.ScalarLoadStore : Prop :=
  ∀ (d : SReg) (c : MReg) (am : Bool) (base : BitVec 16) (s : State), GoodAddress 56 am base s →
    let ea := (s.effAddr am base).toNat
    let v := bytesValue s.dmem ea 56
    (Encodes ⟨0x47, reg4 d, 0, 0, reg4 c, modWithAM am, base.setWidth 32⟩ (.sld d c am base) ∧
      Completes (.sld d c am base) s { sc := [d], m := [c] } fun t =>
        (t.getS d).val = v % orderL ∧ t.getM c = if v < orderL then 0xFFFFFFFF else 0x00000000) ∧
    (Encodes ⟨0x48, 0, reg4 d, 0, 0, modWithAM am, base.setWidth 32⟩ (.sst d am base) ∧
      (s.Inv → Completes (.sst d am base) s { start := ea, len := 56 } fun t =>
        HoldsBytes t.dmem ea 56 (s.getS d).val))

/-- R614: halving a doubled scalar gives it back, multiplying by the constant one changes nothing, and a
stored scalar loads back with a true mask. -/
def Obligations.ScalarProperties : Prop :=
  ∀ (d a : SReg) (s : State),
    (∃ t u, exec (.sadd d a a) s = .next t ∧ exec (.shalve d d) t = .next u ∧ u.getS d = s.getS a) ∧
    (a ≠ d → ∃ t u, exec (.sconst d 1) s = .next t ∧ exec (.smul d a d) t = .next u ∧ u.getS d = s.getS a) ∧
    (∀ (c : MReg) (am : Bool) (base : BitVec 16), s.Inv → GoodAddress 56 am base s →
      ∃ t u, exec (.sst a am base) s = .next t ∧ exec (.sld d c am base) t = .next u ∧
        u.getS d = s.getS a ∧ u.getM c = 0xFFFFFFFF)

/-! ## Memory faults (20_memory.md, 60_exceptions.md R1005) -/

/-- R210-R213, R1005: the effective address, and the two faults of the seven memory commands: alignment
first, then the range on the unwrapped sum; EINFO is the address and nothing is accessed. -/
def Obligations.MemoryFaults : Prop :=
  ∀ (fd : FReg) (sd : SReg) (md : MReg) (am : Bool) (strip : BitVec 8) (base : BitVec 16) (s : State),
    let ea := (base.toNat + if am then s.ar.toNat else 0) % 2 ^ 16
    (s.effAddr am base).toNat = ea ∧
    ∀ e ∈ [(Instr.mld md am base, 4), (.mst md am base, 4), (.fld fd md am base, 56),
        (.fldm fd md am strip base, 57), (.fst fd am base, 56), (.sld sd md am base, 56), (.sst sd am base, 56)],
      (ea % 4 ≠ 0 → Traps e.1 s .dmemMisaligned (BitVec.ofNat 32 ea)) ∧
      (ea % 4 = 0 → 4096 < ea + e.2 → Traps e.1 s .dmemRange (BitVec.ofNat 32 ea))

/-! ## Point commands (45_point.md) -/

/-- R704, R701: PDBL writes the residues of the doubling formulas, on any operand, stale or not. -/
def Obligations.PointDoubling : Prop :=
  ∀ (d a : PReg) (bd : Bool) (s : State),
    Encodes ⟨0x50, reg4 d, reg4 a, 0, 0, modWithBD bd, 0⟩ (.pdbl d a bd) ∧
    Completes (.pdbl d a bd) s { p := [d] } fun t =>
      ((s.getP a).coords.ints.dbl bd).Residues (t.getP d).coords ∧ (t.getP d).ts = bd

/-- R705, R706, R703: PADDN and PSUBN on an operand whose T is fresh. -/
def Obligations.MixedAddition : Prop :=
  ∀ (d a : PReg) (b : NReg) (bd : Bool) (s : State), (s.getP a).ts = false →
    (Encodes ⟨0x51, reg4 d, reg4 a, reg4 b, 0, modWithBD bd, 0⟩ (.paddn d a b bd) ∧
      Completes (.paddn d a b bd) s { p := [d] } fun t =>
        ((s.getP a).coords.ints.addN (s.getN b).ints bd).Residues (t.getP d).coords ∧ (t.getP d).ts = bd) ∧
    (Encodes ⟨0x52, reg4 d, reg4 a, reg4 b, 0, modWithBD bd, 0⟩ (.psubn d a b bd) ∧
      Completes (.psubn d a b bd) s { p := [d] } fun t =>
        ((s.getP a).coords.ints.addN (s.getN b).ints.neg bd).Residues (t.getP d).coords ∧ (t.getP d).ts = bd)

/-- R707-R709, R703, R700: PADDPN, PSUBPN and PADD on operands whose T is fresh. -/
def Obligations.ProjectedAddition : Prop :=
  ∀ (d a : PReg) (b : Fin 8) (bd : Bool) (s : State), (s.getP a).ts = false →
    (Encodes ⟨0x53, reg4 d, reg4 a, reg4 b, 0, modWithBD bd, 0⟩ (.paddpn d a b bd) ∧
      Completes (.paddpn d a b bd) s { p := [d] } fun t =>
        ((s.getP a).coords.ints.addPN (s.getN b).ints bd).Residues (t.getP d).coords ∧ (t.getP d).ts = bd) ∧
    (Encodes ⟨0x54, reg4 d, reg4 a, reg4 b, 0, modWithBD bd, 0⟩ (.psubpn d a b bd) ∧
      Completes (.psubpn d a b bd) s { p := [d] } fun t =>
        ((s.getP a).coords.ints.addPN (s.getN b).ints.neg bd).Residues (t.getP d).coords ∧
          (t.getP d).ts = bd) ∧
    (Encodes ⟨0x55, reg4 d, reg4 a, reg4 b, 0, modWithBD bd, 0⟩ (.padd d a b bd) ∧
      ((s.getP b).ts = false → Completes (.padd d a b bd) s { p := [d] } fun t =>
        ((s.getP a).coords.ints.addPN (s.getP b).coords.ints.toPN bd).Residues (t.getP d).coords ∧
          (t.getP d).ts = bd))

/-- R1004: the commands that read a stale T raise STALE_T with the register's index; PADD checks RA before
RB; PDBL, PEQ, PXF and PMOV do not check. -/
def Obligations.StaleOperands : Prop :=
  ∀ (d a b : PReg) (n : NReg) (m : MReg) (k l : SReg) (g : FGroup) (bd : Bool) (s : State),
    ((s.getP a).ts = true →
      ∀ i ∈ [Instr.paddn d a n bd, .psubn d a n bd, .paddpn d a n bd, .psubpn d a n bd, .padd d a b bd,
          .pton n a, .pvalid m a, .psmul d a k, .pdsmul d k a l],
        Traps i s .staleT (BitVec.ofNat 32 a.val)) ∧
    ((s.getP a).ts = false → (s.getP b).ts = true → Traps (.padd d a b bd) s .staleT (BitVec.ofNat 32 b.val)) ∧
    ∀ i ∈ [Instr.pdbl d a bd, .peq m a b, .pxf g a, .pmov d a],
      ∃ t, exec i s = .next t ∧ t.pc = s.pc + 1 ∧ SameControl s t

/-- R710-R712: PTON on a fresh T, NCNEG by the mask, PID. -/
def Obligations.NielsAndIdentity : Prop :=
  ∀ (e b : NReg) (d a : PReg) (c : MReg) (s : State),
    (Encodes ⟨0x56, reg4 e, reg4 a, 0, 0, 0, 0⟩ (.pton e a) ∧
      ((s.getP a).ts = false → Completes (.pton e a) s { n := [e] } fun t =>
        (s.getP a).coords.ints.toPN.Residues (t.getN e))) ∧
    (Encodes ⟨0x57, reg4 e, reg4 b, 0, reg4 c, 0, 0⟩ (.ncneg e b c) ∧
      Completes (.ncneg e b c) s { n := [e] } fun t =>
        if s.getM c = 0xFFFFFFFF then (s.getN b).ints.neg.Residues (t.getN e) else t.getN e = s.getN b) ∧
    (Encodes ⟨0x58, reg4 d, 0, 0, 0, 0, 0⟩ (.pid d) ∧
      Completes (.pid d) s { p := [d] } fun t =>
        (t.getP d).coords.ints = ⟨0, 1, 1, 0⟩ ∧ (t.getP d).ts = false)

/-- R713, R719: PEQ compares the ratios X/Y without reading T; PVALID tests the curve relations on a fresh
T, with D_TW = -39082. -/
def Obligations.PointComparison : Prop :=
  ∀ (d : MReg) (a b : PReg) (s : State),
    let q := (s.getP a).coords.ints
    let r := (s.getP b).coords.ints
    (Encodes ⟨0x59, reg4 d, reg4 a, reg4 b, 0, 0, 0⟩ (.peq d a b) ∧
      Completes (.peq d a b) s { m := [d] } fun t =>
        t.getM d = if q.x * r.y % fieldP = r.x * q.y % fieldP then 0xFFFFFFFF else 0x00000000) ∧
    (Encodes ⟨0x5A, reg4 d, reg4 a, 0, 0, 0, 0⟩ (.pvalid d a) ∧
      ((s.getP a).ts = false → Completes (.pvalid d a) s { m := [d] } fun t =>
        t.getM d =
          if q.x * q.y % fieldP = q.z * q.t % fieldP ∧
              (-q.x ^ 2 + q.y ^ 2) % fieldP = (q.z ^ 2 + -39082 * q.t ^ 2) % fieldP ∧ q.z ≠ 0 then 0xFFFFFFFF
          else 0x00000000))

/-- R720-R724: the moves between register files; a group is the four registers from its base on; PMOV and
PXF take a stale T as data. -/
def Obligations.PointAndNielsMoves : Prop :=
  ∀ (d a : PReg) (e b : NReg) (g : FGroup) (s : State),
    let at' := fun (t : State) (k : Fin 4) => t.getF ⟨g.val + k.val, by omega⟩
    let group : List FReg := [⟨g.val, by omega⟩, ⟨g.val + 1, by omega⟩, ⟨g.val + 2, by omega⟩, ⟨g.val + 3, by omega⟩]
    (Encodes ⟨0x5F, reg4 d, reg4 a, 0, 0, 0, 0⟩ (.pmov d a) ∧
      Completes (.pmov d a) s { p := [d] } fun t => t.getP d = s.getP a) ∧
    (Encodes ⟨0x5B, reg4 d, reg4 g, 0, 0, 0, 0⟩ (.pfx d g) ∧
      Completes (.pfx d g) s { p := [d] } fun t =>
        t.getP d = ⟨⟨at' s 0, at' s 1, at' s 2, at' s 3⟩, false⟩) ∧
    (Encodes ⟨0x5C, reg4 g, reg4 a, 0, 0, 0, 0⟩ (.pxf g a) ∧
      Completes (.pxf g a) s { f := group } fun t =>
        (⟨at' t 0, at' t 1, at' t 2, at' t 3⟩ : ExtPoint) = (s.getP a).coords) ∧
    (Encodes ⟨0x5D, reg4 e, reg4 g, 0, 0, 0, 0⟩ (.nfx e g) ∧
      Completes (.nfx e g) s { n := [e] } fun t => t.getN e = ⟨at' s 0, at' s 1, at' s 2, at' s 3⟩) ∧
    (Encodes ⟨0x5E, reg4 g, reg4 b, 0, 0, 0, 0⟩ (.nxf g b) ∧
      Completes (.nxf g b) s { f := group } fun t =>
        (⟨at' t 0, at' t 1, at' t 2, at' t 3⟩ : Niels) = s.getN b)

/-- R702: with BD the six adder commands write the same X, Y and Z as without it, the T of their first
point operand unchanged, and TS = 1; without it TS = 0. -/
def Obligations.BeforeDouble : Prop :=
  ∀ (d a b : PReg) (n : NReg) (s : State), (s.getP a).ts = false → (s.getP b).ts = false →
    ∀ cmd ∈ [Instr.pdbl d a, .paddn d a n, .psubn d a n, .paddpn d a n, .psubpn d a n, .padd d a b],
      ∃ t u, exec (cmd true) s = .next t ∧ exec (cmd false) s = .next u ∧
        (t.getP d).coords.x = (u.getP d).coords.x ∧ (t.getP d).coords.y = (u.getP d).coords.y ∧
        (t.getP d).coords.z = (u.getP d).coords.z ∧ (t.getP d).coords.t = (s.getP a).coords.t ∧
        (t.getP d).ts = true ∧ (u.getP d).ts = false

/-- R716: every point the six adder commands write without BD satisfies X·Y = Z·T, whatever the operands'
coordinates. -/
def Obligations.FreshTIsConsistent : Prop :=
  ∀ (d a b : PReg) (n : NReg) (s : State), (s.getP a).ts = false → (s.getP b).ts = false →
    ∀ i ∈ [Instr.pdbl d a false, .paddn d a n false, .psubn d a n false, .paddpn d a n false,
        .psubpn d a n false, .padd d a b false],
      ∃ t, exec i s = .next t ∧ (t.getP d).ts = false ∧
        (t.getP d).coords.x.val * (t.getP d).coords.y.val % fieldP =
          (t.getP d).coords.z.val * (t.getP d).coords.t.val % fieldP

/-! ## The engines (46_scalarmul.md) -/

/-- R804, with R801-R803 in signed digits: PSMUL runs the 90 windows of s from the top, where
2s ≡ k + 2^450 - 1 modulo L: four before_double doublings, one doubling, and the addition of
(2·window - 31)·P from the table of odd multiples, with before_double on every addition but the last. -/
def Obligations.FixedWindowMultiplication : Prop :=
  ∀ (d a : PReg) (b : SReg) (s : State), (s.getP a).ts = false →
    Encodes ⟨0x60, reg4 d, reg4 a, reg4 b, 0, 0, 0⟩ (.psmul d a b) ∧
    Completes (.psmul d a b) s { p := [d] } fun t =>
      ∃ (x : Nat) (acc q : Nat → ExtPoint),
        x < orderL ∧ 2 * x % orderL = ((s.getS b).val + (2 ^ 450 - 1)) % orderL ∧
        acc 0 = (s.getP a).coords ∧
        (∀ i < 15, acc (i + 1) = addPN (acc i) (toPN (dbl (s.getP a).coords false)) false) ∧
        q 90 = ExtPoint.identity ∧
        (∀ w < 90, q w =
          addPN (dbl (dbl (dbl (dbl (dbl (q (w + 1)) true) true) true) true) false)
            (signedMultiple (fun i => toPN (acc i)) (2 * (x / 32 ^ w % 32 : Nat) - 31)) (w != 0)) ∧
        t.getP d = ⟨q 0, false⟩

/-- R811, with R801 and R810: PBMUL runs the 18 spacing positions of s from the top, doubling once and
adding the five groups in order; the top tooth of a group's five bits is its sign, and the other four,
complemented where the sign is clear, index COMB_ROM. R19, R16: the base point of that table is on the curve,
L times it is the identity, and it is not the identity itself. -/
def Obligations.FixedBaseComb : Prop :=
  (let x : Int := basePoint.x.val
   let y : Int := basePoint.y.val
   let m := (multipleBits basePoint 450 orderL).ints
   (-x ^ 2 + y ^ 2) % fieldP = (1 + -39082 * x ^ 2 * y ^ 2) % fieldP ∧
     (m.x = 0 ∧ m.y = m.z ∧ m.z ≠ 0) ∧ ¬ (x = 0 ∧ y = 1)) ∧
  ∀ (d : PReg) (a : SReg) (s : State),
    Encodes ⟨0x61, reg4 d, reg4 a, 0, 0, 0, 0⟩ (.pbmul d a) ∧
    Completes (.pbmul d a) s { p := [d] } fun t =>
      ∃ (x : Nat) (q : Nat → ExtPoint) (r : Nat → Nat → ExtPoint),
        x < orderL ∧ 2 * x % orderL = ((s.getS a).val + (2 ^ 450 - 1)) % orderL ∧
        q 18 = ExtPoint.identity ∧
        (∀ i < 18, r i 0 = dbl (q (i + 1)) false ∧ q i = r i 5 ∧
          ∀ j < 5,
            let bit := fun k => (x / 2 ^ (i + 18 * (k + 5 * j)) % 2 : Nat)
            let low := bit 0 + 2 * bit 1 + 4 * bit 2 + 8 * bit 3
            r i (j + 1) = addN (r i j)
              (if bit 4 = 1 then combRom basePoint j low else negN (combRom basePoint j (15 - low)))
              (decide (j = 4 ∧ i ≠ 0))) ∧
        t.getP d = ⟨q 0, false⟩

/-- R822, with R802 and R820: PDSMUL runs the positions from the highest with a digit in either
non-adjacent form (width 7 for s_pre, width 5 for s_var) down to 0: one doubling, then the variable point's
digit, then the base point's; with no digit the result is the identity. -/
def Obligations.DoubleBaseMultiplication : Prop :=
  ∀ (d : PReg) (a : SReg) (b : PReg) (c : SReg) (s : State), (s.getP b).ts = false →
    Encodes ⟨0x62, reg4 d, reg4 a, reg4 b, reg4 c, 0, 0⟩ (.pdsmul d a b c) ∧
    Completes (.pdsmul d a b c) s { p := [d] } fun t =>
      ∃ (dp dv : Nat → Int) (acc q : Nat → ExtPoint) (n : Nat),
        IsNaf 7 (s.getS a).val dp ∧ IsNaf 5 (s.getS c).val dv ∧
        acc 0 = (s.getP b).coords ∧
        (∀ i < 7, acc (i + 1) = addPN (acc i) (toPN (dbl (s.getP b).coords false)) false) ∧
        (∀ i, n ≤ i → dp i = 0 ∧ dv i = 0) ∧ (n = 0 ∨ dp (n - 1) ≠ 0 ∨ dv (n - 1) ≠ 0) ∧
        q n = ExtPoint.identity ∧
        (∀ i < n,
          let doubled := dbl (q (i + 1)) false
          let added := if dv i = 0 then doubled
            else addPN doubled (signedMultiple (fun k => toPN (acc k)) (dv i)) false
          q i = if dp i = 0 then added else addN added (signedMultiple (wnafRom basePoint) (dp i)) false) ∧
        t.getP d = ⟨q 0, false⟩

/-- R801, R803: the offset and halved scalar s of k satisfies 2s ≡ k + 2^450 - 1 modulo L with s < L; the
odd integer N = 2s - (2^450 - 1) is the sum of the signed bits and of the signed windows of s, and N ≡ k
modulo L. -/
def Obligations.OffsetAndSignedDigits : Prop :=
  ∀ k : Sc,
    let s := (offsetHalve k).val
    let n : Int := 2 * s - (2 ^ 450 - 1)
    s < orderL ∧ 2 * s % orderL = (k.val + (2 ^ 450 - 1)) % orderL ∧
    n = ((List.range 450).map fun i => (2 * ((s / 2 ^ i % 2 : Nat) : Int) - 1) * 2 ^ i).sum ∧
    n = ((List.range 90).map fun w => (2 * (windowDigit s w : Int) - 31) * 32 ^ w).sum ∧
    (n - k.val) % orderL = 0

/-- R810, R830: every bit of s is read by exactly one tooth, and the sign-corrected multiples that the
groups' digits stand for, each taken 2^i times at spacing i, sum to N = 2s - (2^450 - 1). -/
def Obligations.CombDigitsSum : Prop :=
  (∀ b < 450, ∃! t : Fin 18 × Fin 5 × Fin 5, b = t.1.val + 18 * (t.2.2.val + 5 * t.2.1.val)) ∧
  ∀ s < 2 ^ 450,
    let multiple := fun i j : Nat =>
      let digit := combDigit s i j
      if digit.testBit 4 then combMultiple j (digit % 16) else -combMultiple j ((digit ^^^ 0x1F) % 16)
    ((List.range 18).map fun i => 2 ^ i * ((List.range 5).map (multiple i)).sum).sum =
      2 * (s : Int) - (2 ^ 450 - 1)

/-- R820: the recoding of a scalar with table_bits tb is its non-adjacent form of width tb + 2, listed by
rising position and without zero digits; and the spec's two examples. -/
def Obligations.WnafRecoding : Prop :=
  (∀ (v : Sc) (tb : Nat), 1 ≤ tb → IsNaf (tb + 2) v.val (digitAt (recodeWnaf v.val tb)) ∧
    (recodeWnaf v.val tb).Pairwise (fun x y => x.1 < y.1) ∧ ∀ e ∈ recodeWnaf v.val tb, e.2 ≠ 0) ∧
  recodeWnaf 17 3 = [(0, -15), (5, 1)] ∧ recodeWnaf 15 3 = [(0, 15)]

/-! ## The machine as a whole -/

/-- R1010, R1000: a command that answers a next state has either completed, with nothing changed but pc
and the state its rule names, or raised one exception, with CAUSE, EPC, EINFO, ERR and the run state
written and nothing else, or is HALT. -/
def Obligations.CommandFrame : Prop :=
  ∀ (i : Instr) (s : State), ∃ t, exec i s = .next t ∧
    (OnlyWrites (writesOf i s) s t ∨
      (∃ c info, Traps i s c info ∧ (c = .dmemMisaligned ∨ c = .dmemRange ∨ c = .staleT)) ∨
      (i = .halt ∧ t = { s with done := true, run := .idle }))

/-- R108, R111, R112, R202: which commands write a mask register, lc and ar; that no command writes IMEM,
ENTRY, CTRL.IE or HAC; and that only stores change DMEM. -/
def Obligations.OwnersOfTheState : Prop :=
  ∀ (i : Instr) (s t : State), exec i s = .next t →
    (t.lc ≠ s.lc → (∃ u, i = .setlc u) ∨ ∃ off, i = .djnz off) ∧
    (t.ar ≠ s.ar → (∃ u, i = .seta u) ∨ ∃ v, i = .adda v) ∧
    t.imem = s.imem ∧ t.entry = s.entry ∧ t.ie = s.ie ∧ t.hac = s.hac ∧
    (t.dmem ≠ s.dmem → (∃ a am base, i = .mst a am base) ∨ (∃ a am base, i = .fst a am base) ∨
      ∃ a am base, i = .sst a am base) ∧
    (∀ r, t.getM r ≠ s.getM r →
      (∃ a b, i = .feq r a b) ∨ (∃ a b, i = .peq r a b) ∨ (∃ a, i = .pvalid r a) ∨
      (∃ d a, i = .fisr d a r) ∨ (∃ d am base, i = .fld d r am base) ∨
      (∃ d am strip base, i = .fldm d r am strip base) ∨ (∃ d am base, i = .sld d r am base) ∨
      (∃ k, i = .mset r k) ∨ (∃ a b, i = .mand r a b) ∨ (∃ a b, i = .mor r a b) ∨
      (∃ a b, i = .mxor r a b) ∨ (∃ a, i = .mnot r a) ∨ ∃ am base, i = .mld r am base)

/-- 10_state.md R180, R1100: what a power-on reset leaves: the values of R180, the constant ID and CFG
words, and both memories with any contents. The memories of `State.reset` list nothing, which is the
model's choice (log entry 1). -/
def Obligations.PowerOnResetValues : Prop :=
  HasResetValues State.reset ∧ State.reset.imem = [] ∧ State.reset.dmem = [] ∧
  ∀ (s : State) (imemInit dmemInit : List Host.Cell) (rest : List HostAction),
    s.host = .powerOnReset imemInit dmemInit :: rest →
    ∃ t, step s = .next t ∧ HasResetValues t ∧ t.host = rest ∧
      (∀ c ∈ imemInit, (∀ e ∈ imemInit, e.1 = c.1 → e = c) → c.1 < 4096 → t.imem.read c.1 = c.2) ∧
      (∀ c ∈ dmemInit, (∀ e ∈ dmemInit, e.1 = c.1 → e = c) → c.1 < 4096 → t.dmem.read c.1 = c.2)

/-- R1101, R141: CTRL.SRST puts every register at its reset value, whatever the write's other bits; IMEM
stays; DMEM stays while IDLE; while RUNNING each byte is the old one, or, inside the range of a store in
progress, may be the one that store would have written. That the command in progress is the one at pc, and
that none is in progress at a boundary, is the model's (log entry 5). -/
def Obligations.SoftReset : Prop :=
  ∀ (s : State) (v : BitVec 32) (rest : List HostAction), s.Inv → s.host = .write 0x004 .word v :: rest →
    v.getLsbD 2 = true →
    ∃ t, step s = .next t ∧ HasResetValues t ∧ t.imem = s.imem ∧ t.host = rest ∧
      (s.run = .idle ∨ s.inProgress = false → t.dmem = s.dmem) ∧
      ∀ a, t.dmem.read a = s.dmem.read a ∨
        ∃ i u, s.run = .running ∧ s.inProgress = true ∧ s.pc.toNat < 512 ∧
          decode (BitVec.ofNat 64 (bytesValue s.imem (8 * s.pc.toNat) 8)) = .ok i ∧
          (writesOf i s).start ≤ a ∧ a < (writesOf i s).start + (writesOf i s).len ∧
          exec i { s with host := rest } = .next u ∧ t.dmem.read a = u.dmem.read a

/-- The invariant of Safety.lean holds at reset. -/
def Obligations.InvariantAtReset : Prop := State.reset.Inv

/-- Every step from a state that satisfies the invariant answers a next state that satisfies it: masks stay
0 or ONES (10_state.md R107), DONE and ERR are never both set (R142), CAUSE stays a code of R1001 that
agrees with the outcome (R1013), a command is in progress only while RUNNING, and both memories stay
canonical and inside their spaces. The abort latch gets set only by a host write of CTRL.ABORT while RUNNING
(R114). -/
def Obligations.StepKeepsInvariant : Prop :=
  ∀ s : State, s.Inv → ∃ t, step s = .next t ∧ t.Inv ∧
    (s.abortLatch = false → t.abortLatch = true →
      s.run = .running ∧ ∃ v rest, s.host = .write 0x004 .word v :: rest ∧ v.getLsbD 1 = true)

/-- R1013: a step that ends a run ends it in one of three ways: HALT with DONE, an exception with ERR and a
CAUSE from 1 to 8 and EPC the pc, or a reset with STATUS 0. -/
def Obligations.RunOutcome : Prop :=
  ∀ s t : State, s.Inv → s.run = .running → step s = .next t → t.run = .idle →
    (t.done = true ∧ t.err = false ∧ t.cause = 0 ∧ t.pc = s.pc) ∨
    (t.err = true ∧ t.done = false ∧ 1 ≤ t.cause ∧ t.cause ≤ 8 ∧ t.epc = t.pc ∧ t.pc = s.pc) ∨
    (HasResetValues t ∧ s.host ≠ [])

/-- R1140, for the model's trace of pcs, command words, exceptions and effective addresses: two runs whose
public parts agree keep them in agreement at every step, where the command at pc is not BMT or BMF: the
contents of the field, scalar, point, Niels and mask registers and of DMEM decide neither the next pc nor
an exception, and the bytes of DMEM a command may write are the same in both. -/
def Obligations.SecretsStayHidden : Prop :=
  (∀ s t s' t' : State, PublicEq s t → step s = .next s' → step t = .next t' →
    (∀ i, decode (BitVec.ofNat 64 (bytesValue s.imem (8 * s.pc.toNat) 8)) = .ok i → ¬ branchesOnMask i) →
    PublicEq s' t') ∧
  ∀ (i : Instr) (s t : State), PublicEq s t →
    writesOf i s = writesOf i t ∧ ∀ am base, s.effAddr am base = t.effAddr am base

/-! ## The host's side (10_state.md, 20_memory.md) -/

/-- R141, R901: a write of CTRL without SRST: IE takes bit 3; while RUNNING, ABORT latches and START does
nothing; while IDLE, START starts the run at ENTRY and ABORT does nothing. Nothing else changes. -/
def Obligations.ControlWrite : Prop :=
  ∀ (s : State) (v : BitVec 32) (rest : List HostAction), s.host = .write 0x004 .word v :: rest →
    v.getLsbD 2 = false →
    step s = .next (
      if s.run = .running then
        { s with host := rest, ie := v.getLsbD 3, abortLatch := s.abortLatch || v.getLsbD 1 }
      else if v.getLsbD 0 = true then
        { s with
          host := rest, ie := v.getLsbD 3, pc := s.entry, cause := 0, done := false, err := false
          abortLatch := false, run := .running }
      else { s with host := rest, ie := v.getLsbD 3 })

/-- R142, R143, R1020: STATUS clears DONE, ERR and HAC where the written bit is 1; ENTRY takes the low 16
bits while IDLE, and is refused with HAC while BUSY; reads return the fields at their bits, IRQ being
IE AND (DONE OR ERR). -/
def Obligations.StatusAndEntry : Prop :=
  ∀ (s : State) (v : BitVec 32) (rest : List HostAction),
    (s.host = .write 0x008 .word v :: rest → step s = .next { s with
      host := rest, done := s.done && !v.getLsbD 1, err := s.err && !v.getLsbD 2
      hac := s.hac && !v.getLsbD 3 }) ∧
    (s.host = .write 0x00C .word v :: rest → step s = .next (
      if s.run = .running then { s with host := rest, hac := true }
      else { s with host := rest, entry := BitVec.ofNat 16 v.toNat })) ∧
    (s.host = .read 0x008 .word :: rest → ∃ x, step s = .next { s with host := rest, hostRead := some x } ∧
      x.toNat = (if s.run = .running then 1 else 0) + (if s.done then 2 else 0) + (if s.err then 4 else 0) +
        (if s.hac then 8 else 0) + (if s.ie && (s.done || s.err) then 16 else 0)) ∧
    (s.host = .read 0x00C .word :: rest →
      step s = .next { s with host := rest, hostRead := some (BitVec.ofNat 32 s.entry.toNat) })

/-- R140, R144-R151, R1112: what a read of the other control registers returns, with nothing else changed;
PC, LC and AR are any 16-bit value while BUSY (a value the model leaves free, log entry 4); reserved
offsets read 0 and, like the read-only registers, ignore writes. -/
def Obligations.ControlReads : Prop :=
  ∀ (s : State) (rest : List HostAction),
    let reads := fun (offset : BitVec 14) (x : BitVec 32) =>
      s.host = .read offset .word :: rest → step s = .next { s with host := rest, hostRead := some x }
    reads 0x000 0xE4480100 ∧ reads 0x004 (if s.ie then 8 else 0) ∧
    reads 0x014 (BitVec.ofNat 32 s.cause.toNat) ∧ reads 0x018 (BitVec.ofNat 32 s.epc.toNat) ∧
    reads 0x01C s.einfo ∧ reads 0x028 0x04000200 ∧
    (∀ offset : BitVec 14, 0x02C ≤ offset.toNat → offset.toNat < 0x1000 → reads offset 0) ∧
    (∀ e ∈ [(0x010#14, s.pc), (0x020#14, s.lc), (0x024#14, s.ar)],
      (s.run = .idle → reads e.1 (BitVec.ofNat 32 e.2.toNat)) ∧
      (s.run = .running → s.host = .read e.1 .word :: rest → ∃ x : BitVec 16,
        step s = .next { s with
          host := rest, hostRead := some (x.setWidth 32), freeCount := s.freeCount + 1 })) ∧
    ∀ (offset : BitVec 14) (v : BitVec 32), offset.toNat < 0x1000 →
      offset ≠ 0x004 → offset ≠ 0x008 → offset ≠ 0x00C → s.host = .write offset .word v :: rest →
      step s = .next { s with host := rest }

/-- R231, R232: while IDLE, a write to the IMEM or DMEM window puts the four bytes of the word, least
significant first, at the offset's bytes and nowhere else, and a read returns the word they make. -/
def Obligations.WindowAccess : Prop :=
  ∀ (s : State) (v : BitVec 32) (k : Nat) (rest : List HostAction), s.Inv → s.run = .idle → k < 1024 →
    (s.host = .write (BitVec.ofNat 14 (0x1000 + 4 * k)) .word v :: rest → ∃ m : Memory,
      step s = .next { s with host := rest, imem := m } ∧ HoldsBytes m (4 * k) 4 v.toNat ∧
      ∀ a, ¬ (4 * k ≤ a ∧ a < 4 * k + 4) → m.read a = s.imem.read a) ∧
    (s.host = .write (BitVec.ofNat 14 (0x2000 + 4 * k)) .word v :: rest → ∃ m : Memory,
      step s = .next { s with host := rest, dmem := m } ∧ HoldsBytes m (4 * k) 4 v.toNat ∧
      ∀ a, ¬ (4 * k ≤ a ∧ a < 4 * k + 4) → m.read a = s.dmem.read a) ∧
    (s.host = .read (BitVec.ofNat 14 (0x1000 + 4 * k)) .word :: rest → step s = .next { s with
      host := rest, hostRead := some (BitVec.ofNat 32 (bytesValue s.imem (4 * k) 4)) }) ∧
    (s.host = .read (BitVec.ofNat 14 (0x2000 + 4 * k)) .word :: rest → step s = .next { s with
      host := rest, hostRead := some (BitVec.ofNat 32 (bytesValue s.dmem (4 * k) 4)) })

/-- R240, R230: while BUSY an aligned word access to the IMEM or DMEM window is refused: a write changes
nothing, a read returns 0, and either sets HAC. At any time an access of another width or at an unaligned
offset, or to the reserved part, is ignored if a write and returns 0 if a read. -/
def Obligations.RefusedAccesses : Prop :=
  ∀ (s : State) (offset : BitVec 14) (size : AccessSize) (v : BitVec 32) (rest : List HostAction),
    (s.run = .running → size = .word → offset.toNat % 4 = 0 → 0x1000 ≤ offset.toNat → offset.toNat < 0x3000 →
      (s.host = .write offset size v :: rest → step s = .next { s with host := rest, hac := true }) ∧
      (s.host = .read offset size :: rest →
        step s = .next { s with host := rest, hac := true, hostRead := some 0 })) ∧
    (size ≠ .word ∨ offset.toNat % 4 ≠ 0 ∨ 0x3000 ≤ offset.toNat →
      (s.host = .write offset size v :: rest → step s = .next { s with host := rest }) ∧
      (s.host = .read offset size :: rest → step s = .next { s with host := rest, hostRead := some 0 }))
end

