-- ==== Sys2Proof/Laws/Encoding.lean ====
section
/-! SUPPORT. Laws of the word's fields: packing and unpacking are inverse, a mask acts field by field,
and what the readers of Decode.lean make of the fields the encoder writes. -/

namespace Sys2Proof

/-! ## Fields -/

@[simp] theorem Fields.unpack_pack (f : Fields) : Fields.unpack f.pack = f := by
  obtain ⟨op, rd, ra, rb, rc, md, imm⟩ := f
  simp only [Fields.unpack, Fields.pack, Fields.mk.injEq]
  refine ⟨?_, ?_, ?_, ?_, ?_, ?_, ?_⟩ <;>
    · ext i hi
      simp only [BitVec.getElem_extractLsb', BitVec.getLsbD_append]
      grind

@[simp] theorem Fields.pack_unpack (w : CommandWord) : (Fields.unpack w).pack = w := by
  ext i hi
  simp only [Fields.unpack, Fields.pack, BitVec.getLsbD_append, BitVec.getLsbD_extractLsb',
    ← BitVec.getLsbD_eq_getElem]
  grind

/-- A mask acts on each field by itself. -/
theorem Fields.pack_and_pack (f g : Fields) :
    f.pack &&& g.pack =
      Fields.pack ⟨f.op &&& g.op, f.rd &&& g.rd, f.ra &&& g.ra, f.rb &&& g.rb, f.rc &&& g.rc, f.md &&& g.md,
        f.imm &&& g.imm⟩ := by
  ext i hi
  simp only [Fields.pack, ← BitVec.getLsbD_eq_getElem, BitVec.getLsbD_and, BitVec.getLsbD_append]
  grind

/-- A masked word has the given value when each field does. -/
theorem Fields.pack_and_eq {f : Fields} {mask v : CommandWord}
    (h : Fields.mk (f.op &&& (Fields.unpack mask).op) (f.rd &&& (Fields.unpack mask).rd)
        (f.ra &&& (Fields.unpack mask).ra) (f.rb &&& (Fields.unpack mask).rb) (f.rc &&& (Fields.unpack mask).rc)
        (f.md &&& (Fields.unpack mask).md) (f.imm &&& (Fields.unpack mask).imm) = Fields.unpack v) :
    f.pack &&& mask = v := by
  rw [← Fields.pack_unpack mask, Fields.pack_and_pack, h, Fields.pack_unpack]

theorem Fields.op_pack (f : Fields) : f.pack.extractLsb' 56 8 = f.op :=
  congrArg Fields.op (Fields.unpack_pack f)

/-! ## What the encoder writes, the decoder reads -/

@[simp] theorem regF_fieldF (r : FReg) : regF (fieldF r) = r := rfl

@[simp] theorem reg8_field8 (r : Fin 8) : reg8 (field8 r) = r := by revert r; decide

theorem readGroup_fieldG (g : FGroup) (k : FGroup → Instr) : readGroup (fieldG g) k = .command (k g) := by
  have h : (fieldG g).toNat = g.val := Nat.mod_eq_of_lt (by omega)
  simp [readGroup, h]

@[simp] theorem immOf16_low (u : BitVec 16) : (immOf16 u).extractLsb' 0 16 = u := by
  ext i hi
  simp only [BitVec.getElem_extractLsb', immOf16, BitVec.getLsbD_append]
  grind

@[simp] theorem immOfStrip_low (st : BitVec 8) (u : BitVec 16) : (immOfStrip st u).extractLsb' 0 16 = u := by
  ext i hi
  simp only [BitVec.getElem_extractLsb', immOfStrip, BitVec.getLsbD_append]
  grind

@[simp] theorem immOfStrip_strip (st : BitVec 8) (u : BitVec 16) : (immOfStrip st u).extractLsb' 16 8 = st := by
  ext i hi
  simp only [BitVec.getElem_extractLsb', immOfStrip, BitVec.getLsbD_append]
  grind

@[simp] theorem modOf_bd (bd am : Bool) : (modOf bd am)[0] = bd := by revert bd am; decide

@[simp] theorem modOf_am (bd am : Bool) : (modOf bd am)[1] = am := by revert bd am; decide

theorem readIndex_immOf16 {bound : Nat} (hb : bound ≤ 6) (i : Fin bound) (k : Fin bound → Instr) :
    readIndex bound (immOf16 (BitVec.ofNat 16 i.val)) k = .command (k i) := by
  have h : ((immOf16 (BitVec.ofNat 16 i.val)).extractLsb' 0 16).toNat = i.val := by
    rw [immOf16_low]
    exact Nat.mod_eq_of_lt (by omega)
  simp only [readIndex, h, Fin.is_lt, dite_true, Fin.eta]

/-! ## The reserved bits of the fields the encoder writes -/

@[simp] theorem field8_reserved (r : Fin 8) : field8 r &&& 8#4 = 0#4 := by revert r; decide

@[simp] theorem immOf16_reserved (u : BitVec 16) : immOf16 u &&& 0xFFFF0000#32 = 0#32 := by
  rw [show (0xFFFF0000#32) = 0xFFFF#16 ++ 0#16 from by decide]
  ext i hi
  simp only [immOf16, ← BitVec.getLsbD_eq_getElem, BitVec.getLsbD_and, BitVec.getLsbD_append]
  grind

@[simp] theorem immOfStrip_reserved (st : BitVec 8) (u : BitVec 16) : immOfStrip st u &&& 0xFF000000#32 = 0#32 := by
  rw [show (0xFF000000#32) = 0xFF#8 ++ (0#8 ++ 0#16) from by decide]
  ext i hi
  simp only [immOfStrip, ← BitVec.getLsbD_eq_getElem, BitVec.getLsbD_and, BitVec.getLsbD_append]
  grind

@[simp] theorem modOf_reserved_am (am : Bool) : modOf false am &&& 0xFD#8 = 0#8 := by revert am; decide

@[simp] theorem modOf_reserved_bd (bd : Bool) : modOf bd false &&& 0xFE#8 = 0#8 := by revert bd; decide

end Sys2Proof
end

