-- ==== Sys2Proof/Laws/Exec.lean ====
section
/-! SUPPORT. One lemma per command: `exec` calls that command's meaning. No proof unfolds the dispatch. -/

namespace Sys2Proof.Machine

variable (s : State)

@[simp] theorem exec_nop :
    exec .nop s = execNop s := rfl

@[simp] theorem exec_halt :
    exec .halt s = execHalt s := rfl

@[simp] theorem exec_jmp (off : BitVec 16) :
    exec (.jmp off) s = execJmp off s := rfl

@[simp] theorem exec_bmt (c : MReg) (off : BitVec 16) :
    exec (.bmt c off) s = execBmt c off s := rfl

@[simp] theorem exec_bmf (c : MReg) (off : BitVec 16) :
    exec (.bmf c off) s = execBmf c off s := rfl

@[simp] theorem exec_setlc (u : BitVec 16) :
    exec (.setlc u) s = execSetlc u s := rfl

@[simp] theorem exec_djnz (off : BitVec 16) :
    exec (.djnz off) s = execDjnz off s := rfl

@[simp] theorem exec_seta (u : BitVec 16) :
    exec (.seta u) s = execSeta u s := rfl

@[simp] theorem exec_adda (v : BitVec 16) :
    exec (.adda v) s = execAdda v s := rfl

@[simp] theorem exec_fadd (d a b : FReg) :
    exec (.fadd d a b) s = execFadd d a b s := rfl

@[simp] theorem exec_fsub (d a b : FReg) :
    exec (.fsub d a b) s = execFsub d a b s := rfl

@[simp] theorem exec_fneg (d a : FReg) :
    exec (.fneg d a) s = execFneg d a s := rfl

@[simp] theorem exec_fmul (d a b : FReg) :
    exec (.fmul d a b) s = execFmul d a b s := rfl

@[simp] theorem exec_fsqr (d a : FReg) :
    exec (.fsqr d a) s = execFsqr d a s := rfl

@[simp] theorem exec_fmulc (d a : FReg) (c : BitVec 32) :
    exec (.fmulc d a c) s = execFmulc d a c s := rfl

@[simp] theorem exec_fwred (d a : FReg) :
    exec (.fwred d a) s = execFwred d a s := rfl

@[simp] theorem exec_fsred (d a : FReg) :
    exec (.fsred d a) s = execFsred d a s := rfl

@[simp] theorem exec_fmov (d a : FReg) :
    exec (.fmov d a) s = execFmov d a s := rfl

@[simp] theorem exec_fconst (d : FReg) (i : Fin 6) :
    exec (.fconst d i) s = execFconst d i s := rfl

@[simp] theorem exec_finv (d a : FReg) :
    exec (.finv d a) s = execFinv d a s := rfl

@[simp] theorem exec_fisr (d a : FReg) (c : MReg) :
    exec (.fisr d a c) s = execFisr d a c s := rfl

@[simp] theorem exec_feq (d : MReg) (a b : FReg) :
    exec (.feq d a b) s = execFeq d a b s := rfl

@[simp] theorem exec_fsel (d a b : FReg) (c : MReg) :
    exec (.fsel d a b c) s = execFsel d a b c s := rfl

@[simp] theorem exec_fcswap (a b : FReg) (c : MReg) :
    exec (.fcswap a b c) s = execFcswap a b c s := rfl

@[simp] theorem exec_fcneg (d a : FReg) (c : MReg) :
    exec (.fcneg d a c) s = execFcneg d a c s := rfl

@[simp] theorem exec_mset (d : MReg) (i : Fin 2) :
    exec (.mset d i) s = execMset d i s := rfl

@[simp] theorem exec_mand (d a b : MReg) :
    exec (.mand d a b) s = execMand d a b s := rfl

@[simp] theorem exec_mor (d a b : MReg) :
    exec (.mor d a b) s = execMor d a b s := rfl

@[simp] theorem exec_mxor (d a b : MReg) :
    exec (.mxor d a b) s = execMxor d a b s := rfl

@[simp] theorem exec_mnot (d a : MReg) :
    exec (.mnot d a) s = execMnot d a s := rfl

@[simp] theorem exec_mld (d : MReg) (am : Bool) (base : BitVec 16) :
    exec (.mld d am base) s = execMld d am base s := rfl

@[simp] theorem exec_mst (a : MReg) (am : Bool) (base : BitVec 16) :
    exec (.mst a am base) s = execMst a am base s := rfl

@[simp] theorem exec_fld (d : FReg) (c : MReg) (am : Bool) (base : BitVec 16) :
    exec (.fld d c am base) s = execFld d c am base s := rfl

@[simp] theorem exec_fldm (d : FReg) (c : MReg) (am : Bool) (strip : BitVec 8) (base : BitVec 16) :
    exec (.fldm d c am strip base) s = execFldm d c am strip base s := rfl

@[simp] theorem exec_fst (a : FReg) (am : Bool) (base : BitVec 16) :
    exec (.fst a am base) s = execFst a am base s := rfl

@[simp] theorem exec_sadd (d a b : SReg) :
    exec (.sadd d a b) s = execSadd d a b s := rfl

@[simp] theorem exec_ssub (d a b : SReg) :
    exec (.ssub d a b) s = execSsub d a b s := rfl

@[simp] theorem exec_smont (d a b : SReg) :
    exec (.smont d a b) s = execSmont d a b s := rfl

@[simp] theorem exec_smul (d a b : SReg) :
    exec (.smul d a b) s = execSmul d a b s := rfl

@[simp] theorem exec_shalve (d a : SReg) :
    exec (.shalve d a) s = execShalve d a s := rfl

@[simp] theorem exec_smov (d a : SReg) :
    exec (.smov d a) s = execSmov d a s := rfl

@[simp] theorem exec_sconst (d : SReg) (i : Fin 4) :
    exec (.sconst d i) s = execSconst d i s := rfl

@[simp] theorem exec_sld (d : SReg) (c : MReg) (am : Bool) (base : BitVec 16) :
    exec (.sld d c am base) s = execSld d c am base s := rfl

@[simp] theorem exec_sst (a : SReg) (am : Bool) (base : BitVec 16) :
    exec (.sst a am base) s = execSst a am base s := rfl

@[simp] theorem exec_pdbl (d a : PReg) (bd : Bool) :
    exec (.pdbl d a bd) s = execPdbl d a bd s := rfl

@[simp] theorem exec_paddn (d a : PReg) (b : NReg) (bd : Bool) :
    exec (.paddn d a b bd) s = execPaddn d a b bd s := rfl

@[simp] theorem exec_psubn (d a : PReg) (b : NReg) (bd : Bool) :
    exec (.psubn d a b bd) s = execPsubn d a b bd s := rfl

@[simp] theorem exec_paddpn (d a : PReg) (b : NReg) (bd : Bool) :
    exec (.paddpn d a b bd) s = execPaddpn d a b bd s := rfl

@[simp] theorem exec_psubpn (d a : PReg) (b : NReg) (bd : Bool) :
    exec (.psubpn d a b bd) s = execPsubpn d a b bd s := rfl

@[simp] theorem exec_padd (d a b : PReg) (bd : Bool) :
    exec (.padd d a b bd) s = execPadd d a b bd s := rfl

@[simp] theorem exec_pton (d : NReg) (a : PReg) :
    exec (.pton d a) s = execPton d a s := rfl

@[simp] theorem exec_ncneg (d a : NReg) (c : MReg) :
    exec (.ncneg d a c) s = execNcneg d a c s := rfl

@[simp] theorem exec_pid (d : PReg) :
    exec (.pid d) s = execPid d s := rfl

@[simp] theorem exec_peq (d : MReg) (a b : PReg) :
    exec (.peq d a b) s = execPeq d a b s := rfl

@[simp] theorem exec_pvalid (d : MReg) (a : PReg) :
    exec (.pvalid d a) s = execPvalid d a s := rfl

@[simp] theorem exec_pfx (d : PReg) (g : FGroup) :
    exec (.pfx d g) s = execPfx d g s := rfl

@[simp] theorem exec_pxf (g : FGroup) (a : PReg) :
    exec (.pxf g a) s = execPxf g a s := rfl

@[simp] theorem exec_nfx (d : NReg) (g : FGroup) :
    exec (.nfx d g) s = execNfx d g s := rfl

@[simp] theorem exec_nxf (g : FGroup) (a : NReg) :
    exec (.nxf g a) s = execNxf g a s := rfl

@[simp] theorem exec_pmov (d a : PReg) :
    exec (.pmov d a) s = execPmov d a s := rfl

@[simp] theorem exec_psmul (d a : PReg) (b : SReg) :
    exec (.psmul d a b) s = execPsmul d a b s := rfl

@[simp] theorem exec_pbmul (d : PReg) (a : SReg) :
    exec (.pbmul d a) s = execPbmul d a s := rfl

@[simp] theorem exec_pdsmul (d : PReg) (a : SReg) (b : PReg) (c : SReg) :
    exec (.pdsmul d a b c) s = execPdsmul d a b c s := rfl

end Sys2Proof.Machine
end

