-- ==== Sys2Proof/Laws/Prime.lean ====
section
/-! SUPPORT. The field modulus is prime (00_scope.md R11): a Lucas test in the Gaussian integers modulo p.
An element of order 2^225 modulo a prime factor q forces q to be at least 2^224 - 1, too large for the
least factor of a composite p. -/

namespace Sys2Proof.Gauss

/-- Continue with a number the kernel has evaluated to a numeral. -/
def force (n : Nat) (k : Nat → Nat × Nat) : Nat × Nat :=
  match n with
  | 0 => k 0
  | m + 1 => k (m + 1)

theorem force_eq (n : Nat) (k : Nat → Nat × Nat) : force n k = k n := by cases n <;> rfl

/-- (a.1 + a.2·i) · (b.1 + b.2·i) modulo p, as residues. -/
def mulMod (a b : Nat × Nat) : Nat × Nat :=
  force ((a.1 * b.1 + (fieldP - 1) * (a.2 * b.2)) % fieldP) fun u =>
    force ((a.1 * b.2 + a.2 * b.1) % fieldP) fun v => (u, v)

/-- z^e for e < 2^fuel. -/
def powMod (z : Nat × Nat) : Nat → Nat → Nat × Nat
  | 0, _ => (1, 0)
  | fuel + 1, e =>
    match powMod z fuel (e / 2) with
    | (x, y) => force x fun x => force y fun y => match mulMod (x, y) (x, y) with
      | (u, v) => force u fun u => force v fun v => if e % 2 = 1 then mulMod (u, v) z else (u, v)

/-- The value of x + y·i in a ring with an element i. -/
def value {K : Type} [CommRing K] (i : K) (a : Nat × Nat) : K := a.1 + a.2 * i

section
variable {K : Type} [CommRing K] {i : K}

theorem cast_mod (h : (fieldP : K) = 0) (n : Nat) : ((n % fieldP : Nat) : K) = n := by
  conv_rhs => rw [← Nat.div_add_mod n fieldP]
  rw [Nat.cast_add, Nat.cast_mul, h, zero_mul, zero_add]

theorem value_mulMod (h : (fieldP : K) = 0) (hi : i ^ 2 = -1) (a b : Nat × Nat) :
    value i (mulMod a b) = value i a * value i b := by
  have hm : ((fieldP - 1 : Nat) : K) = -1 := by rw [Nat.cast_sub fieldP_pos, h]; simp
  simp only [mulMod, force_eq, value, cast_mod h, Nat.cast_add, Nat.cast_mul, hm]
  linear_combination (a.2 * b.2 : K) * -hi

theorem value_powMod (h : (fieldP : K) = 0) (hi : i ^ 2 = -1) (z : Nat × Nat) {fuel e : Nat}
    (he : e < 2 ^ fuel) : value i (powMod z fuel e) = value i z ^ e := by
  induction fuel generalizing e with
  | zero => obtain rfl : e = 0 := by omega
            simp [powMod, value]
  | succ fuel ih =>
    have hh := ih (e := e / 2) (by omega)
    have hd := Nat.div_add_mod e 2
    simp only [powMod, force_eq]
    split
    · rw [value_mulMod h hi, value_mulMod h hi, hh]
      conv_rhs => rw [← hd, ‹e % 2 = 1›, pow_succ, pow_mul, pow_two, mul_pow]
    · conv_rhs => rw [← hd, show e % 2 = 0 by omega, add_zero, pow_mul, pow_two, mul_pow]
      rw [value_mulMod h hi, hh]

end

/-- (2 + 3i)^((p² - 1) / 2^225). -/
def root : Nat × Nat :=
  powMod (powMod (2, 3) 224 0xffffffffffffffffffffffffffffffffffffffffffffffffffffffff) 447
    ((fieldP - 1) / 2)

theorem root_pow : powMod root 225 (2 ^ 224) = (fieldP - 1, 0) := by decide +kernel

end Sys2Proof.Gauss

namespace Sys2Proof

open Gauss in
theorem fieldP_prime : Nat.Prime fieldP := by
  by_contra hN
  obtain ⟨q, hq⟩ : ∃ q, q = fieldP.minFac := ⟨_, rfl⟩
  have hqp : q.Prime := hq ▸ Nat.minFac_prime (by decide)
  have hqN : q ∣ fieldP := hq ▸ Nat.minFac_dvd _
  have hq2 : q ^ 2 ≤ fieldP := hq ▸ Nat.minFac_sq_le_self fieldP_pos hN
  have hodd : q % 2 = 1 := by
    rcases hqp.eq_two_or_odd with h | h
    · rw [h] at hqN; exact absurd hqN (by decide)
    · exact h
  have : Fact q.Prime := ⟨hqp⟩
  let K := AlgebraicClosure (ZMod q)
  have : CharP K q := inferInstance
  have hNK : (fieldP : K) = 0 := (CharP.cast_eq_zero_iff K q fieldP).mpr hqN
  obtain ⟨i, hi⟩ := IsAlgClosed.exists_pow_nat_eq (-1 : K) (n := 2) (by decide)
  obtain ⟨t, ht⟩ : ∃ t, q = 2 * t + 1 := ⟨q / 2, by omega⟩
  -- Frobenius fixes x + y·i, so it has order dividing q² - 1
  have hfix : ∀ z : Nat × Nat, value i z ^ q ^ 2 = value i z := by
    intro z
    have hi' : iterateFrobenius K q 2 i = i := by
      rw [iterateFrobenius_def, show q ^ 2 = 2 * (2 * (t * (t + 1))) + 1 by subst ht; ring, pow_succ, pow_mul,
        hi, pow_mul, neg_one_sq, one_pow, one_mul]
    rw [← iterateFrobenius_def, value, map_add, map_mul, map_natCast, map_natCast, hi']
  have h1 : value i root ^ 2 ^ 224 = -1 := by
    rw [← value_powMod hNK hi (fuel := 225) root (by norm_num), root_pow, value, Nat.cast_sub fieldP_pos, hNK]
    simp
  have h2 : (-1 : K) ≠ 1 := by
    intro h
    have : ((2 : Nat) : K) = 0 := by push_cast; linear_combination -h
    have := (CharP.cast_eq_zero_iff K q 2).mp this
    have := (Nat.prime_dvd_prime_iff_eq hqp Nat.prime_two).mp this
    omega
  have hord : orderOf (value i root) = 2 ^ 225 :=
    orderOf_eq_prime_pow (by rw [h1]; exact h2) (by rw [pow_succ 2 224, pow_mul, h1, neg_one_sq])
  have hne : value i root ≠ 0 := by
    intro h; rw [h, zero_pow (by positivity)] at h1
    exact one_ne_zero (neg_eq_zero.mp h1.symm)
  have hdvd : 2 ^ 225 ∣ q ^ 2 - 1 := by
    rw [← hord]
    apply orderOf_dvd_of_pow_eq_one
    have := hfix root
    rw [show q ^ 2 = (q ^ 2 - 1) + 1 from (Nat.sub_add_cancel (Nat.one_le_pow _ _ hqp.pos)).symm, pow_succ] at this
    exact mul_right_cancel₀ hne (by rw [this, one_mul])
  have hdvd' : 2 ^ 223 ∣ t * (t + 1) := by
    have : q ^ 2 - 1 = 4 * (t * (t + 1)) := by subst ht; rw [Nat.sub_eq_iff_eq_add (Nat.one_le_pow _ _ (by omega))]; ring
    rw [this, show (2 : Nat) ^ 225 = 4 * 2 ^ 223 by norm_num] at hdvd
    exact Nat.dvd_of_mul_dvd_mul_left (by norm_num) hdvd
  have hlow : 2 ^ 223 ≤ t + 1 := by
    rcases ((Nat.coprime_self_add_right.mpr (Nat.coprime_one_right t)).isPrimePow_dvd_mul
      (Nat.prime_two.isPrimePow.pow (by norm_num))).mp hdvd' with h | h
    · have := Nat.le_of_dvd (by have := hqp.two_le; omega) h; omega
    · exact Nat.le_of_dvd (by omega) h
  have hhigh : q < 2 ^ 224 := by
    by_contra h
    have := Nat.pow_le_pow_left (not_lt.mp h) 2
    exact absurd (this.trans hq2) (by norm_num [fieldP])
  have hqv : q = 2 ^ 224 - 1 := by
    have : (2 : Nat) ^ 224 = 2 * 2 ^ 223 := by norm_num
    omega
  rw [hqv] at hqN
  exact absurd hqN (by norm_num [fieldP])

end Sys2Proof
end

