-- ==== Sys2Proof/Laws/Field.lean ====
section
/-! SUPPORT. Field and scalar values as residues: what `+`, `-`, `*`, negation, powers and narrowing do in
ZMod p and in the integers, and the laws of the scalar operations. -/

namespace Sys2Proof

/-! ## Field values in ZMod p -/

/-- A field value in ZMod p. -/
def Fe.toZ (x : Fe) : ZMod fieldP := (x.val : ZMod fieldP)

/-- A field value is the residue of an integer exactly when it is that integer in ZMod p. -/
theorem Fe.val_eq_emod_iff (x : Fe) (z : Int) : (x.val : Int) = z % fieldP ↔ x.toZ = (z : ZMod fieldP) := by
  have hx : (x.val : Int) % fieldP = x.val :=
    Int.emod_eq_of_lt (Int.natCast_nonneg _) (Int.ofNat_lt.mpr x.isLt)
  rw [Fe.toZ, show ((x.val : Nat) : ZMod fieldP) = ((x.val : Int) : ZMod fieldP) by simp,
    ZMod.intCast_eq_intCast_iff, Int.ModEq, hx]

theorem Fe.val_eq_mod_iff (x : Fe) (n : Nat) : x.val = n % fieldP ↔ x.toZ = (n : ZMod fieldP) := by
  rw [show (n : ZMod fieldP) = ((n : Int) : ZMod fieldP) by simp, ← Fe.val_eq_emod_iff]; norm_cast

theorem Fe.toZ_inj {x y : Fe} : x.toZ = y.toZ ↔ x = y := by
  rw [show y.toZ = ((y.val : Nat) : ZMod fieldP) from rfl, ← Fe.val_eq_mod_iff, Nat.mod_eq_of_lt y.isLt, Fin.ext_iff]

@[simp] theorem Fe.toZ_ofNat (n : Nat) : (Fe.ofNat n).toZ = n := (Fe.val_eq_mod_iff _ _).mp rfl

@[simp] theorem Fe.toZ_ofInt (z : Int) : (Fe.ofInt z).toZ = z := by
  have h : 0 ≤ z % (fieldP : Int) := Int.emod_nonneg _ (by have := fieldP_pos; omega)
  rw [Fe.ofInt, Fe.toZ_ofNat, ← Int.cast_natCast, Int.toNat_of_nonneg h, ZMod.intCast_eq_intCast_iff]
  exact Int.mod_modEq _ _

@[simp] theorem Fe.toZ_zero : Fe.zero.toZ = 0 := by simp [Fe.zero]

@[simp] theorem Fe.toZ_one : Fe.one.toZ = 1 := by simp [Fe.one]

@[simp] theorem Fe.toZ_two : Fe.two.toZ = 2 := by simp [Fe.two]

@[simp] theorem Fe.toZ_add (x y : Fe) : (x + y).toZ = x.toZ + y.toZ := by
  rw [(Fe.val_eq_mod_iff (x + y) (x.val + y.val)).mp (Fin.val_add x y)]
  simp [Fe.toZ]

@[simp] theorem Fe.toZ_mul (x y : Fe) : (x * y).toZ = x.toZ * y.toZ := by
  rw [(Fe.val_eq_mod_iff (x * y) (x.val * y.val)).mp (Fin.val_mul x y)]
  simp [Fe.toZ]

@[simp] theorem Fe.toZ_sub (x y : Fe) : (x - y).toZ = x.toZ - y.toZ := by
  rw [(Fe.val_eq_mod_iff (x - y) (fieldP - y.val + x.val)).mp (Fin.val_sub x y), Nat.cast_add,
    Nat.cast_sub y.isLt.le]
  simp only [CharP.cast_eq_zero, Fe.toZ]; ring

@[simp] theorem toZ_fieldNeg (x : Fe) : (Machine.fieldNeg x).toZ = -x.toZ := by simp [Machine.fieldNeg]

/-- Integer casts of a field value. -/
@[simp] theorem Fe.intCast_val (x : Fe) : ((x.val : Int) : ZMod fieldP) = x.toZ := by simp [Fe.toZ]

@[simp] theorem Fe.natCast_val (x : Fe) : ((x.val : Nat) : ZMod fieldP) = x.toZ := rfl

namespace Machine

theorem toZ_fieldPowBits (x : Fe) {fuel e : Nat} (h : e < 2 ^ fuel) : (fieldPowBits x fuel e).toZ = x.toZ ^ e := by
  induction fuel generalizing e with
  | zero => obtain rfl : e = 0 := by omega
            simp [fieldPowBits]
  | succ fuel ih =>
    have hd := Nat.div_add_mod e 2
    have hh := ih (e := e / 2) (by omega)
    simp only [fieldPowBits]
    split
    · rw [Fe.toZ_mul, Fe.toZ_mul, hh]
      conv_rhs => rw [← hd, ‹e % 2 = 1›, pow_succ, pow_mul, pow_two, mul_pow]
    · rw [Fe.toZ_mul, hh]
      conv_rhs => rw [← hd, show e % 2 = 0 by omega, add_zero, pow_mul, pow_two, mul_pow]

/-- `fieldPow` is the power for every exponent of at most 448 bits. -/
theorem toZ_fieldPow (x : Fe) {e : Nat} (h : e ≤ fieldP) : (fieldPow x e).toZ = x.toZ ^ e :=
  toZ_fieldPowBits x (h.trans_lt (by decide +kernel))

theorem toZ_fieldInv (x : Fe) : (fieldInv x).toZ = x.toZ ^ (fieldP - 2) := toZ_fieldPow x (Nat.sub_le _ _)

theorem toZ_fieldIsr (x : Fe) : (fieldIsr x).toZ = x.toZ ^ ((fieldP - 3) / 4) :=
  toZ_fieldPow x ((Nat.div_le_self _ _).trans (Nat.sub_le _ _))

end Machine

/-! ## Scalar values -/

theorem Sc.val_sub (x y : Sc) : ((x - y).val : Int) = ((x.val : Int) - y.val) % orderL := by
  rw [Fin.val_sub, Int.natCast_mod, Nat.cast_add, Nat.cast_sub y.isLt.le,
    show ((orderL : Int) - y.val + x.val) = (x.val - y.val) + orderL by ring, Int.add_emod_right]

namespace Machine

theorem montRInv_spec : montRInv * 2 ^ 448 % orderL = 1 := by decide +kernel

theorem montR2_spec : montR2.val = 2 ^ 448 % orderL * (2 ^ 448 % orderL) % orderL := by decide +kernel

theorem scalarAdj_spec : scalarAdj.val = (2 ^ 450 - 1) % orderL := by decide +kernel

theorem scalarMont_val (x y : Sc) : (scalarMont x y).val = x.val * y.val * montRInv % orderL := rfl

/-- R is a unit modulo L. -/
theorem mul_radix_cancel {a b : Nat} (h : a * 2 ^ 448 ≡ b * 2 ^ 448 [MOD orderL]) : a ≡ b [MOD orderL] := by
  have h1 : ∀ n, n * 2 ^ 448 * montRInv ≡ n [MOD orderL] := fun n => by
    rw [mul_assoc, mul_comm (2 ^ 448)]
    exact (Nat.ModEq.mul_left n (show montRInv * 2 ^ 448 ≡ 1 [MOD orderL] from montRInv_spec)).trans (by rw [mul_one])
  exact (h1 a).symm.trans ((h.mul_right montRInv).trans (h1 b))

/-- The Montgomery product times the radix is the product (44_scalar.md R603). -/
theorem scalarMont_radix (x y : Sc) : (scalarMont x y).val * 2 ^ 448 ≡ x.val * y.val [MOD orderL] := by
  rw [scalarMont_val]
  refine ((Nat.mod_modEq _ _).mul_right _).trans ?_
  rw [mul_assoc]
  exact (Nat.ModEq.mul_left _ (show montRInv * 2 ^ 448 ≡ 1 [MOD orderL] from montRInv_spec)).trans (by rw [mul_one])

theorem scalarHalve_val (x : Sc) :
    (scalarHalve x).val = (x.val + if x.val % 2 = 1 then orderL else 0) / 2 := rfl

/-- Twice the half is the scalar, or the scalar plus L. -/
theorem scalarHalve_double (x : Sc) :
    2 * (scalarHalve x).val = x.val + if x.val % 2 = 1 then orderL else 0 := by
  have : orderL % 2 = 1 := by decide
  rw [scalarHalve_val]
  split <;> omega

end Machine

end Sys2Proof
end

