-- ==== Sys2Proof/Laws/Memory.lean ====
section
/-! SUPPORT. Laws of the memory operations: a write leaves every other byte alone and keeps the
canonical form; a read after a write gives the value written; MemRead after MemWrite. -/

namespace Sys2Proof.Machine

/-! ## One byte -/

theorem Memory.read_write_ne (mem : Memory) {a c : Nat} (b : Byte) (h : c ≠ a) :
    (mem.write a b).read c = mem.read c := by
  induction mem with
  | nil => unfold Memory.write; split <;> simp [Memory.read, h.symm]
  | cons e rest ih =>
    obtain ⟨k, x⟩ := e
    unfold Memory.write
    split
    · split <;> simp [Memory.read, h.symm]
    · split
      · next h2 => subst h2; split <;> simp [Memory.read, h.symm]
      · simp [Memory.read, ih]

theorem Memory.wfAbove_mono {lo lo' : Nat} (h : lo' ≤ lo) {mem : Memory} (hw : Memory.wfAbove lo mem = true) :
    Memory.wfAbove lo' mem = true := by
  cases mem with
  | nil => rfl
  | cons e rest =>
    simp only [Memory.wfAbove, Bool.and_eq_true, decide_eq_true_eq] at hw ⊢
    exact ⟨⟨h.trans hw.1.1, hw.1.2⟩, hw.2⟩

/-- Below every listed address a canonical memory reads as `unlistedByte`. -/
theorem Memory.read_of_wfAbove {lo a : Nat} {mem : Memory} (hw : Memory.wfAbove lo mem = true) (h : a < lo) :
    mem.read a = unlistedByte := by
  induction mem generalizing lo with
  | nil => rfl
  | cons e rest ih =>
    simp only [Memory.wfAbove, Bool.and_eq_true, decide_eq_true_eq] at hw
    have hne : e.1 ≠ a := by omega
    simp only [Memory.read, hne, if_false]
    exact ih hw.2 (by omega)

theorem Memory.wfAbove_write {lo a : Nat} {mem : Memory} (b : Byte) (hw : Memory.wfAbove lo mem = true)
    (h : lo ≤ a) : Memory.wfAbove lo (mem.write a b) = true := by
  induction mem generalizing lo with
  | nil => unfold Memory.write; split <;> simp_all [Memory.wfAbove]
  | cons e rest ih =>
    obtain ⟨k, x⟩ := e
    have hw' := hw
    simp only [Memory.wfAbove, Bool.and_eq_true, decide_eq_true_eq] at hw
    unfold Memory.write
    split
    · split
      · exact hw'
      · simp only [Memory.wfAbove, Bool.and_eq_true, decide_eq_true_eq, bne_iff_ne, ne_eq]
        refine ⟨⟨h, by assumption⟩, ⟨by omega, by simpa using hw.1.2⟩, hw.2⟩
    · split
      · split
        · exact Memory.wfAbove_mono (by omega) hw.2
        · simp only [Memory.wfAbove, Bool.and_eq_true, decide_eq_true_eq, bne_iff_ne, ne_eq]
          exact ⟨⟨h, by assumption⟩, by simpa [‹a = k›] using hw.2⟩
      · simp only [Memory.wfAbove, Bool.and_eq_true, decide_eq_true_eq]
        exact ⟨hw.1, ih hw.2 (by omega)⟩

/-- A write keeps the canonical form. -/
theorem Memory.wf_write {mem : Memory} (a : Nat) (b : Byte) (hw : mem.wf = true) : (mem.write a b).wf = true :=
  Memory.wfAbove_write b hw (Nat.zero_le a)

theorem Memory.read_write_same_above {lo a : Nat} {mem : Memory} (b : Byte) (hw : Memory.wfAbove lo mem = true) :
    (mem.write a b).read a = b := by
  induction mem generalizing lo with
  | nil => unfold Memory.write; split <;> simp_all [Memory.read]
  | cons e rest ih =>
    obtain ⟨k, x⟩ := e
    simp only [Memory.wfAbove, Bool.and_eq_true, decide_eq_true_eq] at hw
    unfold Memory.write
    split
    · split
      · have hk : k ≠ a := by omega
        simp only [Memory.read, hk, if_false]
        rw [Memory.read_of_wfAbove hw.2 (by omega)]
        exact (by assumption : b = unlistedByte).symm
      · simp [Memory.read]
    · split
      · split
        · rw [Memory.read_of_wfAbove hw.2 (by omega)]
          exact (by assumption : b = unlistedByte).symm
        · simp [Memory.read]
      · have hk : k ≠ a := fun e => by omega
        simp only [Memory.read, hk, if_false]
        exact ih hw.2

/-- A byte just written reads back. -/
theorem Memory.read_write_same {mem : Memory} (a : Nat) (b : Byte) (hw : mem.wf = true) :
    (mem.write a b).read a = b :=
  Memory.read_write_same_above b hw

theorem Memory.within_write {size a : Nat} {mem : Memory} (b : Byte) (hw : mem.within size = true)
    (h : a < size) : (mem.write a b).within size = true := by
  induction mem with
  | nil => unfold Memory.write; split <;> simp [Memory.within, h]
  | cons e rest ih =>
    obtain ⟨k, x⟩ := e
    simp only [Memory.within, List.all_cons, Bool.and_eq_true, decide_eq_true_eq] at hw ih ⊢
    unfold Memory.write
    split
    · split <;> simp only [List.all_cons, Bool.and_eq_true, decide_eq_true_eq]
      · exact hw
      · exact ⟨h, hw⟩
    · split
      · split
        · exact hw.2
        · simp only [List.all_cons, Bool.and_eq_true, decide_eq_true_eq]
          exact ⟨h, hw.2⟩
      · simp only [List.all_cons, Bool.and_eq_true, decide_eq_true_eq]
        exact ⟨hw.1, ih hw.2⟩

/-- Equal bytes make equal memories: the form is canonical. -/
theorem Memory.ext_above {lo : Nat} {x y : Memory} (hx : Memory.wfAbove lo x = true)
    (hy : Memory.wfAbove lo y = true) (h : ∀ a, x.read a = y.read a) : x = y := by
  induction x generalizing lo y with
  | nil =>
    cases y with
    | nil => rfl
    | cons e rest =>
      simp only [Memory.wfAbove, Bool.and_eq_true, bne_iff_ne, ne_eq] at hy
      exact absurd (by simpa [Memory.read] using (h e.1).symm) hy.1.2
  | cons e xs ih =>
    simp only [Memory.wfAbove, Bool.and_eq_true, decide_eq_true_eq, bne_iff_ne, ne_eq] at hx
    cases y with
    | nil => exact absurd (by simpa [Memory.read] using h e.1) hx.1.2
    | cons g ys =>
      simp only [Memory.wfAbove, Bool.and_eq_true, decide_eq_true_eq, bne_iff_ne, ne_eq] at hy
      have hkey : e.1 = g.1 := by
        rcases Nat.lt_trichotomy e.1 g.1 with hlt | heq | hgt
        · have := h e.1
          have hg : g.1 ≠ e.1 := by omega
          simp only [Memory.read, hg, if_true, if_false] at this
          exact absurd (this.trans (Memory.read_of_wfAbove hy.2 (by omega))) hx.1.2
        · exact heq
        · have := h g.1
          have he : e.1 ≠ g.1 := by omega
          simp only [Memory.read, he, if_true, if_false] at this
          exact absurd (this.symm.trans (Memory.read_of_wfAbove hx.2 (by omega))) hy.1.2
      have hval : e.2 = g.2 := by
        have := h e.1
        simpa [Memory.read, hkey] using this
      have heg : e = g := Prod.ext hkey hval
      subst heg
      congr 1
      refine ih hx.2 hy.2 fun a => ?_
      by_cases ha : a ≤ e.1
      · rw [Memory.read_of_wfAbove hx.2 (by omega), Memory.read_of_wfAbove hy.2 (by omega)]
      · have := h a
        have hne : e.1 ≠ a := by omega
        simpa [Memory.read, hne] using this

/-! ## MemRead and MemWrite -/

/-- A wide write leaves every byte outside its range alone. -/
theorem Memory.read_writeLE_outside (mem : Memory) {a n c : Nat} (v : Nat) (h : ¬ (a ≤ c ∧ c < a + n)) :
    (mem.writeLE a n v).read c = mem.read c := by
  induction n generalizing mem a v with
  | zero => rfl
  | succ n ih =>
    rw [Memory.writeLE, ih _ _ (by omega), Memory.read_write_ne _ _ (by omega)]

theorem Memory.wf_writeLE {mem : Memory} (a n v : Nat) (hw : mem.wf = true) : (mem.writeLE a n v).wf = true := by
  induction n generalizing mem a v with
  | zero => exact hw
  | succ n ih => exact ih _ _ (Memory.wf_write _ _ hw)

theorem Memory.within_writeLE {size a n : Nat} {mem : Memory} (v : Nat) (hw : mem.within size = true)
    (h : a + n ≤ size) : (mem.writeLE a n v).within size = true := by
  induction n generalizing mem a v with
  | zero => exact hw
  | succ n ih => exact ih _ (Memory.within_write _ hw (by omega)) (by omega)

/-- Byte k of the value written lies at a + k (20_memory.md R205). -/
theorem Memory.read_writeLE {mem : Memory} {a n k : Nat} (v : Nat) (hw : mem.wf = true) (h : k < n) :
    (mem.writeLE a n v).read (a + k) = BitVec.ofNat 8 (v / 256 ^ k) := by
  induction n generalizing mem a v k with
  | zero => omega
  | succ n ih =>
    cases k with
    | zero =>
      rw [Memory.writeLE, Memory.read_writeLE_outside _ _ (by omega), Nat.add_zero,
        Memory.read_write_same _ _ hw, Nat.pow_zero, Nat.div_one]
    | succ k =>
      have := ih (a := a + 1) (k := k) (v / 256) (Memory.wf_write a (BitVec.ofNat 8 v) hw) (by omega)
      rw [Memory.writeLE, show a + (k + 1) = a + 1 + k by omega, this, Nat.div_div_eq_div_mul, Nat.pow_succ,
        Nat.mul_comm]

theorem Memory.readLE_congr {x y : Memory} {a n : Nat} (h : ∀ k < n, x.read (a + k) = y.read (a + k)) :
    x.readLE a n = y.readLE a n := by
  induction n generalizing a with
  | zero => rfl
  | succ n ih =>
    rw [Memory.readLE, Memory.readLE, show x.read a = y.read a from h 0 (by omega),
      ih fun k hk => by simpa [Nat.add_assoc, Nat.add_comm 1] using h (k + 1) (by omega)]

theorem Memory.readLE_lt (mem : Memory) (a n : Nat) : mem.readLE a n < 256 ^ n := by
  induction n generalizing a with
  | zero => simp [Memory.readLE]
  | succ n ih =>
    have h1 := (mem.read a).isLt
    have h2 := ih (a + 1)
    simp only [Memory.readLE, Nat.pow_succ]
    omega

/-- MemRead after MemWrite of the same range (43_field_io.md R553). -/
theorem Memory.readLE_writeLE {mem : Memory} (a n v : Nat) (hw : mem.wf = true) :
    (mem.writeLE a n v).readLE a n = v % 256 ^ n := by
  induction n generalizing mem a v with
  | zero => simp [Memory.readLE, Nat.mod_one]
  | succ n ih =>
    have h0 : (mem.writeLE a (n + 1) v).read a = BitVec.ofNat 8 v := by
      simpa using Memory.read_writeLE (a := a) (n := n + 1) (k := 0) v hw (by omega)
    rw [Memory.readLE, h0, Memory.writeLE, ih _ _ (Memory.wf_write a _ hw), BitVec.toNat_ofNat,
      show (2 : Nat) ^ 8 = 256 from rfl, Nat.pow_succ', Nat.mod_mul]

/-- MemRead of a range a write does not touch. -/
theorem Memory.readLE_writeLE_disjoint (mem : Memory) {a n b k : Nat} (v : Nat) (h : b + k ≤ a ∨ a + n ≤ b) :
    (mem.writeLE a n v).readLE b k = mem.readLE b k :=
  Memory.readLE_congr fun j hj => Memory.read_writeLE_outside _ _ (by omega)

/-! ## Memories built whole -/

theorem Memory.foldl_write_wf (size : Nat) (cells : List Host.Cell) {mem : Memory}
    (hw : mem.wf = true ∧ mem.within size = true) :
    let r : Memory := cells.foldl (fun mem c => if c.1 < size then Memory.write mem c.1 c.2 else mem) mem
    r.wf = true ∧ r.within size = true := by
  induction cells generalizing mem with
  | nil => exact hw
  | cons c rest ih =>
    simp only [List.foldl_cons]
    apply ih
    split
    · next h => exact ⟨Memory.wf_write _ _ hw.1, Memory.within_write _ hw.2 h⟩
    · exact hw

theorem Memory.ofCells_wf (size : Nat) (cells : List Host.Cell) :
    (Memory.ofCells size cells).wf = true ∧ (Memory.ofCells size cells).within size = true :=
  Memory.foldl_write_wf size cells (mem := []) ⟨rfl, rfl⟩

theorem cancelledBytes_wf {old new : Memory} (count : Nat) {n size : Nat} (hn : n ≤ size)
    (hw : old.wf = true ∧ old.within size = true) :
    (cancelledBytes old new count n).wf = true ∧ (cancelledBytes old new count n).within size = true := by
  induction n with
  | zero => exact hw
  | succ n ih =>
    have := ih (by omega)
    exact ⟨Memory.wf_write _ _ this.1, Memory.within_write _ this.2 (by omega)⟩

/-- Each byte of a cancelled command's DMEM is the old or the new one (70_reset_and_hazards.md R1101). -/
theorem cancelledBytes_read {old new : Memory} (count : Nat) {n a : Nat} (hw : old.wf = true) :
    (cancelledBytes old new count n).read a = old.read a ∨
      (a < n ∧ (cancelledBytes old new count n).read a = new.read a) := by
  induction n with
  | zero => exact .inl rfl
  | succ n ih =>
    have hwf : (cancelledBytes old new count n).wf = true := by
      clear ih
      induction n with
      | zero => exact hw
      | succ n ih => exact Memory.wf_write _ _ ih
    by_cases h : a = n
    · subst h
      rw [cancelledBytes, Memory.read_write_same _ _ hwf]
      split
      · exact .inr ⟨by omega, rfl⟩
      · exact .inl rfl
    · rw [cancelledBytes, Memory.read_write_ne _ _ h]
      rcases ih with h1 | ⟨h1, h2⟩
      · exact .inl h1
      · exact .inr ⟨by omega, h2⟩

end Sys2Proof.Machine
end

