-- ==== Sys2Proof/Laws/State.lean ====
section
/-! SUPPORT. One lemma per field per update of State, true by rfl, so that no proof unfolds a record
update, and the register reads after register writes. -/

namespace Sys2Proof.Machine

variable (s : State)

/-! ## setF -/

@[simp] theorem State.setF_sc (i : FReg) (v : Fe) : (s.setF i v).sc = s.sc := rfl
@[simp] theorem State.setF_p (i : FReg) (v : Fe) : (s.setF i v).p = s.p := rfl
@[simp] theorem State.setF_n (i : FReg) (v : Fe) : (s.setF i v).n = s.n := rfl
@[simp] theorem State.setF_m (i : FReg) (v : Fe) : (s.setF i v).m = s.m := rfl
@[simp] theorem State.setF_pc (i : FReg) (v : Fe) : (s.setF i v).pc = s.pc := rfl
@[simp] theorem State.setF_lc (i : FReg) (v : Fe) : (s.setF i v).lc = s.lc := rfl
@[simp] theorem State.setF_ar (i : FReg) (v : Fe) : (s.setF i v).ar = s.ar := rfl
@[simp] theorem State.setF_run (i : FReg) (v : Fe) : (s.setF i v).run = s.run := rfl
@[simp] theorem State.setF_abortLatch (i : FReg) (v : Fe) : (s.setF i v).abortLatch = s.abortLatch := rfl
@[simp] theorem State.setF_inProgress (i : FReg) (v : Fe) : (s.setF i v).inProgress = s.inProgress := rfl
@[simp] theorem State.setF_ie (i : FReg) (v : Fe) : (s.setF i v).ie = s.ie := rfl
@[simp] theorem State.setF_done (i : FReg) (v : Fe) : (s.setF i v).done = s.done := rfl
@[simp] theorem State.setF_err (i : FReg) (v : Fe) : (s.setF i v).err = s.err := rfl
@[simp] theorem State.setF_hac (i : FReg) (v : Fe) : (s.setF i v).hac = s.hac := rfl
@[simp] theorem State.setF_entry (i : FReg) (v : Fe) : (s.setF i v).entry = s.entry := rfl
@[simp] theorem State.setF_cause (i : FReg) (v : Fe) : (s.setF i v).cause = s.cause := rfl
@[simp] theorem State.setF_epc (i : FReg) (v : Fe) : (s.setF i v).epc = s.epc := rfl
@[simp] theorem State.setF_einfo (i : FReg) (v : Fe) : (s.setF i v).einfo = s.einfo := rfl
@[simp] theorem State.setF_imem (i : FReg) (v : Fe) : (s.setF i v).imem = s.imem := rfl
@[simp] theorem State.setF_dmem (i : FReg) (v : Fe) : (s.setF i v).dmem = s.dmem := rfl
@[simp] theorem State.setF_host (i : FReg) (v : Fe) : (s.setF i v).host = s.host := rfl
@[simp] theorem State.setF_hostRead (i : FReg) (v : Fe) : (s.setF i v).hostRead = s.hostRead := rfl
@[simp] theorem State.setF_freeCount (i : FReg) (v : Fe) : (s.setF i v).freeCount = s.freeCount := rfl
@[simp] theorem State.setF_getS (i : FReg) (v : Fe) (r : SReg) : (s.setF i v).getS r = s.getS r := rfl
@[simp] theorem State.setF_getP (i : FReg) (v : Fe) (r : PReg) : (s.setF i v).getP r = s.getP r := rfl
@[simp] theorem State.setF_getN (i : FReg) (v : Fe) (r : NReg) : (s.setF i v).getN r = s.getN r := rfl
@[simp] theorem State.setF_getM (i : FReg) (v : Fe) (r : MReg) : (s.setF i v).getM r = s.getM r := rfl

/-! ## setS -/

@[simp] theorem State.setS_f (i : SReg) (v : Sc) : (s.setS i v).f = s.f := rfl
@[simp] theorem State.setS_p (i : SReg) (v : Sc) : (s.setS i v).p = s.p := rfl
@[simp] theorem State.setS_n (i : SReg) (v : Sc) : (s.setS i v).n = s.n := rfl
@[simp] theorem State.setS_m (i : SReg) (v : Sc) : (s.setS i v).m = s.m := rfl
@[simp] theorem State.setS_pc (i : SReg) (v : Sc) : (s.setS i v).pc = s.pc := rfl
@[simp] theorem State.setS_lc (i : SReg) (v : Sc) : (s.setS i v).lc = s.lc := rfl
@[simp] theorem State.setS_ar (i : SReg) (v : Sc) : (s.setS i v).ar = s.ar := rfl
@[simp] theorem State.setS_run (i : SReg) (v : Sc) : (s.setS i v).run = s.run := rfl
@[simp] theorem State.setS_abortLatch (i : SReg) (v : Sc) : (s.setS i v).abortLatch = s.abortLatch := rfl
@[simp] theorem State.setS_inProgress (i : SReg) (v : Sc) : (s.setS i v).inProgress = s.inProgress := rfl
@[simp] theorem State.setS_ie (i : SReg) (v : Sc) : (s.setS i v).ie = s.ie := rfl
@[simp] theorem State.setS_done (i : SReg) (v : Sc) : (s.setS i v).done = s.done := rfl
@[simp] theorem State.setS_err (i : SReg) (v : Sc) : (s.setS i v).err = s.err := rfl
@[simp] theorem State.setS_hac (i : SReg) (v : Sc) : (s.setS i v).hac = s.hac := rfl
@[simp] theorem State.setS_entry (i : SReg) (v : Sc) : (s.setS i v).entry = s.entry := rfl
@[simp] theorem State.setS_cause (i : SReg) (v : Sc) : (s.setS i v).cause = s.cause := rfl
@[simp] theorem State.setS_epc (i : SReg) (v : Sc) : (s.setS i v).epc = s.epc := rfl
@[simp] theorem State.setS_einfo (i : SReg) (v : Sc) : (s.setS i v).einfo = s.einfo := rfl
@[simp] theorem State.setS_imem (i : SReg) (v : Sc) : (s.setS i v).imem = s.imem := rfl
@[simp] theorem State.setS_dmem (i : SReg) (v : Sc) : (s.setS i v).dmem = s.dmem := rfl
@[simp] theorem State.setS_host (i : SReg) (v : Sc) : (s.setS i v).host = s.host := rfl
@[simp] theorem State.setS_hostRead (i : SReg) (v : Sc) : (s.setS i v).hostRead = s.hostRead := rfl
@[simp] theorem State.setS_freeCount (i : SReg) (v : Sc) : (s.setS i v).freeCount = s.freeCount := rfl
@[simp] theorem State.setS_getF (i : SReg) (v : Sc) (r : FReg) : (s.setS i v).getF r = s.getF r := rfl
@[simp] theorem State.setS_getP (i : SReg) (v : Sc) (r : PReg) : (s.setS i v).getP r = s.getP r := rfl
@[simp] theorem State.setS_getN (i : SReg) (v : Sc) (r : NReg) : (s.setS i v).getN r = s.getN r := rfl
@[simp] theorem State.setS_getM (i : SReg) (v : Sc) (r : MReg) : (s.setS i v).getM r = s.getM r := rfl

/-! ## setP -/

@[simp] theorem State.setP_f (i : PReg) (v : PointReg) : (s.setP i v).f = s.f := rfl
@[simp] theorem State.setP_sc (i : PReg) (v : PointReg) : (s.setP i v).sc = s.sc := rfl
@[simp] theorem State.setP_n (i : PReg) (v : PointReg) : (s.setP i v).n = s.n := rfl
@[simp] theorem State.setP_m (i : PReg) (v : PointReg) : (s.setP i v).m = s.m := rfl
@[simp] theorem State.setP_pc (i : PReg) (v : PointReg) : (s.setP i v).pc = s.pc := rfl
@[simp] theorem State.setP_lc (i : PReg) (v : PointReg) : (s.setP i v).lc = s.lc := rfl
@[simp] theorem State.setP_ar (i : PReg) (v : PointReg) : (s.setP i v).ar = s.ar := rfl
@[simp] theorem State.setP_run (i : PReg) (v : PointReg) : (s.setP i v).run = s.run := rfl
@[simp] theorem State.setP_abortLatch (i : PReg) (v : PointReg) : (s.setP i v).abortLatch = s.abortLatch := rfl
@[simp] theorem State.setP_inProgress (i : PReg) (v : PointReg) : (s.setP i v).inProgress = s.inProgress := rfl
@[simp] theorem State.setP_ie (i : PReg) (v : PointReg) : (s.setP i v).ie = s.ie := rfl
@[simp] theorem State.setP_done (i : PReg) (v : PointReg) : (s.setP i v).done = s.done := rfl
@[simp] theorem State.setP_err (i : PReg) (v : PointReg) : (s.setP i v).err = s.err := rfl
@[simp] theorem State.setP_hac (i : PReg) (v : PointReg) : (s.setP i v).hac = s.hac := rfl
@[simp] theorem State.setP_entry (i : PReg) (v : PointReg) : (s.setP i v).entry = s.entry := rfl
@[simp] theorem State.setP_cause (i : PReg) (v : PointReg) : (s.setP i v).cause = s.cause := rfl
@[simp] theorem State.setP_epc (i : PReg) (v : PointReg) : (s.setP i v).epc = s.epc := rfl
@[simp] theorem State.setP_einfo (i : PReg) (v : PointReg) : (s.setP i v).einfo = s.einfo := rfl
@[simp] theorem State.setP_imem (i : PReg) (v : PointReg) : (s.setP i v).imem = s.imem := rfl
@[simp] theorem State.setP_dmem (i : PReg) (v : PointReg) : (s.setP i v).dmem = s.dmem := rfl
@[simp] theorem State.setP_host (i : PReg) (v : PointReg) : (s.setP i v).host = s.host := rfl
@[simp] theorem State.setP_hostRead (i : PReg) (v : PointReg) : (s.setP i v).hostRead = s.hostRead := rfl
@[simp] theorem State.setP_freeCount (i : PReg) (v : PointReg) : (s.setP i v).freeCount = s.freeCount := rfl
@[simp] theorem State.setP_getF (i : PReg) (v : PointReg) (r : FReg) : (s.setP i v).getF r = s.getF r := rfl
@[simp] theorem State.setP_getS (i : PReg) (v : PointReg) (r : SReg) : (s.setP i v).getS r = s.getS r := rfl
@[simp] theorem State.setP_getN (i : PReg) (v : PointReg) (r : NReg) : (s.setP i v).getN r = s.getN r := rfl
@[simp] theorem State.setP_getM (i : PReg) (v : PointReg) (r : MReg) : (s.setP i v).getM r = s.getM r := rfl

/-! ## setN -/

@[simp] theorem State.setN_f (i : NReg) (v : Niels) : (s.setN i v).f = s.f := rfl
@[simp] theorem State.setN_sc (i : NReg) (v : Niels) : (s.setN i v).sc = s.sc := rfl
@[simp] theorem State.setN_p (i : NReg) (v : Niels) : (s.setN i v).p = s.p := rfl
@[simp] theorem State.setN_m (i : NReg) (v : Niels) : (s.setN i v).m = s.m := rfl
@[simp] theorem State.setN_pc (i : NReg) (v : Niels) : (s.setN i v).pc = s.pc := rfl
@[simp] theorem State.setN_lc (i : NReg) (v : Niels) : (s.setN i v).lc = s.lc := rfl
@[simp] theorem State.setN_ar (i : NReg) (v : Niels) : (s.setN i v).ar = s.ar := rfl
@[simp] theorem State.setN_run (i : NReg) (v : Niels) : (s.setN i v).run = s.run := rfl
@[simp] theorem State.setN_abortLatch (i : NReg) (v : Niels) : (s.setN i v).abortLatch = s.abortLatch := rfl
@[simp] theorem State.setN_inProgress (i : NReg) (v : Niels) : (s.setN i v).inProgress = s.inProgress := rfl
@[simp] theorem State.setN_ie (i : NReg) (v : Niels) : (s.setN i v).ie = s.ie := rfl
@[simp] theorem State.setN_done (i : NReg) (v : Niels) : (s.setN i v).done = s.done := rfl
@[simp] theorem State.setN_err (i : NReg) (v : Niels) : (s.setN i v).err = s.err := rfl
@[simp] theorem State.setN_hac (i : NReg) (v : Niels) : (s.setN i v).hac = s.hac := rfl
@[simp] theorem State.setN_entry (i : NReg) (v : Niels) : (s.setN i v).entry = s.entry := rfl
@[simp] theorem State.setN_cause (i : NReg) (v : Niels) : (s.setN i v).cause = s.cause := rfl
@[simp] theorem State.setN_epc (i : NReg) (v : Niels) : (s.setN i v).epc = s.epc := rfl
@[simp] theorem State.setN_einfo (i : NReg) (v : Niels) : (s.setN i v).einfo = s.einfo := rfl
@[simp] theorem State.setN_imem (i : NReg) (v : Niels) : (s.setN i v).imem = s.imem := rfl
@[simp] theorem State.setN_dmem (i : NReg) (v : Niels) : (s.setN i v).dmem = s.dmem := rfl
@[simp] theorem State.setN_host (i : NReg) (v : Niels) : (s.setN i v).host = s.host := rfl
@[simp] theorem State.setN_hostRead (i : NReg) (v : Niels) : (s.setN i v).hostRead = s.hostRead := rfl
@[simp] theorem State.setN_freeCount (i : NReg) (v : Niels) : (s.setN i v).freeCount = s.freeCount := rfl
@[simp] theorem State.setN_getF (i : NReg) (v : Niels) (r : FReg) : (s.setN i v).getF r = s.getF r := rfl
@[simp] theorem State.setN_getS (i : NReg) (v : Niels) (r : SReg) : (s.setN i v).getS r = s.getS r := rfl
@[simp] theorem State.setN_getP (i : NReg) (v : Niels) (r : PReg) : (s.setN i v).getP r = s.getP r := rfl
@[simp] theorem State.setN_getM (i : NReg) (v : Niels) (r : MReg) : (s.setN i v).getM r = s.getM r := rfl

/-! ## setM -/

@[simp] theorem State.setM_f (i : MReg) (v : BitVec 32) : (s.setM i v).f = s.f := rfl
@[simp] theorem State.setM_sc (i : MReg) (v : BitVec 32) : (s.setM i v).sc = s.sc := rfl
@[simp] theorem State.setM_p (i : MReg) (v : BitVec 32) : (s.setM i v).p = s.p := rfl
@[simp] theorem State.setM_n (i : MReg) (v : BitVec 32) : (s.setM i v).n = s.n := rfl
@[simp] theorem State.setM_pc (i : MReg) (v : BitVec 32) : (s.setM i v).pc = s.pc := rfl
@[simp] theorem State.setM_lc (i : MReg) (v : BitVec 32) : (s.setM i v).lc = s.lc := rfl
@[simp] theorem State.setM_ar (i : MReg) (v : BitVec 32) : (s.setM i v).ar = s.ar := rfl
@[simp] theorem State.setM_run (i : MReg) (v : BitVec 32) : (s.setM i v).run = s.run := rfl
@[simp] theorem State.setM_abortLatch (i : MReg) (v : BitVec 32) : (s.setM i v).abortLatch = s.abortLatch := rfl
@[simp] theorem State.setM_inProgress (i : MReg) (v : BitVec 32) : (s.setM i v).inProgress = s.inProgress := rfl
@[simp] theorem State.setM_ie (i : MReg) (v : BitVec 32) : (s.setM i v).ie = s.ie := rfl
@[simp] theorem State.setM_done (i : MReg) (v : BitVec 32) : (s.setM i v).done = s.done := rfl
@[simp] theorem State.setM_err (i : MReg) (v : BitVec 32) : (s.setM i v).err = s.err := rfl
@[simp] theorem State.setM_hac (i : MReg) (v : BitVec 32) : (s.setM i v).hac = s.hac := rfl
@[simp] theorem State.setM_entry (i : MReg) (v : BitVec 32) : (s.setM i v).entry = s.entry := rfl
@[simp] theorem State.setM_cause (i : MReg) (v : BitVec 32) : (s.setM i v).cause = s.cause := rfl
@[simp] theorem State.setM_epc (i : MReg) (v : BitVec 32) : (s.setM i v).epc = s.epc := rfl
@[simp] theorem State.setM_einfo (i : MReg) (v : BitVec 32) : (s.setM i v).einfo = s.einfo := rfl
@[simp] theorem State.setM_imem (i : MReg) (v : BitVec 32) : (s.setM i v).imem = s.imem := rfl
@[simp] theorem State.setM_dmem (i : MReg) (v : BitVec 32) : (s.setM i v).dmem = s.dmem := rfl
@[simp] theorem State.setM_host (i : MReg) (v : BitVec 32) : (s.setM i v).host = s.host := rfl
@[simp] theorem State.setM_hostRead (i : MReg) (v : BitVec 32) : (s.setM i v).hostRead = s.hostRead := rfl
@[simp] theorem State.setM_freeCount (i : MReg) (v : BitVec 32) : (s.setM i v).freeCount = s.freeCount := rfl
@[simp] theorem State.setM_getF (i : MReg) (v : BitVec 32) (r : FReg) : (s.setM i v).getF r = s.getF r := rfl
@[simp] theorem State.setM_getS (i : MReg) (v : BitVec 32) (r : SReg) : (s.setM i v).getS r = s.getS r := rfl
@[simp] theorem State.setM_getP (i : MReg) (v : BitVec 32) (r : PReg) : (s.setM i v).getP r = s.getP r := rfl
@[simp] theorem State.setM_getN (i : MReg) (v : BitVec 32) (r : NReg) : (s.setM i v).getN r = s.getN r := rfl

/-! ## setLc -/

@[simp] theorem State.setLc_f (v : BitVec 16) : (s.setLc v).f = s.f := rfl
@[simp] theorem State.setLc_sc (v : BitVec 16) : (s.setLc v).sc = s.sc := rfl
@[simp] theorem State.setLc_p (v : BitVec 16) : (s.setLc v).p = s.p := rfl
@[simp] theorem State.setLc_n (v : BitVec 16) : (s.setLc v).n = s.n := rfl
@[simp] theorem State.setLc_m (v : BitVec 16) : (s.setLc v).m = s.m := rfl
@[simp] theorem State.setLc_pc (v : BitVec 16) : (s.setLc v).pc = s.pc := rfl
@[simp] theorem State.setLc_lc (v : BitVec 16) : (s.setLc v).lc = v := rfl
@[simp] theorem State.setLc_ar (v : BitVec 16) : (s.setLc v).ar = s.ar := rfl
@[simp] theorem State.setLc_run (v : BitVec 16) : (s.setLc v).run = s.run := rfl
@[simp] theorem State.setLc_abortLatch (v : BitVec 16) : (s.setLc v).abortLatch = s.abortLatch := rfl
@[simp] theorem State.setLc_inProgress (v : BitVec 16) : (s.setLc v).inProgress = s.inProgress := rfl
@[simp] theorem State.setLc_ie (v : BitVec 16) : (s.setLc v).ie = s.ie := rfl
@[simp] theorem State.setLc_done (v : BitVec 16) : (s.setLc v).done = s.done := rfl
@[simp] theorem State.setLc_err (v : BitVec 16) : (s.setLc v).err = s.err := rfl
@[simp] theorem State.setLc_hac (v : BitVec 16) : (s.setLc v).hac = s.hac := rfl
@[simp] theorem State.setLc_entry (v : BitVec 16) : (s.setLc v).entry = s.entry := rfl
@[simp] theorem State.setLc_cause (v : BitVec 16) : (s.setLc v).cause = s.cause := rfl
@[simp] theorem State.setLc_epc (v : BitVec 16) : (s.setLc v).epc = s.epc := rfl
@[simp] theorem State.setLc_einfo (v : BitVec 16) : (s.setLc v).einfo = s.einfo := rfl
@[simp] theorem State.setLc_imem (v : BitVec 16) : (s.setLc v).imem = s.imem := rfl
@[simp] theorem State.setLc_dmem (v : BitVec 16) : (s.setLc v).dmem = s.dmem := rfl
@[simp] theorem State.setLc_host (v : BitVec 16) : (s.setLc v).host = s.host := rfl
@[simp] theorem State.setLc_hostRead (v : BitVec 16) : (s.setLc v).hostRead = s.hostRead := rfl
@[simp] theorem State.setLc_freeCount (v : BitVec 16) : (s.setLc v).freeCount = s.freeCount := rfl
@[simp] theorem State.setLc_getF (v : BitVec 16) (r : FReg) : (s.setLc v).getF r = s.getF r := rfl
@[simp] theorem State.setLc_getS (v : BitVec 16) (r : SReg) : (s.setLc v).getS r = s.getS r := rfl
@[simp] theorem State.setLc_getP (v : BitVec 16) (r : PReg) : (s.setLc v).getP r = s.getP r := rfl
@[simp] theorem State.setLc_getN (v : BitVec 16) (r : NReg) : (s.setLc v).getN r = s.getN r := rfl
@[simp] theorem State.setLc_getM (v : BitVec 16) (r : MReg) : (s.setLc v).getM r = s.getM r := rfl

/-! ## setAr -/

@[simp] theorem State.setAr_f (v : BitVec 16) : (s.setAr v).f = s.f := rfl
@[simp] theorem State.setAr_sc (v : BitVec 16) : (s.setAr v).sc = s.sc := rfl
@[simp] theorem State.setAr_p (v : BitVec 16) : (s.setAr v).p = s.p := rfl
@[simp] theorem State.setAr_n (v : BitVec 16) : (s.setAr v).n = s.n := rfl
@[simp] theorem State.setAr_m (v : BitVec 16) : (s.setAr v).m = s.m := rfl
@[simp] theorem State.setAr_pc (v : BitVec 16) : (s.setAr v).pc = s.pc := rfl
@[simp] theorem State.setAr_lc (v : BitVec 16) : (s.setAr v).lc = s.lc := rfl
@[simp] theorem State.setAr_ar (v : BitVec 16) : (s.setAr v).ar = v := rfl
@[simp] theorem State.setAr_run (v : BitVec 16) : (s.setAr v).run = s.run := rfl
@[simp] theorem State.setAr_abortLatch (v : BitVec 16) : (s.setAr v).abortLatch = s.abortLatch := rfl
@[simp] theorem State.setAr_inProgress (v : BitVec 16) : (s.setAr v).inProgress = s.inProgress := rfl
@[simp] theorem State.setAr_ie (v : BitVec 16) : (s.setAr v).ie = s.ie := rfl
@[simp] theorem State.setAr_done (v : BitVec 16) : (s.setAr v).done = s.done := rfl
@[simp] theorem State.setAr_err (v : BitVec 16) : (s.setAr v).err = s.err := rfl
@[simp] theorem State.setAr_hac (v : BitVec 16) : (s.setAr v).hac = s.hac := rfl
@[simp] theorem State.setAr_entry (v : BitVec 16) : (s.setAr v).entry = s.entry := rfl
@[simp] theorem State.setAr_cause (v : BitVec 16) : (s.setAr v).cause = s.cause := rfl
@[simp] theorem State.setAr_epc (v : BitVec 16) : (s.setAr v).epc = s.epc := rfl
@[simp] theorem State.setAr_einfo (v : BitVec 16) : (s.setAr v).einfo = s.einfo := rfl
@[simp] theorem State.setAr_imem (v : BitVec 16) : (s.setAr v).imem = s.imem := rfl
@[simp] theorem State.setAr_dmem (v : BitVec 16) : (s.setAr v).dmem = s.dmem := rfl
@[simp] theorem State.setAr_host (v : BitVec 16) : (s.setAr v).host = s.host := rfl
@[simp] theorem State.setAr_hostRead (v : BitVec 16) : (s.setAr v).hostRead = s.hostRead := rfl
@[simp] theorem State.setAr_freeCount (v : BitVec 16) : (s.setAr v).freeCount = s.freeCount := rfl
@[simp] theorem State.setAr_getF (v : BitVec 16) (r : FReg) : (s.setAr v).getF r = s.getF r := rfl
@[simp] theorem State.setAr_getS (v : BitVec 16) (r : SReg) : (s.setAr v).getS r = s.getS r := rfl
@[simp] theorem State.setAr_getP (v : BitVec 16) (r : PReg) : (s.setAr v).getP r = s.getP r := rfl
@[simp] theorem State.setAr_getN (v : BitVec 16) (r : NReg) : (s.setAr v).getN r = s.getN r := rfl
@[simp] theorem State.setAr_getM (v : BitVec 16) (r : MReg) : (s.setAr v).getM r = s.getM r := rfl

/-! ## storeLE -/

@[simp] theorem State.storeLE_f (a n v : Nat) : (s.storeLE a n v).f = s.f := rfl
@[simp] theorem State.storeLE_sc (a n v : Nat) : (s.storeLE a n v).sc = s.sc := rfl
@[simp] theorem State.storeLE_p (a n v : Nat) : (s.storeLE a n v).p = s.p := rfl
@[simp] theorem State.storeLE_n (a n v : Nat) : (s.storeLE a n v).n = s.n := rfl
@[simp] theorem State.storeLE_m (a n v : Nat) : (s.storeLE a n v).m = s.m := rfl
@[simp] theorem State.storeLE_pc (a n v : Nat) : (s.storeLE a n v).pc = s.pc := rfl
@[simp] theorem State.storeLE_lc (a n v : Nat) : (s.storeLE a n v).lc = s.lc := rfl
@[simp] theorem State.storeLE_ar (a n v : Nat) : (s.storeLE a n v).ar = s.ar := rfl
@[simp] theorem State.storeLE_run (a n v : Nat) : (s.storeLE a n v).run = s.run := rfl
@[simp] theorem State.storeLE_abortLatch (a n v : Nat) : (s.storeLE a n v).abortLatch = s.abortLatch := rfl
@[simp] theorem State.storeLE_inProgress (a n v : Nat) : (s.storeLE a n v).inProgress = s.inProgress := rfl
@[simp] theorem State.storeLE_ie (a n v : Nat) : (s.storeLE a n v).ie = s.ie := rfl
@[simp] theorem State.storeLE_done (a n v : Nat) : (s.storeLE a n v).done = s.done := rfl
@[simp] theorem State.storeLE_err (a n v : Nat) : (s.storeLE a n v).err = s.err := rfl
@[simp] theorem State.storeLE_hac (a n v : Nat) : (s.storeLE a n v).hac = s.hac := rfl
@[simp] theorem State.storeLE_entry (a n v : Nat) : (s.storeLE a n v).entry = s.entry := rfl
@[simp] theorem State.storeLE_cause (a n v : Nat) : (s.storeLE a n v).cause = s.cause := rfl
@[simp] theorem State.storeLE_epc (a n v : Nat) : (s.storeLE a n v).epc = s.epc := rfl
@[simp] theorem State.storeLE_einfo (a n v : Nat) : (s.storeLE a n v).einfo = s.einfo := rfl
@[simp] theorem State.storeLE_imem (a n v : Nat) : (s.storeLE a n v).imem = s.imem := rfl
@[simp] theorem State.storeLE_dmem (a n v : Nat) : (s.storeLE a n v).dmem = s.dmem.writeLE a n v := rfl
@[simp] theorem State.storeLE_host (a n v : Nat) : (s.storeLE a n v).host = s.host := rfl
@[simp] theorem State.storeLE_hostRead (a n v : Nat) : (s.storeLE a n v).hostRead = s.hostRead := rfl
@[simp] theorem State.storeLE_freeCount (a n v : Nat) : (s.storeLE a n v).freeCount = s.freeCount := rfl
@[simp] theorem State.storeLE_getF (a n v : Nat) (r : FReg) : (s.storeLE a n v).getF r = s.getF r := rfl
@[simp] theorem State.storeLE_getS (a n v : Nat) (r : SReg) : (s.storeLE a n v).getS r = s.getS r := rfl
@[simp] theorem State.storeLE_getP (a n v : Nat) (r : PReg) : (s.storeLE a n v).getP r = s.getP r := rfl
@[simp] theorem State.storeLE_getN (a n v : Nat) (r : NReg) : (s.storeLE a n v).getN r = s.getN r := rfl
@[simp] theorem State.storeLE_getM (a n v : Nat) (r : MReg) : (s.storeLE a n v).getM r = s.getM r := rfl

/-! ## advance -/

@[simp] theorem State.advance_f : (s.advance).f = s.f := rfl
@[simp] theorem State.advance_sc : (s.advance).sc = s.sc := rfl
@[simp] theorem State.advance_p : (s.advance).p = s.p := rfl
@[simp] theorem State.advance_n : (s.advance).n = s.n := rfl
@[simp] theorem State.advance_m : (s.advance).m = s.m := rfl
@[simp] theorem State.advance_pc : (s.advance).pc = s.pc + 1 := rfl
@[simp] theorem State.advance_lc : (s.advance).lc = s.lc := rfl
@[simp] theorem State.advance_ar : (s.advance).ar = s.ar := rfl
@[simp] theorem State.advance_run : (s.advance).run = s.run := rfl
@[simp] theorem State.advance_abortLatch : (s.advance).abortLatch = s.abortLatch := rfl
@[simp] theorem State.advance_inProgress : (s.advance).inProgress = s.inProgress := rfl
@[simp] theorem State.advance_ie : (s.advance).ie = s.ie := rfl
@[simp] theorem State.advance_done : (s.advance).done = s.done := rfl
@[simp] theorem State.advance_err : (s.advance).err = s.err := rfl
@[simp] theorem State.advance_hac : (s.advance).hac = s.hac := rfl
@[simp] theorem State.advance_entry : (s.advance).entry = s.entry := rfl
@[simp] theorem State.advance_cause : (s.advance).cause = s.cause := rfl
@[simp] theorem State.advance_epc : (s.advance).epc = s.epc := rfl
@[simp] theorem State.advance_einfo : (s.advance).einfo = s.einfo := rfl
@[simp] theorem State.advance_imem : (s.advance).imem = s.imem := rfl
@[simp] theorem State.advance_dmem : (s.advance).dmem = s.dmem := rfl
@[simp] theorem State.advance_host : (s.advance).host = s.host := rfl
@[simp] theorem State.advance_hostRead : (s.advance).hostRead = s.hostRead := rfl
@[simp] theorem State.advance_freeCount : (s.advance).freeCount = s.freeCount := rfl
@[simp] theorem State.advance_getF (r : FReg) : (s.advance).getF r = s.getF r := rfl
@[simp] theorem State.advance_getS (r : SReg) : (s.advance).getS r = s.getS r := rfl
@[simp] theorem State.advance_getP (r : PReg) : (s.advance).getP r = s.getP r := rfl
@[simp] theorem State.advance_getN (r : NReg) : (s.advance).getN r = s.getN r := rfl
@[simp] theorem State.advance_getM (r : MReg) : (s.advance).getM r = s.getM r := rfl

/-! ## branch -/

@[simp] theorem State.branch_f (off : BitVec 16) : (s.branch off).f = s.f := rfl
@[simp] theorem State.branch_sc (off : BitVec 16) : (s.branch off).sc = s.sc := rfl
@[simp] theorem State.branch_p (off : BitVec 16) : (s.branch off).p = s.p := rfl
@[simp] theorem State.branch_n (off : BitVec 16) : (s.branch off).n = s.n := rfl
@[simp] theorem State.branch_m (off : BitVec 16) : (s.branch off).m = s.m := rfl
@[simp] theorem State.branch_pc (off : BitVec 16) : (s.branch off).pc = s.pc + off := rfl
@[simp] theorem State.branch_lc (off : BitVec 16) : (s.branch off).lc = s.lc := rfl
@[simp] theorem State.branch_ar (off : BitVec 16) : (s.branch off).ar = s.ar := rfl
@[simp] theorem State.branch_run (off : BitVec 16) : (s.branch off).run = s.run := rfl
@[simp] theorem State.branch_abortLatch (off : BitVec 16) : (s.branch off).abortLatch = s.abortLatch := rfl
@[simp] theorem State.branch_inProgress (off : BitVec 16) : (s.branch off).inProgress = s.inProgress := rfl
@[simp] theorem State.branch_ie (off : BitVec 16) : (s.branch off).ie = s.ie := rfl
@[simp] theorem State.branch_done (off : BitVec 16) : (s.branch off).done = s.done := rfl
@[simp] theorem State.branch_err (off : BitVec 16) : (s.branch off).err = s.err := rfl
@[simp] theorem State.branch_hac (off : BitVec 16) : (s.branch off).hac = s.hac := rfl
@[simp] theorem State.branch_entry (off : BitVec 16) : (s.branch off).entry = s.entry := rfl
@[simp] theorem State.branch_cause (off : BitVec 16) : (s.branch off).cause = s.cause := rfl
@[simp] theorem State.branch_epc (off : BitVec 16) : (s.branch off).epc = s.epc := rfl
@[simp] theorem State.branch_einfo (off : BitVec 16) : (s.branch off).einfo = s.einfo := rfl
@[simp] theorem State.branch_imem (off : BitVec 16) : (s.branch off).imem = s.imem := rfl
@[simp] theorem State.branch_dmem (off : BitVec 16) : (s.branch off).dmem = s.dmem := rfl
@[simp] theorem State.branch_host (off : BitVec 16) : (s.branch off).host = s.host := rfl
@[simp] theorem State.branch_hostRead (off : BitVec 16) : (s.branch off).hostRead = s.hostRead := rfl
@[simp] theorem State.branch_freeCount (off : BitVec 16) : (s.branch off).freeCount = s.freeCount := rfl
@[simp] theorem State.branch_getF (off : BitVec 16) (r : FReg) : (s.branch off).getF r = s.getF r := rfl
@[simp] theorem State.branch_getS (off : BitVec 16) (r : SReg) : (s.branch off).getS r = s.getS r := rfl
@[simp] theorem State.branch_getP (off : BitVec 16) (r : PReg) : (s.branch off).getP r = s.getP r := rfl
@[simp] theorem State.branch_getN (off : BitVec 16) (r : NReg) : (s.branch off).getN r = s.getN r := rfl
@[simp] theorem State.branch_getM (off : BitVec 16) (r : MReg) : (s.branch off).getM r = s.getM r := rfl

/-! ## halt -/

@[simp] theorem State.halt_f : (s.halt).f = s.f := rfl
@[simp] theorem State.halt_sc : (s.halt).sc = s.sc := rfl
@[simp] theorem State.halt_p : (s.halt).p = s.p := rfl
@[simp] theorem State.halt_n : (s.halt).n = s.n := rfl
@[simp] theorem State.halt_m : (s.halt).m = s.m := rfl
@[simp] theorem State.halt_pc : (s.halt).pc = s.pc := rfl
@[simp] theorem State.halt_lc : (s.halt).lc = s.lc := rfl
@[simp] theorem State.halt_ar : (s.halt).ar = s.ar := rfl
@[simp] theorem State.halt_run : (s.halt).run = .idle := rfl
@[simp] theorem State.halt_abortLatch : (s.halt).abortLatch = s.abortLatch := rfl
@[simp] theorem State.halt_inProgress : (s.halt).inProgress = s.inProgress := rfl
@[simp] theorem State.halt_ie : (s.halt).ie = s.ie := rfl
@[simp] theorem State.halt_done : (s.halt).done = true := rfl
@[simp] theorem State.halt_err : (s.halt).err = s.err := rfl
@[simp] theorem State.halt_hac : (s.halt).hac = s.hac := rfl
@[simp] theorem State.halt_entry : (s.halt).entry = s.entry := rfl
@[simp] theorem State.halt_cause : (s.halt).cause = s.cause := rfl
@[simp] theorem State.halt_epc : (s.halt).epc = s.epc := rfl
@[simp] theorem State.halt_einfo : (s.halt).einfo = s.einfo := rfl
@[simp] theorem State.halt_imem : (s.halt).imem = s.imem := rfl
@[simp] theorem State.halt_dmem : (s.halt).dmem = s.dmem := rfl
@[simp] theorem State.halt_host : (s.halt).host = s.host := rfl
@[simp] theorem State.halt_hostRead : (s.halt).hostRead = s.hostRead := rfl
@[simp] theorem State.halt_freeCount : (s.halt).freeCount = s.freeCount := rfl
@[simp] theorem State.halt_getF (r : FReg) : (s.halt).getF r = s.getF r := rfl
@[simp] theorem State.halt_getS (r : SReg) : (s.halt).getS r = s.getS r := rfl
@[simp] theorem State.halt_getP (r : PReg) : (s.halt).getP r = s.getP r := rfl
@[simp] theorem State.halt_getN (r : NReg) : (s.halt).getN r = s.getN r := rfl
@[simp] theorem State.halt_getM (r : MReg) : (s.halt).getM r = s.getM r := rfl

/-! ## raise -/

@[simp] theorem State.raise_f (c : Cause) (info : BitVec 32) : (s.raise c info).f = s.f := rfl
@[simp] theorem State.raise_sc (c : Cause) (info : BitVec 32) : (s.raise c info).sc = s.sc := rfl
@[simp] theorem State.raise_p (c : Cause) (info : BitVec 32) : (s.raise c info).p = s.p := rfl
@[simp] theorem State.raise_n (c : Cause) (info : BitVec 32) : (s.raise c info).n = s.n := rfl
@[simp] theorem State.raise_m (c : Cause) (info : BitVec 32) : (s.raise c info).m = s.m := rfl
@[simp] theorem State.raise_pc (c : Cause) (info : BitVec 32) : (s.raise c info).pc = s.pc := rfl
@[simp] theorem State.raise_lc (c : Cause) (info : BitVec 32) : (s.raise c info).lc = s.lc := rfl
@[simp] theorem State.raise_ar (c : Cause) (info : BitVec 32) : (s.raise c info).ar = s.ar := rfl
@[simp] theorem State.raise_run (c : Cause) (info : BitVec 32) : (s.raise c info).run = .idle := rfl
@[simp] theorem State.raise_abortLatch (c : Cause) (info : BitVec 32) : (s.raise c info).abortLatch = s.abortLatch := rfl
@[simp] theorem State.raise_inProgress (c : Cause) (info : BitVec 32) : (s.raise c info).inProgress = s.inProgress := rfl
@[simp] theorem State.raise_ie (c : Cause) (info : BitVec 32) : (s.raise c info).ie = s.ie := rfl
@[simp] theorem State.raise_done (c : Cause) (info : BitVec 32) : (s.raise c info).done = s.done := rfl
@[simp] theorem State.raise_err (c : Cause) (info : BitVec 32) : (s.raise c info).err = true := rfl
@[simp] theorem State.raise_hac (c : Cause) (info : BitVec 32) : (s.raise c info).hac = s.hac := rfl
@[simp] theorem State.raise_entry (c : Cause) (info : BitVec 32) : (s.raise c info).entry = s.entry := rfl
@[simp] theorem State.raise_cause (c : Cause) (info : BitVec 32) : (s.raise c info).cause = causeCode c := rfl
@[simp] theorem State.raise_epc (c : Cause) (info : BitVec 32) : (s.raise c info).epc = s.pc := rfl
@[simp] theorem State.raise_einfo (c : Cause) (info : BitVec 32) : (s.raise c info).einfo = info := rfl
@[simp] theorem State.raise_imem (c : Cause) (info : BitVec 32) : (s.raise c info).imem = s.imem := rfl
@[simp] theorem State.raise_dmem (c : Cause) (info : BitVec 32) : (s.raise c info).dmem = s.dmem := rfl
@[simp] theorem State.raise_host (c : Cause) (info : BitVec 32) : (s.raise c info).host = s.host := rfl
@[simp] theorem State.raise_hostRead (c : Cause) (info : BitVec 32) : (s.raise c info).hostRead = s.hostRead := rfl
@[simp] theorem State.raise_freeCount (c : Cause) (info : BitVec 32) : (s.raise c info).freeCount = s.freeCount := rfl
@[simp] theorem State.raise_getF (c : Cause) (info : BitVec 32) (r : FReg) : (s.raise c info).getF r = s.getF r := rfl
@[simp] theorem State.raise_getS (c : Cause) (info : BitVec 32) (r : SReg) : (s.raise c info).getS r = s.getS r := rfl
@[simp] theorem State.raise_getP (c : Cause) (info : BitVec 32) (r : PReg) : (s.raise c info).getP r = s.getP r := rfl
@[simp] theorem State.raise_getN (c : Cause) (info : BitVec 32) (r : NReg) : (s.raise c info).getN r = s.getN r := rfl
@[simp] theorem State.raise_getM (c : Cause) (info : BitVec 32) (r : MReg) : (s.raise c info).getM r = s.getM r := rfl

/-! ## setInProgress -/

@[simp] theorem State.setInProgress_f (b : Bool) : (s.setInProgress b).f = s.f := rfl
@[simp] theorem State.setInProgress_sc (b : Bool) : (s.setInProgress b).sc = s.sc := rfl
@[simp] theorem State.setInProgress_p (b : Bool) : (s.setInProgress b).p = s.p := rfl
@[simp] theorem State.setInProgress_n (b : Bool) : (s.setInProgress b).n = s.n := rfl
@[simp] theorem State.setInProgress_m (b : Bool) : (s.setInProgress b).m = s.m := rfl
@[simp] theorem State.setInProgress_pc (b : Bool) : (s.setInProgress b).pc = s.pc := rfl
@[simp] theorem State.setInProgress_lc (b : Bool) : (s.setInProgress b).lc = s.lc := rfl
@[simp] theorem State.setInProgress_ar (b : Bool) : (s.setInProgress b).ar = s.ar := rfl
@[simp] theorem State.setInProgress_run (b : Bool) : (s.setInProgress b).run = s.run := rfl
@[simp] theorem State.setInProgress_abortLatch (b : Bool) : (s.setInProgress b).abortLatch = s.abortLatch := rfl
@[simp] theorem State.setInProgress_inProgress (b : Bool) : (s.setInProgress b).inProgress = b := rfl
@[simp] theorem State.setInProgress_ie (b : Bool) : (s.setInProgress b).ie = s.ie := rfl
@[simp] theorem State.setInProgress_done (b : Bool) : (s.setInProgress b).done = s.done := rfl
@[simp] theorem State.setInProgress_err (b : Bool) : (s.setInProgress b).err = s.err := rfl
@[simp] theorem State.setInProgress_hac (b : Bool) : (s.setInProgress b).hac = s.hac := rfl
@[simp] theorem State.setInProgress_entry (b : Bool) : (s.setInProgress b).entry = s.entry := rfl
@[simp] theorem State.setInProgress_cause (b : Bool) : (s.setInProgress b).cause = s.cause := rfl
@[simp] theorem State.setInProgress_epc (b : Bool) : (s.setInProgress b).epc = s.epc := rfl
@[simp] theorem State.setInProgress_einfo (b : Bool) : (s.setInProgress b).einfo = s.einfo := rfl
@[simp] theorem State.setInProgress_imem (b : Bool) : (s.setInProgress b).imem = s.imem := rfl
@[simp] theorem State.setInProgress_dmem (b : Bool) : (s.setInProgress b).dmem = s.dmem := rfl
@[simp] theorem State.setInProgress_host (b : Bool) : (s.setInProgress b).host = s.host := rfl
@[simp] theorem State.setInProgress_hostRead (b : Bool) : (s.setInProgress b).hostRead = s.hostRead := rfl
@[simp] theorem State.setInProgress_freeCount (b : Bool) : (s.setInProgress b).freeCount = s.freeCount := rfl
@[simp] theorem State.setInProgress_getF (b : Bool) (r : FReg) : (s.setInProgress b).getF r = s.getF r := rfl
@[simp] theorem State.setInProgress_getS (b : Bool) (r : SReg) : (s.setInProgress b).getS r = s.getS r := rfl
@[simp] theorem State.setInProgress_getP (b : Bool) (r : PReg) : (s.setInProgress b).getP r = s.getP r := rfl
@[simp] theorem State.setInProgress_getN (b : Bool) (r : NReg) : (s.setInProgress b).getN r = s.getN r := rfl
@[simp] theorem State.setInProgress_getM (b : Bool) (r : MReg) : (s.setInProgress b).getM r = s.getM r := rfl

/-- Setting what already holds changes nothing. -/
theorem State.setInProgress_self {b : Bool} (h : s.inProgress = b) : s.setInProgress b = s := by
  subst h; rfl

/-! ## takeAbort -/

@[simp] theorem State.takeAbort_f : (s.takeAbort).f = s.f := rfl
@[simp] theorem State.takeAbort_sc : (s.takeAbort).sc = s.sc := rfl
@[simp] theorem State.takeAbort_p : (s.takeAbort).p = s.p := rfl
@[simp] theorem State.takeAbort_n : (s.takeAbort).n = s.n := rfl
@[simp] theorem State.takeAbort_m : (s.takeAbort).m = s.m := rfl
@[simp] theorem State.takeAbort_pc : (s.takeAbort).pc = s.pc := rfl
@[simp] theorem State.takeAbort_lc : (s.takeAbort).lc = s.lc := rfl
@[simp] theorem State.takeAbort_ar : (s.takeAbort).ar = s.ar := rfl
@[simp] theorem State.takeAbort_run : (s.takeAbort).run = .idle := rfl
@[simp] theorem State.takeAbort_abortLatch : (s.takeAbort).abortLatch = false := rfl
@[simp] theorem State.takeAbort_inProgress : (s.takeAbort).inProgress = s.inProgress := rfl
@[simp] theorem State.takeAbort_ie : (s.takeAbort).ie = s.ie := rfl
@[simp] theorem State.takeAbort_done : (s.takeAbort).done = s.done := rfl
@[simp] theorem State.takeAbort_err : (s.takeAbort).err = true := rfl
@[simp] theorem State.takeAbort_hac : (s.takeAbort).hac = s.hac := rfl
@[simp] theorem State.takeAbort_entry : (s.takeAbort).entry = s.entry := rfl
@[simp] theorem State.takeAbort_cause : (s.takeAbort).cause = 8 := rfl
@[simp] theorem State.takeAbort_epc : (s.takeAbort).epc = s.pc := rfl
@[simp] theorem State.takeAbort_einfo : (s.takeAbort).einfo = 0 := rfl
@[simp] theorem State.takeAbort_imem : (s.takeAbort).imem = s.imem := rfl
@[simp] theorem State.takeAbort_dmem : (s.takeAbort).dmem = s.dmem := rfl
@[simp] theorem State.takeAbort_host : (s.takeAbort).host = s.host := rfl
@[simp] theorem State.takeAbort_hostRead : (s.takeAbort).hostRead = s.hostRead := rfl
@[simp] theorem State.takeAbort_freeCount : (s.takeAbort).freeCount = s.freeCount := rfl
@[simp] theorem State.takeAbort_getF (r : FReg) : (s.takeAbort).getF r = s.getF r := rfl
@[simp] theorem State.takeAbort_getS (r : SReg) : (s.takeAbort).getS r = s.getS r := rfl
@[simp] theorem State.takeAbort_getP (r : PReg) : (s.takeAbort).getP r = s.getP r := rfl
@[simp] theorem State.takeAbort_getN (r : NReg) : (s.takeAbort).getN r = s.getN r := rfl
@[simp] theorem State.takeAbort_getM (r : MReg) : (s.takeAbort).getM r = s.getM r := rfl

/-! ## start -/

@[simp] theorem State.start_f : (s.start).f = s.f := rfl
@[simp] theorem State.start_sc : (s.start).sc = s.sc := rfl
@[simp] theorem State.start_p : (s.start).p = s.p := rfl
@[simp] theorem State.start_n : (s.start).n = s.n := rfl
@[simp] theorem State.start_m : (s.start).m = s.m := rfl
@[simp] theorem State.start_pc : (s.start).pc = s.entry := rfl
@[simp] theorem State.start_lc : (s.start).lc = s.lc := rfl
@[simp] theorem State.start_ar : (s.start).ar = s.ar := rfl
@[simp] theorem State.start_run : (s.start).run = .running := rfl
@[simp] theorem State.start_abortLatch : (s.start).abortLatch = false := rfl
@[simp] theorem State.start_inProgress : (s.start).inProgress = s.inProgress := rfl
@[simp] theorem State.start_ie : (s.start).ie = s.ie := rfl
@[simp] theorem State.start_done : (s.start).done = false := rfl
@[simp] theorem State.start_err : (s.start).err = false := rfl
@[simp] theorem State.start_hac : (s.start).hac = s.hac := rfl
@[simp] theorem State.start_entry : (s.start).entry = s.entry := rfl
@[simp] theorem State.start_cause : (s.start).cause = 0 := rfl
@[simp] theorem State.start_epc : (s.start).epc = s.epc := rfl
@[simp] theorem State.start_einfo : (s.start).einfo = s.einfo := rfl
@[simp] theorem State.start_imem : (s.start).imem = s.imem := rfl
@[simp] theorem State.start_dmem : (s.start).dmem = s.dmem := rfl
@[simp] theorem State.start_host : (s.start).host = s.host := rfl
@[simp] theorem State.start_hostRead : (s.start).hostRead = s.hostRead := rfl
@[simp] theorem State.start_freeCount : (s.start).freeCount = s.freeCount := rfl
@[simp] theorem State.start_getF (r : FReg) : (s.start).getF r = s.getF r := rfl
@[simp] theorem State.start_getS (r : SReg) : (s.start).getS r = s.getS r := rfl
@[simp] theorem State.start_getP (r : PReg) : (s.start).getP r = s.getP r := rfl
@[simp] theorem State.start_getN (r : NReg) : (s.start).getN r = s.getN r := rfl
@[simp] theorem State.start_getM (r : MReg) : (s.start).getM r = s.getM r := rfl

/-! ## conflict -/

@[simp] theorem State.conflict_f : (s.conflict).f = s.f := rfl
@[simp] theorem State.conflict_sc : (s.conflict).sc = s.sc := rfl
@[simp] theorem State.conflict_p : (s.conflict).p = s.p := rfl
@[simp] theorem State.conflict_n : (s.conflict).n = s.n := rfl
@[simp] theorem State.conflict_m : (s.conflict).m = s.m := rfl
@[simp] theorem State.conflict_pc : (s.conflict).pc = s.pc := rfl
@[simp] theorem State.conflict_lc : (s.conflict).lc = s.lc := rfl
@[simp] theorem State.conflict_ar : (s.conflict).ar = s.ar := rfl
@[simp] theorem State.conflict_run : (s.conflict).run = s.run := rfl
@[simp] theorem State.conflict_abortLatch : (s.conflict).abortLatch = s.abortLatch := rfl
@[simp] theorem State.conflict_inProgress : (s.conflict).inProgress = s.inProgress := rfl
@[simp] theorem State.conflict_ie : (s.conflict).ie = s.ie := rfl
@[simp] theorem State.conflict_done : (s.conflict).done = s.done := rfl
@[simp] theorem State.conflict_err : (s.conflict).err = s.err := rfl
@[simp] theorem State.conflict_hac : (s.conflict).hac = true := rfl
@[simp] theorem State.conflict_entry : (s.conflict).entry = s.entry := rfl
@[simp] theorem State.conflict_cause : (s.conflict).cause = s.cause := rfl
@[simp] theorem State.conflict_epc : (s.conflict).epc = s.epc := rfl
@[simp] theorem State.conflict_einfo : (s.conflict).einfo = s.einfo := rfl
@[simp] theorem State.conflict_imem : (s.conflict).imem = s.imem := rfl
@[simp] theorem State.conflict_dmem : (s.conflict).dmem = s.dmem := rfl
@[simp] theorem State.conflict_host : (s.conflict).host = s.host := rfl
@[simp] theorem State.conflict_hostRead : (s.conflict).hostRead = s.hostRead := rfl
@[simp] theorem State.conflict_freeCount : (s.conflict).freeCount = s.freeCount := rfl
@[simp] theorem State.conflict_getF (r : FReg) : (s.conflict).getF r = s.getF r := rfl
@[simp] theorem State.conflict_getS (r : SReg) : (s.conflict).getS r = s.getS r := rfl
@[simp] theorem State.conflict_getP (r : PReg) : (s.conflict).getP r = s.getP r := rfl
@[simp] theorem State.conflict_getN (r : NReg) : (s.conflict).getN r = s.getN r := rfl
@[simp] theorem State.conflict_getM (r : MReg) : (s.conflict).getM r = s.getM r := rfl

/-! ## A register read after a write of its file -/

theorem State.getF_setF (i r : FReg) (v : Fe) :
    (s.setF i v).getF r = if i = r then v else s.getF r := by
  simp [State.getF, State.setF, Vector.getElem_set, Fin.ext_iff]

@[simp] theorem State.getF_setF_same (i : FReg) (v : Fe) : (s.setF i v).getF i = v := by
  simp [State.getF_setF]

theorem State.getF_setF_ne {i r : FReg} (v : Fe) (h : r ≠ i) : (s.setF i v).getF r = s.getF r := by
  simp [State.getF_setF, h.symm]

theorem State.getS_setS (i r : SReg) (v : Sc) :
    (s.setS i v).getS r = if i = r then v else s.getS r := by
  simp [State.getS, State.setS, Vector.getElem_set, Fin.ext_iff]

@[simp] theorem State.getS_setS_same (i : SReg) (v : Sc) : (s.setS i v).getS i = v := by
  simp [State.getS_setS]

theorem State.getS_setS_ne {i r : SReg} (v : Sc) (h : r ≠ i) : (s.setS i v).getS r = s.getS r := by
  simp [State.getS_setS, h.symm]

theorem State.getP_setP (i r : PReg) (v : PointReg) :
    (s.setP i v).getP r = if i = r then v else s.getP r := by
  simp [State.getP, State.setP, Vector.getElem_set, Fin.ext_iff]

@[simp] theorem State.getP_setP_same (i : PReg) (v : PointReg) : (s.setP i v).getP i = v := by
  simp [State.getP_setP]

theorem State.getP_setP_ne {i r : PReg} (v : PointReg) (h : r ≠ i) : (s.setP i v).getP r = s.getP r := by
  simp [State.getP_setP, h.symm]

theorem State.getN_setN (i r : NReg) (v : Niels) :
    (s.setN i v).getN r = if i = r then v else s.getN r := by
  simp [State.getN, State.setN, Vector.getElem_set, Fin.ext_iff]

@[simp] theorem State.getN_setN_same (i : NReg) (v : Niels) : (s.setN i v).getN i = v := by
  simp [State.getN_setN]

theorem State.getN_setN_ne {i r : NReg} (v : Niels) (h : r ≠ i) : (s.setN i v).getN r = s.getN r := by
  simp [State.getN_setN, h.symm]

theorem State.getM_setM (i r : MReg) (v : BitVec 32) :
    (s.setM i v).getM r = if i = r then v else s.getM r := by
  simp [State.getM, State.setM, Vector.getElem_set, Fin.ext_iff]

@[simp] theorem State.getM_setM_same (i : MReg) (v : BitVec 32) : (s.setM i v).getM i = v := by
  simp [State.getM_setM]

theorem State.getM_setM_ne {i r : MReg} (v : BitVec 32) (h : r ≠ i) : (s.setM i v).getM r = s.getM r := by
  simp [State.getM_setM, h.symm]

end Sys2Proof.Machine
end

