-- ==== Sys2Proof/Laws/Frame.lean ====
section
/-! SUPPORT. The frame `OnlyWrites` through each update of State: a chain of updates that writes only what
w names satisfies it. -/

namespace Sys2Proof.Machine

variable {w : Writes} {s t : State}

theorem SameControl.refl (s : State) : SameControl s s :=
  ⟨rfl, rfl, rfl, rfl, rfl, rfl, rfl, rfl, rfl, rfl, rfl, rfl, rfl, rfl, rfl⟩

theorem OnlyWrites.refl (w : Writes) (s : State) : OnlyWrites w s s :=
  ⟨fun _ _ => rfl, fun _ _ => rfl, fun _ _ => rfl, fun _ _ => rfl, fun _ _ => rfl, fun _ => rfl, fun _ => rfl,
    fun _ _ => rfl, SameControl.refl s⟩

theorem OnlyWrites.setF {d : FReg} (v : Fe) (hd : d ∈ w.f) (h : OnlyWrites w s t) : OnlyWrites w s (t.setF d v) := by
  obtain ⟨hf, h1, h2, h3, h4, h5, h6, h7, h8⟩ := h
  exact ⟨fun r hr => (State.getF_setF_ne t (i := d) (r := r) v (by rintro rfl; exact hr hd)).trans (hf r hr),
    h1, h2, h3, h4, h5, h6, h7, h8⟩

theorem OnlyWrites.setS {d : SReg} (v : Sc) (hd : d ∈ w.sc) (h : OnlyWrites w s t) : OnlyWrites w s (t.setS d v) := by
  obtain ⟨h1, hf, h2, h3, h4, h5, h6, h7, h8⟩ := h
  exact ⟨h1, fun r hr => (State.getS_setS_ne t (i := d) (r := r) v (by rintro rfl; exact hr hd)).trans (hf r hr),
    h2, h3, h4, h5, h6, h7, h8⟩

theorem OnlyWrites.setP {d : PReg} (v : PointReg) (hd : d ∈ w.p) (h : OnlyWrites w s t) :
    OnlyWrites w s (t.setP d v) := by
  obtain ⟨h1, h2, hf, h3, h4, h5, h6, h7, h8⟩ := h
  exact ⟨h1, h2, fun r hr => (State.getP_setP_ne t (i := d) (r := r) v (by rintro rfl; exact hr hd)).trans (hf r hr),
    h3, h4, h5, h6, h7, h8⟩

theorem OnlyWrites.setN {d : NReg} (v : Niels) (hd : d ∈ w.n) (h : OnlyWrites w s t) :
    OnlyWrites w s (t.setN d v) := by
  obtain ⟨h1, h2, h3, hf, h4, h5, h6, h7, h8⟩ := h
  exact ⟨h1, h2, h3, fun r hr => (State.getN_setN_ne t (i := d) (r := r) v (by rintro rfl; exact hr hd)).trans (hf r hr),
    h4, h5, h6, h7, h8⟩

theorem OnlyWrites.setM {d : MReg} (v : BitVec 32) (hd : d ∈ w.m) (h : OnlyWrites w s t) :
    OnlyWrites w s (t.setM d v) := by
  obtain ⟨h1, h2, h3, h4, hf, h5, h6, h7, h8⟩ := h
  exact ⟨h1, h2, h3, h4, fun r hr => (State.getM_setM_ne t (i := d) (r := r) v (by rintro rfl; exact hr hd)).trans (hf r hr),
    h5, h6, h7, h8⟩

theorem OnlyWrites.setLc (v : BitVec 16) (hl : w.lc = true) (h : OnlyWrites w s t) :
    OnlyWrites w s (t.setLc v) := by
  obtain ⟨h1, h2, h3, h4, h5, _, h7, h8, h9⟩ := h
  exact ⟨h1, h2, h3, h4, h5, fun h => by simp [hl] at h, h7, h8, h9⟩

theorem OnlyWrites.setAr (v : BitVec 16) (hl : w.ar = true) (h : OnlyWrites w s t) :
    OnlyWrites w s (t.setAr v) := by
  obtain ⟨h1, h2, h3, h4, h5, h6, _, h8, h9⟩ := h
  exact ⟨h1, h2, h3, h4, h5, h6, fun h => by simp [hl] at h, h8, h9⟩

/-- A store inside the named bytes. -/
theorem OnlyWrites.storeLE {a n : Nat} (v : Nat) (ha : w.start ≤ a) (hn : a + n ≤ w.start + w.len)
    (h : OnlyWrites w s t) : OnlyWrites w s (t.storeLE a n v) := by
  obtain ⟨h1, h2, h3, h4, h5, h6, h7, h8, h9⟩ := h
  exact ⟨h1, h2, h3, h4, h5, h6, h7, fun b hb => (Memory.read_writeLE_outside t.dmem v (by omega)).trans (h8 b hb), h9⟩

/-- A store on its own. -/
theorem onlyWrites_storeLE (s : State) (a n v : Nat) : OnlyWrites { start := a, len := n } s (s.storeLE a n v) :=
  (OnlyWrites.refl _ s).storeLE v (Nat.le_refl a) (Nat.le_refl (a + n))

theorem OnlyWrites.advance (h : OnlyWrites w s t) : OnlyWrites w s t.advance := h

theorem OnlyWrites.branch (off : BitVec 16) (h : OnlyWrites w s t) : OnlyWrites w s (t.branch off) := h

theorem OnlyWrites.setGroup {g : FGroup} (a b c d : Fe) (hg : ∀ k : Fin 4, groupReg g k ∈ w.f)
    (h : OnlyWrites w s t) : OnlyWrites w s (t.setGroup g a b c d) :=
  (((h.setF a (hg 0)).setF b (hg 1)).setF c (hg 2)).setF d (hg 3)

/-- A command that answers `complete u` with pc as before completes. -/
theorem completes_of {i : Instr} {u : State} {post : State → Prop} (he : exec i s = complete u)
    (hpc : u.pc = s.pc) (hw : OnlyWrites w s u) (hp : post u.advance) : Completes i s w post :=
  ⟨u.advance, he, by rw [State.advance_pc, hpc], hw, hp⟩

end Sys2Proof.Machine
end

