-- ==== Sys2Proof/Laws/Ops.lean ====
section
/-! SUPPORT. One lemma for each shared operation: everything it can answer. Proofs cite these and do not
unfold the operation. -/

namespace Sys2Proof.Machine

/-! ## Words of memory -/

theorem readLE_eq_bytesValue (mem : Memory) (a n : Nat) : mem.readLE a n = bytesValue mem a n := by
  induction n generalizing a with
  | zero => rfl
  | succ n ih =>
    rw [Memory.readLE, ih, bytesValue, bytesValue, List.range_succ_eq_map, List.map_cons, List.sum_cons,
      List.map_map, pow_zero, mul_one, Nat.add_zero, ← List.sum_map_mul_left]
    congr 3
    funext i
    simp only [Function.comp, Nat.succ_eq_add_one, pow_succ', Nat.add_assoc, Nat.add_comm 1]
    ring

theorem holdsBytes_writeLE {mem : Memory} (hw : mem.wf = true) (a n v : Nat) :
    HoldsBytes (mem.writeLE a n v) a n v := fun k hk => by
  rw [Memory.read_writeLE v hw hk]
  apply BitVec.eq_of_toNat_eq
  simp

/-- What a store leaves in DMEM. -/
theorem holdsBytes_storeLE {s : State} (hw : s.dmem.wf = true) (a n v : Nat) :
    HoldsBytes (s.storeLE a n v).advance.dmem a n v := by
  rw [State.advance_dmem, State.storeLE_dmem]
  exact holdsBytes_writeLE hw a n v

/-- A load of what was just stored. -/
theorem loadLE_storeLE {s : State} (hw : s.dmem.wf = true) (a n : Nat) {v : Nat} (hv : v < 256 ^ n) :
    (s.storeLE a n v).advance.loadLE a n = v := by
  rw [State.loadLE, State.advance_dmem, State.storeLE_dmem, Memory.readLE_writeLE _ _ _ hw, Nat.mod_eq_of_lt hv]

/-- The IMEM word i is the little-endian value of its eight bytes. -/
theorem imemWord_eq (s : State) (i : Nat) : s.imemWord i = BitVec.ofNat 64 (bytesValue s.imem (8 * i) 8) := by
  rw [State.imemWord, readLE_eq_bytesValue]

/-! ## Masks -/

theorem maskOf_eq (b : Bool) : maskOf b = if b = true then 0xFFFFFFFF else 0x00000000 := rfl

@[simp] theorem maskOf_decide (p : Prop) [Decidable p] :
    maskOf (decide p) = if p then 0xFFFFFFFF else 0x00000000 := by simp [maskOf, ones]

theorem maskOf_legal (b : Bool) : maskOf b = 0 ∨ maskOf b = ones := by cases b <;> simp [maskOf]

theorem maskTrue_iff (s : State) (c : MReg) : s.maskTrue c = true ↔ s.getM c = 0xFFFFFFFF := by
  simp [State.maskTrue, ones]

theorem maskFalse_iff (s : State) (c : MReg) : s.maskFalse c = true ↔ s.getM c = 0x00000000 := by
  simp [State.maskFalse]

/-! ## Operands -/

/-- The effective address, before the checks (20_memory.md R210). -/
theorem effAddr_toNat (s : State) (am : Bool) (base : BitVec 16) :
    (s.effAddr am base).toNat = (base.toNat + if am then s.ar.toNat else 0) % 2 ^ 16 := by
  cases am
  · simpa [State.effAddr] using (Nat.mod_eq_of_lt base.isLt).symm
  · simp [State.effAddr, BitVec.toNat_add]

/-- The effective address reads only ar. -/
theorem effAddr_congr {s t : State} (h : t.ar = s.ar) (am : Bool) (base : BitVec 16) :
    t.effAddr am base = s.effAddr am base := by rw [State.effAddr, State.effAddr, h]

theorem memoryCommand_good {n : Nat} {am : Bool} {base : BitVec 16} {s : State} (act : Nat → State)
    (h : GoodAddress n am base s) :
    memoryCommand n am base s act = complete (act (s.effAddr am base).toNat) := by
  obtain ⟨h1, h2⟩ := h
  simp [memoryCommand, h1, Config.dmemBytes, Nat.not_lt.mpr h2]

theorem memoryCommand_misaligned {n : Nat} {am : Bool} {base : BitVec 16} {s : State} (act : Nat → State)
    (h : (s.effAddr am base).toNat % 4 ≠ 0) :
    memoryCommand n am base s act = raised s .dmemMisaligned ((s.effAddr am base).setWidth 32) := by
  simp [memoryCommand, h]

theorem memoryCommand_range {n : Nat} {am : Bool} {base : BitVec 16} {s : State} (act : Nat → State)
    (h : (s.effAddr am base).toNat % 4 = 0) (h2 : 4096 < (s.effAddr am base).toNat + n) :
    memoryCommand n am base s act = raised s .dmemRange ((s.effAddr am base).setWidth 32) := by
  simp [memoryCommand, h, Config.dmemBytes, h2]

/-- Everything a memory command can answer. -/
theorem memoryCommand_cases (n : Nat) (am : Bool) (base : BitVec 16) (s : State) (act : Nat → State) :
    (GoodAddress n am base s ∧ memoryCommand n am base s act = complete (act (s.effAddr am base).toNat)) ∨
    memoryCommand n am base s act = raised s .dmemMisaligned ((s.effAddr am base).setWidth 32) ∨
    memoryCommand n am base s act = raised s .dmemRange ((s.effAddr am base).setWidth 32) := by
  by_cases h1 : (s.effAddr am base).toNat % 4 = 0
  · by_cases h2 : (s.effAddr am base).toNat + n ≤ 4096
    · exact .inl ⟨⟨h1, h2⟩, memoryCommand_good act ⟨h1, h2⟩⟩
    · exact .inr (.inr (memoryCommand_range act h1 (by omega)))
  · exact .inr (.inl (memoryCommand_misaligned act h1))

theorem withFreshT_fresh {a : PReg} {s : State} (k : ExtPoint → Result) (h : (s.getP a).ts = false) :
    withFreshT a s k = k (s.getP a).coords := by simp [withFreshT, h]

theorem withFreshT_stale {a : PReg} {s : State} (k : ExtPoint → Result) (h : (s.getP a).ts = true) :
    withFreshT a s k = raised s .staleT (BitVec.ofNat 32 a.val) := by simp [withFreshT, h]

@[simp] theorem groupReg_val (g : FGroup) (k : Fin 4) : (groupReg g k).val = g.val + k.val := rfl

/-- A group just written reads back. -/
theorem getGroup_setGroup (s : State) (g : FGroup) (a b c d : Fe) (k : Fin 4) :
    (s.setGroup g a b c d).getGroup g k = match k with | 0 => a | 1 => b | 2 => c | 3 => d := by
  have h : ∀ i j : Fin 4, groupReg g i = groupReg g j ↔ i = j := fun i j => by
    simp [Fin.ext_iff]
  fin_cases k <;> simp [State.setGroup, State.getGroup, State.getF_setF, h]

/-! ## The memory commands at a good address -/

section
variable {am : Bool} {base : BitVec 16} {s : State}

theorem execMld_good {d : MReg} (h : GoodAddress 4 am base s) : execMld d am base s =
    complete (s.setM d (maskOf (s.loadLE (s.effAddr am base).toNat 4 != 0))) := memoryCommand_good _ h

theorem execMst_good {a : MReg} (h : GoodAddress 4 am base s) : execMst a am base s =
    complete (s.storeLE (s.effAddr am base).toNat 4 (s.getM a).toNat) := memoryCommand_good _ h

theorem execFld_good {d : FReg} {c : MReg} (h : GoodAddress 56 am base s) : execFld d c am base s =
    complete (s.decodeField d c (s.loadLE (s.effAddr am base).toNat 56)) := memoryCommand_good _ h

theorem execFldm_good {d : FReg} {c : MReg} {strip : BitVec 8} (h : GoodAddress 57 am base s) :
    execFldm d c am strip base s = complete (s.decodeField d c (strippedValue
      (s.loadLE (s.effAddr am base).toNat 56) (s.loadLE ((s.effAddr am base).toNat + 56) 1) strip)) :=
  memoryCommand_good _ h

theorem execFst_good {a : FReg} (h : GoodAddress 56 am base s) : execFst a am base s =
    complete (s.storeLE (s.effAddr am base).toNat 56 (s.getF a).val) := memoryCommand_good _ h

theorem execSld_good {d : SReg} {c : MReg} (h : GoodAddress 56 am base s) : execSld d c am base s =
    complete ((s.setS d (Sc.ofNat (s.loadLE (s.effAddr am base).toNat 56))).setM c
      (maskOf (s.loadLE (s.effAddr am base).toNat 56 < orderL))) := memoryCommand_good _ h

theorem execSst_good {a : SReg} (h : GoodAddress 56 am base s) : execSst a am base s =
    complete (s.storeLE (s.effAddr am base).toNat 56 (s.getS a).val) := memoryCommand_good _ h

end

/-- A field decode writes the residue and the mask of the value's being below p. -/
theorem getF_decodeField (s : State) (d : FReg) (c : MReg) (v : Nat) :
    ((s.decodeField d c v).getF d).val = v % fieldP := by
  rw [State.decodeField, State.setM_getF, State.getF_setF_same]; rfl

theorem getM_decodeField (s : State) (d : FReg) (c : MReg) (v : Nat) :
    (s.decodeField d c v).getM c = if v < fieldP then 0xFFFFFFFF else 0x00000000 := by
  rw [State.decodeField, State.getM_setM_same, maskOf_decide]

/-- The value FLDM decodes: 56 bytes and the last byte without the stripped bits. -/
theorem strippedValue_eq (s : State) (ea : Nat) (strip : BitVec 8) :
    strippedValue (s.loadLE ea 56) (s.loadLE (ea + 56) 1) strip =
      bytesValue s.dmem ea 56 + (s.dmem.read (ea + 56) &&& ~~~strip).toNat * 256 ^ 56 := by
  rw [strippedValue, State.loadLE, readLE_eq_bytesValue, State.loadLE]
  simp only [Memory.readLE, Nat.mul_zero, Nat.add_zero, BitVec.ofNat_toNat, BitVec.setWidth_eq]

/-! ## The core's turn -/

theorem coreTurn_idle {s : State} (h : s.run = .idle) : coreTurn s = .next s := by simp [coreTurn, h]

theorem coreTurn_abort {s : State} (h : s.run = .running) (hp : s.inProgress = false) (ha : s.abortLatch = true) :
    coreTurn s = .next s.takeAbort := by simp [coreTurn, h, hp, ha]

/-- The command at pc runs where it is in progress, latch or not, and at a boundary without the latch. -/
theorem coreTurn_command {s : State} (h : s.run = .running) (hc : s.inProgress = true ∨ s.abortLatch = false) :
    coreTurn s = runCommand (s.setInProgress false) := by
  cases hp : s.inProgress with
  | true => simp [coreTurn, h, hp]
  | false =>
    simp [coreTurn, h, hp, State.setInProgress_self s hp, hc.resolve_left (by simp [hp])]

theorem passBoundary_idle {s : State} (h : s.run = .idle) : s.passBoundary = s := by simp [State.passBoundary, h]

theorem passBoundary_abort {s : State} (h : s.run = .running) (hp : s.inProgress = false)
    (ha : s.abortLatch = true) : s.passBoundary = s.takeAbort := by simp [State.passBoundary, h, hp, ha]

theorem passBoundary_command {s : State} (h : s.run = .running) (hc : s.inProgress = true ∨ s.abortLatch = false) :
    s.passBoundary = s.setInProgress true := by
  cases hp : s.inProgress with
  | true => simp [State.passBoundary, h, hp, State.setInProgress_self s hp]
  | false => simp [State.passBoundary, h, hp, hc.resolve_left (by simp [hp])]

/-- Passing the boundary and then taking a turn is one turn of the core: the boundary alone decides only which
host accesses fall inside the command. -/
theorem coreTurn_passBoundary {s : State} (hc : s.inProgress = true ∨ s.abortLatch = false) :
    coreTurn s.passBoundary = coreTurn s := by
  cases h : s.run with
  | idle => rw [passBoundary_idle h]
  | running => rw [passBoundary_command h hc, coreTurn_command h hc, coreTurn_command (by simpa using h) (by simp)]; rfl

theorem runCommand_range {s : State} (h : 512 ≤ s.pc.toNat) :
    runCommand s = raised s .pcRange (s.pc.setWidth 32) := by simp [runCommand, Config.imemWords, h]

theorem runCommand_decoded {s : State} {i : Instr} (h : s.pc.toNat < 512)
    (hd : decode (s.imemWord s.pc.toNat) = .ok i) : runCommand s = exec i s := by
  simp [runCommand, Config.imemWords, Nat.not_le.mpr h, hd]

theorem runCommand_rejected {s : State} {e : DecodeError} (h : s.pc.toNat < 512)
    (hd : decode (s.imemWord s.pc.toNat) = .error e) : runCommand s = raisedDecode s e := by
  simp [runCommand, Config.imemWords, Nat.not_le.mpr h, hd]

theorem step_silent {s : State} (h : s.host = []) : step s = coreTurn s := by simp [step, machineStep, h]

theorem step_letCoreStep {s : State} {rest : List HostAction} (h : s.host = .letCoreStep :: rest) :
    step s = coreTurn { s with host := rest } := by simp [step, machineStep, h]

theorem step_letCoreBegin {s : State} {rest : List HostAction} (h : s.host = .letCoreBegin :: rest) :
    step s = .next { s with host := rest }.passBoundary := by simp [step, machineStep, h]

theorem step_write {s : State} {offset : BitVec 14} {size : AccessSize} {v : BitVec 32} {rest : List HostAction}
    (h : s.host = .write offset size v :: rest) :
    step s = .next ({ s with host := rest }.hostWrite offset size v) := by simp [step, machineStep, h]

theorem step_read {s : State} {offset : BitVec 14} {size : AccessSize} {rest : List HostAction}
    (h : s.host = .read offset size :: rest) :
    step s = .next ({ s with host := rest }.hostReads offset size) := by simp [step, machineStep, h]

theorem step_powerOnReset {s : State} {imemInit dmemInit : List Host.Cell} {rest : List HostAction}
    (h : s.host = .powerOnReset imemInit dmemInit :: rest) :
    step s = .next ({ s with host := rest }.powerOnReset imemInit dmemInit) := by simp [step, machineStep, h]

/-! ## Decoding a packed word -/

theorem fieldF_eq_reg4 (d : FReg) : fieldF d = reg4 d := by revert d; decide

theorem field8_eq_reg4 (d : Fin 8) : field8 d = reg4 d := by revert d; decide

theorem fieldG_eq_reg4 (g : FGroup) : fieldG g = reg4 g := rfl

theorem modOf_am_eq (am : Bool) : modOf false am = modWithAM am := by revert am; decide

theorem modOf_bd_eq (bd : Bool) : modOf bd false = modWithBD bd := by revert bd; decide

theorem immOf16_eq (u : BitVec 16) : immOf16 u = u.setWidth 32 := by
  ext i hi
  simp only [immOf16, ← BitVec.getLsbD_eq_getElem, BitVec.getLsbD_append, BitVec.getLsbD_setWidth]
  grind

theorem immOf16_index {n : Nat} (i : Fin n) (h : n ≤ 6) :
    immOf16 (BitVec.ofNat 16 i.val) = BitVec.ofNat 32 i.val := by
  rw [immOf16_eq]
  apply BitVec.eq_of_toNat_eq
  simp only [BitVec.toNat_setWidth, BitVec.toNat_ofNat]
  omega

/-- Fields whose row's mask matches and whose row reads a command decode to it. -/
theorem decode_pack {f : Fields} {r : Row} {i : Instr} (hr : rowOf f.op = some r)
    (hm : f.pack &&& r.mask = r.match') (hi : r.read f = .command i) : decode f.pack = .ok i := by
  simp only [decode, Fields.op_pack, hr, Row.decode, hm, ne_eq, not_true, if_false, Fields.unpack_pack, hi]

/-! ## Loading a word for the next step -/

/-- The placed word is the one the next step fetches. -/
theorem imemWord_placeCommand {s : State} (w : CommandWord) (hw : s.imem.wf = true) :
    (s.placeCommand w).imemWord (s.placeCommand w).pc.toNat = w := by
  simp only [State.imemWord, State.placeCommand, Memory.readLE_writeLE _ _ _ hw]
  apply BitVec.eq_of_toNat_eq
  rw [Nat.mod_eq_of_lt (show w.toNat < 256 ^ 8 from w.isLt), BitVec.toNat_ofNat, Nat.mod_eq_of_lt w.isLt]

theorem pc_placeCommand_lt (s : State) (w : CommandWord) : (s.placeCommand w).pc.toNat < 512 := by
  by_cases h : s.pc.toNat < 512 <;> simp [State.placeCommand, Config.imemWords, h]

/-- The very next step runs the placed word's command. -/
theorem step_placeCommand {s : State} {w : CommandWord} {i : Instr} (hw : s.imem.wf = true)
    (hd : decode w = .ok i) : step (s.placeCommand w) = exec i (s.placeCommand w) := by
  rw [step_silent rfl, coreTurn_command rfl (.inr rfl), State.setInProgress_self (s.placeCommand w) (b := false) rfl,
    runCommand_decoded (pc_placeCommand_lt s w) (by rw [imemWord_placeCommand w hw, hd])]

end Sys2Proof.Machine
end

