-- ==== Sys2Proof/Laws/Point.lean ====
section
/-! SUPPORT. The point formulas of Edwards.lean hold the residues of the integer formulas of Safety.lean
(45_point.md R700, R701, R703), and what the point commands answer on operands whose T is fresh. -/

namespace Sys2Proof.Machine

/-! ## Residues -/

theorem residues_dbl (q : ExtPoint) (bd : Bool) : (q.ints.dbl bd).Residues (dbl q bd) := by
  simp only [IntPoint.Residues, IntPoint.dbl, dbl, ExtPoint.ints, Fe.val_eq_emod_iff]
  refine ⟨?_, ?_, ?_, ?_⟩
  · simp; ring
  · simp; ring
  · simp; ring
  · cases bd
    · simp; ring
    · simp

theorem residues_addCore (q : ExtPoint) {n : Niels} {m : IntNiels} {dv : Fe} {dvi : Int} (bd : Bool)
    (h : dv.toZ = (dvi : ZMod fieldP)) (h1 : n.ypx.toZ = m.ypx) (h2 : n.ymx.toZ = m.ymx) (h3 : n.t2d.toZ = m.t2d) :
    (q.ints.addCore m dvi bd).Residues (addCore q n dv bd) := by
  simp only [IntPoint.Residues, IntPoint.addCore, addCore, ExtPoint.ints, Fe.val_eq_emod_iff]
  refine ⟨?_, ?_, ?_, ?_⟩
  · simp [h, h1, h2, h3]
  · simp [h, h1, h2, h3]
  · simp [h, h3]
  · cases bd
    · simp [h1, h2]
    · simp

theorem residues_toPN (q : ExtPoint) : q.ints.toPN.Residues (toPN q) := by
  simp only [IntNiels.Residues, IntPoint.toPN, toPN, ExtPoint.ints, Fe.val_eq_emod_iff]
  refine ⟨by simp, by simp, ?_, by simp⟩
  simp [curveD]
  ring

theorem residues_negN (n : Niels) : n.ints.neg.Residues (negN n) := by
  simp only [IntNiels.Residues, IntNiels.neg, negN, Niels.ints, Fe.val_eq_emod_iff]
  refine ⟨?_, ?_, ?_, ?_⟩ <;> simp

/-! ## The base point's check -/

theorem fe_eq_ofNat_iff (x : Fe) (n : Nat) (hn : n < fieldP) : x = Fe.ofNat n ↔ (x.val : Int) = n := by
  rw [Fin.ext_iff, Fe.ofNat]
  simp only [Nat.mod_eq_of_lt hn, Int.natCast_inj]

/-- The curve equation of 00_scope.md R16, on integers. -/
theorem onCurve_iff (b : AffinePoint) : b.onCurve = true ↔
    (-(b.x.val : Int) ^ 2 + (b.y.val : Int) ^ 2) % fieldP =
      (1 + -39082 * (b.x.val : Int) ^ 2 * (b.y.val : Int) ^ 2) % fieldP := by
  rw [AffinePoint.onCurve, beq_iff_eq, ← Fe.toZ_inj, ← Int.ModEq, ← ZMod.intCast_eq_intCast_iff]
  simp only [Fe.toZ_mul, Fe.toZ_sub, Fe.toZ_add, Fe.toZ_one, curveD, Fe.toZ_ofInt]
  push_cast
  simp only [Fe.natCast_val]
  constructor <;> intro h <;> linear_combination h

/-- Coordinates of the identity, on integers. -/
theorem isIdentity_iff (q : ExtPoint) :
    q.isIdentity = true ↔ q.ints.x = 0 ∧ q.ints.y = q.ints.z ∧ q.ints.z ≠ 0 := by
  simp only [ExtPoint.isIdentity, ExtPoint.ints, Bool.and_eq_true, beq_iff_eq, bne_iff_ne, ne_eq, and_assoc,
    Fe.zero, fe_eq_ofNat_iff _ 0 fieldP_pos, Int.natCast_inj, ← Fin.ext_iff]
  simp

/-- A legal base point is on the curve, L times it is the identity, and it is not the identity. -/
theorem legalBase_iff (b : AffinePoint) : b.legalBase = true ↔ b.onCurve = true ∧
    (multipleBits b 450 orderL).isIdentity = true ∧ ¬ ((b.x.val : Int) = 0 ∧ (b.y.val : Int) = 1) := by
  have h := fe_eq_ofNat_iff b.x 0 fieldP_pos
  have h' := fe_eq_ofNat_iff b.y 1 (by decide)
  obtain ⟨x, y⟩ := b
  simp only [AffinePoint.legalBase, AffinePoint.hasOrderL, Bool.and_eq_true, bne_iff_ne, ne_eq, AffinePoint.mk.injEq,
    Fe.zero, Fe.one]
  simp only [h, h', Nat.cast_zero, Nat.cast_one]

theorem residues_self (n : Niels) : n.ints.Residues n := by
  simp only [IntNiels.Residues, Niels.ints, Fe.val_eq_emod_iff]
  refine ⟨?_, ?_, ?_, ?_⟩ <;> simp

theorem residues_addPN (q : ExtPoint) {n : Niels} {m : IntNiels} (bd : Bool) (h : m.Residues n) :
    (q.ints.addPN m bd).Residues (addPN q n bd) := by
  obtain ⟨h1, h2, h3, h4⟩ := h
  rw [Fe.val_eq_emod_iff] at h1 h2 h3 h4
  exact residues_addCore q bd (by simp [ExtPoint.ints, h4]) h1 h2 h3

theorem residues_addN (q : ExtPoint) {n : Niels} {m : IntNiels} (bd : Bool) (h : m.Residues n) :
    (q.ints.addN m bd).Residues (addN q n bd) := by
  obtain ⟨h1, h2, h3, _⟩ := h
  rw [Fe.val_eq_emod_iff] at h1 h2 h3
  exact residues_addCore q bd (by simp [ExtPoint.ints]) h1 h2 h3

/-! ## The commands on a fresh T -/

section
variable {a b : PReg} {s : State}

theorem execPaddn_fresh {d : PReg} {n : NReg} {bd : Bool} (h : (s.getP a).ts = false) :
    execPaddn d a n bd s = complete (s.setP d ⟨addN (s.getP a).coords (s.getN n) bd, bd⟩) := withFreshT_fresh _ h

theorem execPsubn_fresh {d : PReg} {n : NReg} {bd : Bool} (h : (s.getP a).ts = false) :
    execPsubn d a n bd s = complete (s.setP d ⟨addN (s.getP a).coords (negN (s.getN n)) bd, bd⟩) :=
  withFreshT_fresh _ h

theorem execPaddpn_fresh {d : PReg} {n : NReg} {bd : Bool} (h : (s.getP a).ts = false) :
    execPaddpn d a n bd s = complete (s.setP d ⟨addPN (s.getP a).coords (s.getN n) bd, bd⟩) := withFreshT_fresh _ h

theorem execPsubpn_fresh {d : PReg} {n : NReg} {bd : Bool} (h : (s.getP a).ts = false) :
    execPsubpn d a n bd s = complete (s.setP d ⟨addPN (s.getP a).coords (negN (s.getN n)) bd, bd⟩) :=
  withFreshT_fresh _ h

theorem execPadd_fresh {d : PReg} {bd : Bool} (h : (s.getP a).ts = false) (h' : (s.getP b).ts = false) :
    execPadd d a b bd s = complete (s.setP d ⟨addPN (s.getP a).coords (toPN (s.getP b).coords) bd, bd⟩) := by
  rw [execPadd, withFreshT_fresh _ h, withFreshT_fresh _ h']

theorem execPton_fresh {d : NReg} (h : (s.getP a).ts = false) :
    execPton d a s = complete (s.setN d (toPN (s.getP a).coords)) := withFreshT_fresh _ h

theorem execPvalid_fresh {d : MReg} (h : (s.getP a).ts = false) :
    execPvalid d a s = complete (s.setM d (maskOf (onCurve (s.getP a).coords))) := withFreshT_fresh _ h

theorem execPsmul_fresh {d : PReg} {k : SReg} (h : (s.getP a).ts = false) :
    execPsmul d a k s = complete (s.setP d ⟨windowMultiply (s.getP a).coords (s.getS k), false⟩) :=
  withFreshT_fresh _ h

theorem execPdsmul_fresh {d : PReg} {k l : SReg} (h : (s.getP b).ts = false) :
    execPdsmul d k b l s = complete
      (s.setP d ⟨doubleBaseMultiply basePoint (s.getS k) (s.getP b).coords (s.getS l), false⟩) :=
  withFreshT_fresh _ h

end

end Sys2Proof.Machine
end

