-- ==== Sys2Proof/Laws/Engines.lean ====
section
/-! SUPPORT. What the engines' loops and digits do (46_scalarmul.md): a loop as the sequence of its points, the
table of odd multiples, the signed entry of a digit, and the bits of a comb digit. -/

namespace Sys2Proof.Machine

/-- A loop that counts down is the sequence of points it passes through. -/
theorem loop_sequence (g : Nat → ExtPoint → ExtPoint) (l : Nat → ExtPoint → ExtPoint) (h0 : ∀ q, l 0 q = q)
    (h1 : ∀ n q, l (n + 1) q = l n (g n q)) (n : Nat) (start : ExtPoint) :
    ∃ q : Nat → ExtPoint, q n = start ∧ (∀ w < n, q w = g w (q (w + 1))) ∧ l n start = q 0 := by
  induction n generalizing start with
  | zero => exact ⟨fun _ => start, rfl, by simp, h0 start⟩
  | succ n ih =>
    obtain ⟨q, hn, hs, hl⟩ := ih (g n start)
    refine ⟨fun w => if w = n + 1 then start else q w, by simp, fun w hw => ?_, by rw [h1, hl]; simp⟩
    simp only [show w ≠ n + 1 by omega, if_false]
    by_cases hwn : w = n
    · subst hwn; simp [hn]
    · simp only [show w + 1 ≠ n + 1 by omega, if_false]; exact hs w (by omega)

theorem windowLoop_sequence (tbl : List Niels) (s n : Nat) (start : ExtPoint) : ∃ q : Nat → ExtPoint,
    q n = start ∧ (∀ w < n, q w = windowStep tbl s w (q (w + 1))) ∧ windowLoop tbl s n start = q 0 :=
  loop_sequence (windowStep tbl s) (windowLoop tbl s) (fun _ => rfl) (fun _ _ => rfl) n start

theorem combLoop_sequence (b : AffinePoint) (s n : Nat) (start : ExtPoint) : ∃ q : Nat → ExtPoint,
    q n = start ∧ (∀ i < n, q i = combStep b s i (q (i + 1))) ∧ combLoop b s n start = q 0 :=
  loop_sequence (combStep b s) (combLoop b s) (fun _ => rfl) (fun _ _ => rfl) n start

theorem doubleBaseLoop_sequence (b : AffinePoint) (cp cv : List (Nat × Int)) (tv : List Niels) (n : Nat)
    (start : ExtPoint) : ∃ q : Nat → ExtPoint, q n = start ∧
      (∀ i < n, q i = doubleBaseStep b cp cv tv i (q (i + 1))) ∧ doubleBaseLoop b cp cv tv n start = q 0 :=
  loop_sequence (doubleBaseStep b cp cv tv) (doubleBaseLoop b cp cv tv) (fun _ => rfl) (fun _ _ => rfl) n start

/-- The table of odd multiples is the Niels forms of P, P + 2P, P + 2P + 2P, … (R802). -/
theorem oddTable_sequence (p : ExtPoint) (n : Nat) : ∃ acc : Nat → ExtPoint, acc 0 = p ∧
    (∀ i, acc (i + 1) = addPN (acc i) (toPN (dbl p false)) false) ∧
    ∀ i < n + 1, tableEntry (oddTable p (n + 1)) i = toPN (acc i) := by
  let acc : Nat → ExtPoint := fun i => Nat.rec p (fun _ a => addPN a (toPN (dbl p false)) false) i
  have key : ∀ m i k, i < m →
      (oddTableFrom (toPN (dbl p false)) m (acc k)).getD i Niels.identity = toPN (acc (k + i + 1)) := by
    intro m
    induction m with
    | zero => intro i k h; omega
    | succ m ih =>
      intro i k h
      cases i with
      | zero => rfl
      | succ i =>
        show (oddTableFrom _ m (acc (k + 1))).getD i _ = _
        rw [ih i (k + 1) (by omega), show k + 1 + i + 1 = k + (i + 1) + 1 by omega]
  refine ⟨acc, rfl, fun _ => rfl, fun i hi => ?_⟩
  cases i with
  | zero => rfl
  | succ i =>
    show (oddTableFrom _ n (acc 0)).getD i _ = _
    rw [key n i 0 (by omega), Nat.zero_add]

/-- The signed entry of a 5-bit digit is the multiple 2·digit - 31 of a table of odd multiples (R803). -/
theorem signedEntry_eq {digit : Nat} (hd : digit < 32) {f g : Nat → Niels} (h : ∀ i < 16, f i = g i) :
    signedEntry digit f = signedMultiple g (2 * (digit : Int) - 31) := by
  unfold signedEntry signedMultiple
  rw [← h _ (show ((2 * (digit : Int) - 31).natAbs - 1) / 2 < 16 by omega)]
  interval_cases digit <;> rfl

theorem wnafEntry_eq (d : Int) (entry : Nat → Niels) : wnafEntry d entry = signedMultiple entry d := rfl

theorem windowDigit_eq (s w : Nat) : windowDigit s w = s / 32 ^ w % 32 := by
  rw [windowDigit, Nat.pow_mul, show 2 ^ 5 = 32 by norm_num]

/-- The comb digit of group j at spacing i, bit by bit (R810). -/
theorem combDigit_bits (s i j : Nat) : combDigit s i j =
    (let bit := fun k => s / 2 ^ (i + 18 * (k + 5 * j)) % 2
     bit 0 + 2 * bit 1 + 4 * bit 2 + 8 * bit 3 + 16 * bit 4) := by
  simp only [combDigit, Nat.toNat_testBit, List.map_cons, List.map_nil, List.sum_cons, List.sum_nil]
  ring

/-- Twice the offset and halved scalar is k + 2^450 - 1 modulo L (R801). -/
theorem offsetHalve_double (k : Sc) : 2 * (offsetHalve k).val % orderL = (k.val + (2 ^ 450 - 1)) % orderL := by
  rw [offsetHalve, scalarHalve_double, Fin.val_add, scalarAdj_spec]
  split
  · rw [Nat.add_mod_right, Nat.mod_mod, Nat.add_mod_mod]
  · rw [Nat.add_zero, Nat.mod_mod, Nat.add_mod_mod]

end Sys2Proof.Machine
end

