-- ==== Sys2Proof/Laws/PerInstr.lean ====
section
/-! SUPPORT. The family Encodes: every command's encoding selects its own row of the opcode map, passes the
row's mask and is read back by the row. -/

namespace Sys2Proof.Laws.Encodes

/-- The opcode the encoder writes has a row; the encoding passes the row's mask and match
(30_encoding.md R302, R304); and a well-formed command's fields are read as that command. -/
def Statement (i : Instr) : Prop :=
  ∃ r, rowOf i.fields.op = some r ∧ encode i &&& r.mask = r.match' ∧
    (i.wf = true → r.read i.fields = .command i)

theorem nop : Statement .nop :=
  ⟨_, rfl, Fields.pack_and_eq (by simp [Fields.unpack, Instr.fields]), fun _ => rfl⟩

theorem halt : Statement .halt :=
  ⟨_, rfl, Fields.pack_and_eq (by simp [Fields.unpack, Instr.fields]), fun _ => rfl⟩

theorem jmp (off : BitVec 16) : Statement (.jmp off) :=
  ⟨_, rfl, Fields.pack_and_eq (by simp [Fields.unpack, Instr.fields]),
    fun _ => by simp [Instr.fields, imm16]⟩

theorem bmt (c : MReg) (off : BitVec 16) : Statement (.bmt c off) :=
  ⟨_, rfl, Fields.pack_and_eq (by simp [Fields.unpack, Instr.fields]),
    fun _ => by simp [Instr.fields, imm16]⟩

theorem bmf (c : MReg) (off : BitVec 16) : Statement (.bmf c off) :=
  ⟨_, rfl, Fields.pack_and_eq (by simp [Fields.unpack, Instr.fields]),
    fun _ => by simp [Instr.fields, imm16]⟩

theorem setlc (u : BitVec 16) : Statement (.setlc u) :=
  ⟨_, rfl, Fields.pack_and_eq (by simp [Fields.unpack, Instr.fields]),
    fun _ => by simp [Instr.fields, imm16]⟩

theorem djnz (off : BitVec 16) : Statement (.djnz off) :=
  ⟨_, rfl, Fields.pack_and_eq (by simp [Fields.unpack, Instr.fields]),
    fun _ => by simp [Instr.fields, imm16]⟩

theorem seta (u : BitVec 16) : Statement (.seta u) :=
  ⟨_, rfl, Fields.pack_and_eq (by simp [Fields.unpack, Instr.fields]),
    fun _ => by simp [Instr.fields, imm16]⟩

theorem adda (v : BitVec 16) : Statement (.adda v) :=
  ⟨_, rfl, Fields.pack_and_eq (by simp [Fields.unpack, Instr.fields]),
    fun _ => by simp [Instr.fields, imm16]⟩

theorem fadd (d a b : FReg) : Statement (.fadd d a b) :=
  ⟨_, rfl, Fields.pack_and_eq (by simp [Fields.unpack, Instr.fields]),
    fun _ => by simp [Instr.fields]⟩

theorem fsub (d a b : FReg) : Statement (.fsub d a b) :=
  ⟨_, rfl, Fields.pack_and_eq (by simp [Fields.unpack, Instr.fields]),
    fun _ => by simp [Instr.fields]⟩

theorem fneg (d a : FReg) : Statement (.fneg d a) :=
  ⟨_, rfl, Fields.pack_and_eq (by simp [Fields.unpack, Instr.fields]),
    fun _ => by simp [Instr.fields]⟩

theorem fmul (d a b : FReg) : Statement (.fmul d a b) :=
  ⟨_, rfl, Fields.pack_and_eq (by simp [Fields.unpack, Instr.fields]),
    fun _ => by simp [Instr.fields]⟩

theorem fsqr (d a : FReg) : Statement (.fsqr d a) :=
  ⟨_, rfl, Fields.pack_and_eq (by simp [Fields.unpack, Instr.fields]),
    fun _ => by simp [Instr.fields]⟩

theorem fmulc (d a : FReg) (c : BitVec 32) : Statement (.fmulc d a c) :=
  ⟨_, rfl, Fields.pack_and_eq (by simp [Fields.unpack, Instr.fields]),
    fun h => by simp [Instr.fields, readConst, show legalConst c = true from h]⟩

theorem fwred (d a : FReg) : Statement (.fwred d a) :=
  ⟨_, rfl, Fields.pack_and_eq (by simp [Fields.unpack, Instr.fields]),
    fun _ => by simp [Instr.fields]⟩

theorem fsred (d a : FReg) : Statement (.fsred d a) :=
  ⟨_, rfl, Fields.pack_and_eq (by simp [Fields.unpack, Instr.fields]),
    fun _ => by simp [Instr.fields]⟩

theorem fmov (d a : FReg) : Statement (.fmov d a) :=
  ⟨_, rfl, Fields.pack_and_eq (by simp [Fields.unpack, Instr.fields]),
    fun _ => by simp [Instr.fields]⟩

theorem fconst (d : FReg) (i : Fin 6) : Statement (.fconst d i) :=
  ⟨_, rfl, Fields.pack_and_eq (by simp [Fields.unpack, Instr.fields]),
    fun _ => by simpa [Instr.fields] using readIndex_immOf16 (by decide) _ _⟩

theorem finv (d a : FReg) : Statement (.finv d a) :=
  ⟨_, rfl, Fields.pack_and_eq (by simp [Fields.unpack, Instr.fields]),
    fun _ => by simp [Instr.fields]⟩

theorem fisr (d a : FReg) (c : MReg) : Statement (.fisr d a c) :=
  ⟨_, rfl, Fields.pack_and_eq (by simp [Fields.unpack, Instr.fields]),
    fun _ => by simp [Instr.fields]⟩

theorem feq (d : MReg) (a b : FReg) : Statement (.feq d a b) :=
  ⟨_, rfl, Fields.pack_and_eq (by simp [Fields.unpack, Instr.fields]),
    fun _ => by simp [Instr.fields]⟩

theorem fsel (d a b : FReg) (c : MReg) : Statement (.fsel d a b c) :=
  ⟨_, rfl, Fields.pack_and_eq (by simp [Fields.unpack, Instr.fields]),
    fun _ => by simp [Instr.fields]⟩

theorem fcswap (a b : FReg) (c : MReg) : Statement (.fcswap a b c) :=
  ⟨_, rfl, Fields.pack_and_eq (by simp [Fields.unpack, Instr.fields]),
    fun _ => by simp [Instr.fields]⟩

theorem fcneg (d a : FReg) (c : MReg) : Statement (.fcneg d a c) :=
  ⟨_, rfl, Fields.pack_and_eq (by simp [Fields.unpack, Instr.fields]),
    fun _ => by simp [Instr.fields]⟩

theorem mset (d : MReg) (i : Fin 2) : Statement (.mset d i) :=
  ⟨_, rfl, Fields.pack_and_eq (by simp [Fields.unpack, Instr.fields]),
    fun _ => by simpa [Instr.fields] using readIndex_immOf16 (by decide) _ _⟩

theorem mand (d a b : MReg) : Statement (.mand d a b) :=
  ⟨_, rfl, Fields.pack_and_eq (by simp [Fields.unpack, Instr.fields]),
    fun _ => by simp [Instr.fields]⟩

theorem mor (d a b : MReg) : Statement (.mor d a b) :=
  ⟨_, rfl, Fields.pack_and_eq (by simp [Fields.unpack, Instr.fields]),
    fun _ => by simp [Instr.fields]⟩

theorem mxor (d a b : MReg) : Statement (.mxor d a b) :=
  ⟨_, rfl, Fields.pack_and_eq (by simp [Fields.unpack, Instr.fields]),
    fun _ => by simp [Instr.fields]⟩

theorem mnot (d a : MReg) : Statement (.mnot d a) :=
  ⟨_, rfl, Fields.pack_and_eq (by simp [Fields.unpack, Instr.fields]),
    fun _ => by simp [Instr.fields]⟩

theorem mld (d : MReg) (am : Bool) (base : BitVec 16) : Statement (.mld d am base) :=
  ⟨_, rfl, Fields.pack_and_eq (by simp [Fields.unpack, Instr.fields]),
    fun _ => by simp [Instr.fields, imm16, modAM]⟩

theorem mst (a : MReg) (am : Bool) (base : BitVec 16) : Statement (.mst a am base) :=
  ⟨_, rfl, Fields.pack_and_eq (by simp [Fields.unpack, Instr.fields]),
    fun _ => by simp [Instr.fields, imm16, modAM]⟩

theorem fld (d : FReg) (c : MReg) (am : Bool) (base : BitVec 16) : Statement (.fld d c am base) :=
  ⟨_, rfl, Fields.pack_and_eq (by simp [Fields.unpack, Instr.fields]),
    fun _ => by simp [Instr.fields, imm16, modAM]⟩

theorem fldm (d : FReg) (c : MReg) (am : Bool) (strip : BitVec 8) (base : BitVec 16) : Statement (.fldm d c am strip base) :=
  ⟨_, rfl, Fields.pack_and_eq (by simp [Fields.unpack, Instr.fields]),
    fun _ => by simp [Instr.fields, imm16, immStrip, modAM]⟩

theorem fst (a : FReg) (am : Bool) (base : BitVec 16) : Statement (.fst a am base) :=
  ⟨_, rfl, Fields.pack_and_eq (by simp [Fields.unpack, Instr.fields]),
    fun _ => by simp [Instr.fields, imm16, modAM]⟩

theorem sadd (d a b : SReg) : Statement (.sadd d a b) :=
  ⟨_, rfl, Fields.pack_and_eq (by simp [Fields.unpack, Instr.fields]),
    fun _ => by simp [Instr.fields]⟩

theorem ssub (d a b : SReg) : Statement (.ssub d a b) :=
  ⟨_, rfl, Fields.pack_and_eq (by simp [Fields.unpack, Instr.fields]),
    fun _ => by simp [Instr.fields]⟩

theorem smont (d a b : SReg) : Statement (.smont d a b) :=
  ⟨_, rfl, Fields.pack_and_eq (by simp [Fields.unpack, Instr.fields]),
    fun _ => by simp [Instr.fields]⟩

theorem smul (d a b : SReg) : Statement (.smul d a b) :=
  ⟨_, rfl, Fields.pack_and_eq (by simp [Fields.unpack, Instr.fields]),
    fun _ => by simp [Instr.fields]⟩

theorem shalve (d a : SReg) : Statement (.shalve d a) :=
  ⟨_, rfl, Fields.pack_and_eq (by simp [Fields.unpack, Instr.fields]),
    fun _ => by simp [Instr.fields]⟩

theorem smov (d a : SReg) : Statement (.smov d a) :=
  ⟨_, rfl, Fields.pack_and_eq (by simp [Fields.unpack, Instr.fields]),
    fun _ => by simp [Instr.fields]⟩

theorem sconst (d : SReg) (i : Fin 4) : Statement (.sconst d i) :=
  ⟨_, rfl, Fields.pack_and_eq (by simp [Fields.unpack, Instr.fields]),
    fun _ => by simpa [Instr.fields] using readIndex_immOf16 (by decide) _ _⟩

theorem sld (d : SReg) (c : MReg) (am : Bool) (base : BitVec 16) : Statement (.sld d c am base) :=
  ⟨_, rfl, Fields.pack_and_eq (by simp [Fields.unpack, Instr.fields]),
    fun _ => by simp [Instr.fields, imm16, modAM]⟩

theorem sst (a : SReg) (am : Bool) (base : BitVec 16) : Statement (.sst a am base) :=
  ⟨_, rfl, Fields.pack_and_eq (by simp [Fields.unpack, Instr.fields]),
    fun _ => by simp [Instr.fields, imm16, modAM]⟩

theorem pdbl (d a : PReg) (bd : Bool) : Statement (.pdbl d a bd) :=
  ⟨_, rfl, Fields.pack_and_eq (by simp [Fields.unpack, Instr.fields]),
    fun _ => by simp [Instr.fields, modBD]⟩

theorem paddn (d a : PReg) (b : NReg) (bd : Bool) : Statement (.paddn d a b bd) :=
  ⟨_, rfl, Fields.pack_and_eq (by simp [Fields.unpack, Instr.fields]),
    fun _ => by simp [Instr.fields, modBD]⟩

theorem psubn (d a : PReg) (b : NReg) (bd : Bool) : Statement (.psubn d a b bd) :=
  ⟨_, rfl, Fields.pack_and_eq (by simp [Fields.unpack, Instr.fields]),
    fun _ => by simp [Instr.fields, modBD]⟩

theorem paddpn (d a : PReg) (b : NReg) (bd : Bool) : Statement (.paddpn d a b bd) :=
  ⟨_, rfl, Fields.pack_and_eq (by simp [Fields.unpack, Instr.fields]),
    fun _ => by simp [Instr.fields, modBD]⟩

theorem psubpn (d a : PReg) (b : NReg) (bd : Bool) : Statement (.psubpn d a b bd) :=
  ⟨_, rfl, Fields.pack_and_eq (by simp [Fields.unpack, Instr.fields]),
    fun _ => by simp [Instr.fields, modBD]⟩

theorem padd (d a b : PReg) (bd : Bool) : Statement (.padd d a b bd) :=
  ⟨_, rfl, Fields.pack_and_eq (by simp [Fields.unpack, Instr.fields]),
    fun _ => by simp [Instr.fields, modBD]⟩

theorem pton (d : NReg) (a : PReg) : Statement (.pton d a) :=
  ⟨_, rfl, Fields.pack_and_eq (by simp [Fields.unpack, Instr.fields]),
    fun _ => by simp [Instr.fields]⟩

theorem ncneg (d a : NReg) (c : MReg) : Statement (.ncneg d a c) :=
  ⟨_, rfl, Fields.pack_and_eq (by simp [Fields.unpack, Instr.fields]),
    fun _ => by simp [Instr.fields]⟩

theorem pid (d : PReg) : Statement (.pid d) :=
  ⟨_, rfl, Fields.pack_and_eq (by simp [Fields.unpack, Instr.fields]),
    fun _ => by simp [Instr.fields]⟩

theorem peq (d : MReg) (a b : PReg) : Statement (.peq d a b) :=
  ⟨_, rfl, Fields.pack_and_eq (by simp [Fields.unpack, Instr.fields]),
    fun _ => by simp [Instr.fields]⟩

theorem pvalid (d : MReg) (a : PReg) : Statement (.pvalid d a) :=
  ⟨_, rfl, Fields.pack_and_eq (by simp [Fields.unpack, Instr.fields]),
    fun _ => by simp [Instr.fields]⟩

theorem pfx (d : PReg) (g : FGroup) : Statement (.pfx d g) :=
  ⟨_, rfl, Fields.pack_and_eq (by simp [Fields.unpack, Instr.fields]),
    fun _ => by simpa [Instr.fields] using readGroup_fieldG _ _⟩

theorem pxf (g : FGroup) (a : PReg) : Statement (.pxf g a) :=
  ⟨_, rfl, Fields.pack_and_eq (by simp [Fields.unpack, Instr.fields]),
    fun _ => by simpa [Instr.fields] using readGroup_fieldG _ _⟩

theorem nfx (d : NReg) (g : FGroup) : Statement (.nfx d g) :=
  ⟨_, rfl, Fields.pack_and_eq (by simp [Fields.unpack, Instr.fields]),
    fun _ => by simpa [Instr.fields] using readGroup_fieldG _ _⟩

theorem nxf (g : FGroup) (a : NReg) : Statement (.nxf g a) :=
  ⟨_, rfl, Fields.pack_and_eq (by simp [Fields.unpack, Instr.fields]),
    fun _ => by simpa [Instr.fields] using readGroup_fieldG _ _⟩

theorem pmov (d a : PReg) : Statement (.pmov d a) :=
  ⟨_, rfl, Fields.pack_and_eq (by simp [Fields.unpack, Instr.fields]),
    fun _ => by simp [Instr.fields]⟩

theorem psmul (d a : PReg) (b : SReg) : Statement (.psmul d a b) :=
  ⟨_, rfl, Fields.pack_and_eq (by simp [Fields.unpack, Instr.fields]),
    fun _ => by simp [Instr.fields]⟩

theorem pbmul (d : PReg) (a : SReg) : Statement (.pbmul d a) :=
  ⟨_, rfl, Fields.pack_and_eq (by simp [Fields.unpack, Instr.fields]),
    fun _ => by simp [Instr.fields]⟩

theorem pdsmul (d : PReg) (a : SReg) (b : PReg) (c : SReg) : Statement (.pdsmul d a b c) :=
  ⟨_, rfl, Fields.pack_and_eq (by simp [Fields.unpack, Instr.fields]),
    fun _ => by simp [Instr.fields]⟩

end Sys2Proof.Laws.Encodes
end

