-- ==== Sys2Proof/Tests/Slice0.lean ====
section
/-! SUPPORT. Tests: the words of the opcode map, rejections, constants and one-step values from
95_test_vectors.md (each test names its row), and for every obligation with hypotheses a witness that meets
them. -/

namespace Sys2Proof.Tests

open Sys2Proof.Machine

set_option Elab.async false

/-! ## Well-formedness: the one check is the range of FMULC's constant (30_encoding.md R306) -/

theorem test_wf_fmulc_refused :
    (Instr.fmulc 1 2 67108864).wf = false ∧ (Instr.fmulc 1 2 (BitVec.ofInt 32 (-67108864))).wf = false := by
  decide

theorem test_wf_fmulc_accepted :
    (Instr.fmulc 1 2 67108863).wf = true ∧ (Instr.fmulc 1 2 (BitVec.ofInt 32 (-67108863))).wf = true := by
  decide

/-! ## Words of commands, written out from the spec's encoding -/

/-- The words of 47_sequencer.md's commands, by the fields of 30_encoding.md R301 and the opcode map R308. -/
theorem test_words_sequencer :
    decode 0x0000000000000000 = .ok .nop ∧
    decode 0x0100000000000000 = .ok .halt ∧
    decode 0x020000000000FFFB = .ok (.jmp (BitVec.ofInt 16 (-5))) ∧
    decode 0x0300020000000004 = .ok (.bmt 2 4) ∧
    decode 0x040007000000FFFD = .ok (.bmf 7 (BitVec.ofInt 16 (-3))) ∧
    decode 0x05000000000001BE = .ok (.setlc 446) ∧
    decode 0x060000000000FFFF = .ok (.djnz (BitVec.ofInt 16 (-1))) ∧
    decode 0x0700000000000200 = .ok (.seta 0x200) ∧
    decode 0x080000000000FFE0 = .ok (.adda (BitVec.ofInt 16 (-32))) := by
  decide

/-- The words of 40_field.md, 41_field_inverter.md's commands, by the fields of 30_encoding.md R301 and the opcode map R308. -/
theorem test_words_field :
    decode 0x1012300000000000 = .ok (.fadd 1 2 3) ∧
    decode 0x11FED00000000000 = .ok (.fsub 15 14 13) ∧
    decode 0x1249000000000000 = .ok (.fneg 4 9) ∧
    decode 0x1321000000000000 = .ok (.fmul 2 1 0) ∧
    decode 0x148F000000000000 = .ok (.fsqr 8 15) ∧
    decode 0x15120000FFFF6757 = .ok (.fmulc 1 2 (BitVec.ofInt 32 (-39081))) ∧
    decode 0x163C000000000000 = .ok (.fwred 3 12) ∧
    decode 0x17C3000000000000 = .ok (.fsred 12 3) ∧
    decode 0x187B000000000000 = .ok (.fmov 7 11) ∧
    decode 0x19A0000000000005 = .ok (.fconst 10 5) ∧
    decode 0x1A10000000000000 = .ok (.finv 1 0) ∧
    decode 0x1B65030000000000 = .ok (.fisr 6 5 3) := by
  decide

/-- The words of 42_ct_compare_select.md's commands, by the fields of 30_encoding.md R301 and the opcode map R308. -/
theorem test_words_select :
    decode 0x205E900000000000 = .ok (.feq 5 14 9) ∧
    decode 0x21F8A70000000000 = .ok (.fsel 15 8 10 7) ∧
    decode 0x220BD60000000000 = .ok (.fcswap 11 13 6) ∧
    decode 0x239A040000000000 = .ok (.fcneg 9 10 4) ∧
    decode 0x2870000000000001 = .ok (.mset 7 1) ∧
    decode 0x2912300000000000 = .ok (.mand 1 2 3) ∧
    decode 0x2A45600000000000 = .ok (.mor 4 5 6) ∧
    decode 0x2B70100000000000 = .ok (.mxor 7 0 1) ∧
    decode 0x2C26000000000000 = .ok (.mnot 2 6) ∧
    decode 0x2D3000020000FFFC = .ok (.mld 3 true 0xFFFC) ∧
    decode 0x2E06000000000010 = .ok (.mst 6 false 0x10) := by
  decide

/-- The words of 43_field_io.md's commands, by the fields of 30_encoding.md R301 and the opcode map R308. -/
theorem test_words_fieldIO :
    decode 0x3050020200000038 = .ok (.fld 5 2 true 0x38) ∧
    decode 0x31D0040000800FC4 = .ok (.fldm 13 4 false 0x80 0x0FC4) ∧
    decode 0x320C000200000FC8 = .ok (.fst 12 true 0xFC8) := by
  decide

/-- The words of 44_scalar.md's commands, by the fields of 30_encoding.md R301 and the opcode map R308. -/
theorem test_words_scalar :
    decode 0x4012300000000000 = .ok (.sadd 1 2 3) ∧
    decode 0x4176500000000000 = .ok (.ssub 7 6 5) ∧
    decode 0x4240700000000000 = .ok (.smont 4 0 7) ∧
    decode 0x4305200000000000 = .ok (.smul 0 5 2) ∧
    decode 0x4436000000000000 = .ok (.shalve 3 6) ∧
    decode 0x4561000000000000 = .ok (.smov 6 1) ∧
    decode 0x4620000000000003 = .ok (.sconst 2 3) ∧
    decode 0x4740050000000070 = .ok (.sld 4 5 false 0x70) ∧
    decode 0x4807000200000008 = .ok (.sst 7 true 8) := by
  decide

/-- The words of 45_point.md's commands, by the fields of 30_encoding.md R301 and the opcode map R308. -/
theorem test_words_point :
    decode 0x5012000100000000 = .ok (.pdbl 1 2 true) ∧
    decode 0x5134500100000000 = .ok (.paddn 3 4 5 true) ∧
    decode 0x5267000000000000 = .ok (.psubn 6 7 0 false) ∧
    decode 0x5313500000000000 = .ok (.paddpn 1 3 5 false) ∧
    decode 0x5424600100000000 = .ok (.psubpn 2 4 6 true) ∧
    decode 0x5575300100000000 = .ok (.padd 7 5 3 true) ∧
    decode 0x5661000000000000 = .ok (.pton 6 1) ∧
    decode 0x5742070000000000 = .ok (.ncneg 4 2 7) ∧
    decode 0x5850000000000000 = .ok (.pid 5) ∧
    decode 0x5931200000000000 = .ok (.peq 3 1 2) ∧
    decode 0x5A64000000000000 = .ok (.pvalid 6 4) ∧
    decode 0x5B7C000000000000 = .ok (.pfx 7 12) ∧
    decode 0x5CC7000000000000 = .ok (.pxf 12 7) ∧
    decode 0x5D29000000000000 = .ok (.nfx 2 9) ∧
    decode 0x5E92000000000000 = .ok (.nxf 9 2) ∧
    decode 0x5F16000000000000 = .ok (.pmov 1 6) := by
  decide

/-- The words of 46_scalarmul.md's commands, by the fields of 30_encoding.md R301 and the opcode map R308. -/
theorem test_words_engine :
    decode 0x6012300000000000 = .ok (.psmul 1 2 3) ∧
    decode 0x6147000000000000 = .ok (.pbmul 4 7) ∧
    decode 0x6251620000000000 = .ok (.pdsmul 5 1 6 2) := by
  decide

/-! ## Rejections (95_test_vectors.md section 4) -/

/-- X1, X2, and the priority example. -/
theorem test_illegal_opcode :
    decode 0x0900000000000000 = .error (.illegalOpcode 0x09000000) ∧
    decode 0xFF00000000000000 = .error (.illegalOpcode 0xFF000000) ∧
    decode 0x09FFFFFFFFFFFFFF = .error (.illegalOpcode 0x09FFFFFF) := by
  decide

/-- X3 to X7, and the priority example. -/
theorem test_illegal_operand :
    decode 0x1012300400000000 = .error (.illegalOperand 0x10123004) ∧
    decode 0x1012300000000001 = .error (.illegalOperand 0x10123000) ∧
    decode 0x5090000000000000 = .error (.illegalOperand 0x50900000) ∧
    decode 0x1012300100000000 = .error (.illegalOperand 0x10123001) ∧
    decode 0x5B0D000000000000 = .error (.illegalOperand 0x5B0D0000) ∧
    decode 0x1501000104000000 = .error (.illegalOperand 0x15010001) := by
  decide

/-- X8 to X12. -/
theorem test_bad_immediate :
    decode 0x1501000004000000 = .error (.badImmediate 0x04000000) ∧
    decode 0x15010000FC000000 = .error (.badImmediate 0xFC000000) ∧
    decode 0x1900000000000006 = .error (.badImmediate 0x00000006) ∧
    decode 0x4600000000000004 = .error (.badImmediate 0x00000004) ∧
    decode 0x2800000000000002 = .error (.badImmediate 0x00000002) := by
  decide

/-- The opcode map has 63 rows, and no word matches two of them. -/
theorem test_rows_disjoint :
    opcodeMap.length = 63 ∧
    opcodeMap.Pairwise (fun r q => r.match' &&& q.mask ≠ q.match' &&& r.mask) := by
  decide +kernel

/-! ## Constants (00_scope.md R11-R16, 95_test_vectors.md section 2) -/

theorem test_moduli :
    fieldP = 2 ^ 224 * 2 ^ 224 - 2 ^ 224 - 1 ∧
    orderL = 2 ^ 223 * 2 ^ 223 - 13818066809895115352007386748515426880336692474882178609894547503885 := by
  decide +kernel

theorem test_scalar_constants :
    montRInv =
      0x2b1f7dc1f7afb220b3dbd679b284c536856c1d6cc9e7f74b5926c891ced2502755fdd4f7fb2411b7dfd98dc4a53f3574b50eeb00f1769696 ∧
    montR2.val =
      0x3402a939f823b7292052bcb7e4d070af1a9cc14ba3c47c44ae17cf725ee4d8380d66de2388ea18597af32c4bc1b195d9e3539257049b9b60 ∧
    scalarAdj.val = 0x8335dc163bb124b65129c96fde933d8d723a70aadc873d6d54a7bb0cf := by
  decide +kernel

/-! ## One step of each command -/

/-- The command answers a next state with the given property. -/
def answers (i : Instr) (s : State) (p : State → Bool) : Bool :=
  match exec i s with
  | .next t => p t
  | .fault _ => false
  | .refused _ => false

/-- The reset state. -/
def blank : State := State.reset

def fe (n : Nat) : Fe := Fe.ofNat n

def sca (n : Nat) : Sc := Sc.ofNat n

/-- The reset state with F[1] and F[2]. -/
def withF (x y : Nat) : State := (blank.setF 1 (fe x)).setF 2 (fe y)

/-- The reset state with S[1] and S[2]. -/
def withS (x y : Nat) : State := (blank.setS 1 (sca x)).setS 2 (sca y)

/-- The reset state with P[0]. -/
def withP (x y z t : Nat) (ts : Bool) : State := blank.setP 0 ⟨⟨fe x, fe y, fe z, fe t⟩, ts⟩

/-- The register holds the four coordinates and the stale-T bit. -/
def holds (r : PointReg) (x y z t : Nat) (ts : Bool) : Bool :=
  r.coords.x.val == x && r.coords.y.val == y && r.coords.z.val == z && r.coords.t.val == t && r.ts == ts

/-- Q1 to Q3. -/
theorem test_jmp :
    answers (.jmp 3) { blank with pc := 5 } (fun t => t.pc == 8) = true ∧
    answers (.jmp (BitVec.ofInt 16 (-5))) { blank with pc := 5 } (fun t => t.pc == 0) = true := by
  decide

/-- Q4, Q5. -/
theorem test_bmt :
    answers (.bmt 2 4) { blank.setM 2 ones with pc := 5 } (fun t => t.pc == 9) = true ∧
    answers (.bmt 2 4) { blank with pc := 5 } (fun t => t.pc == 6) = true := by
  decide

/-- Q6, Q7. -/
theorem test_bmf :
    answers (.bmf 1 (BitVec.ofInt 16 (-3))) { blank with pc := 5 } (fun t => t.pc == 2) = true ∧
    answers (.bmf 1 (BitVec.ofInt 16 (-3))) { blank.setM 1 ones with pc := 5 } (fun t => t.pc == 6) = true := by
  decide

/-- Q8 to Q10. -/
theorem test_djnz :
    answers (.djnz (BitVec.ofInt 16 (-1))) { blank with lc := 2, pc := 5 } (fun t => t.lc == 1 && t.pc == 4) = true ∧
    answers (.djnz (BitVec.ofInt 16 (-1))) { blank with lc := 1, pc := 5 } (fun t => t.lc == 0 && t.pc == 6) = true ∧
    answers (.djnz (BitVec.ofInt 16 (-1))) { blank with lc := 0, pc := 5 }
      (fun t => t.lc == 0xFFFF && t.pc == 4) = true := by
  decide

/-- Q11 to Q14. -/
theorem test_counters :
    answers (.setlc 446) blank (fun t => t.lc == 446) = true ∧
    answers (.seta 0x200) blank (fun t => t.ar == 0x200) = true ∧
    answers (.adda 56) { blank with ar := 0x200 } (fun t => t.ar == 0x238) = true ∧
    answers (.adda (BitVec.ofInt 16 (-32))) { blank with ar := 0x10 } (fun t => t.ar == 0xFFF0) = true := by
  decide

/-- Q15, Q16. -/
theorem test_nop_halt :
    answers .nop { blank with pc := 511 } (fun t => t.pc == 512) = true ∧
    answers .halt { blank with pc := 7 } (fun t => t.pc == 7 && t.done && !t.busy) = true := by
  decide

/-- V1, V2. -/
theorem test_fadd :
    answers (.fadd 0 1 2) (withF (fieldP - 1) 1) (fun t => (t.getF 0).val == 0) = true ∧
    answers (.fadd 0 1 2) (withF (fieldP - 1) (fieldP - 1)) (fun t => (t.getF 0).val == fieldP - 2) = true := by
  decide +kernel

/-- V3, V4. -/
theorem test_fsub :
    answers (.fsub 0 1 2) (withF 0 1) (fun t => (t.getF 0).val == fieldP - 1) = true ∧
    answers (.fsub 0 1 1) (withF 77 0) (fun t => (t.getF 0).val == 0) = true := by
  decide +kernel

/-- V5, V6. -/
theorem test_fneg :
    answers (.fneg 0 1) (withF 0 0) (fun t => (t.getF 0).val == 0) = true ∧
    answers (.fneg 0 1) (withF 1 0) (fun t => (t.getF 0).val == fieldP - 1) = true := by
  decide +kernel

/-- V7, V8. -/
theorem test_fmul :
    answers (.fmul 0 1 2) (withF (2 ^ 224) (2 ^ 224)) (fun t => (t.getF 0).val == 2 ^ 224 + 1) = true ∧
    answers (.fmul 0 1 2) (withF (fieldP - 1) (fieldP - 1)) (fun t => (t.getF 0).val == 1) = true := by
  decide +kernel

/-- V10. -/
theorem test_fsqr :
    answers (.fsqr 0 1) (withF (2 ^ 224) 0) (fun t => (t.getF 0).val == 2 ^ 224 + 1) = true := by
  decide +kernel

/-- V12, V14. -/
theorem test_fmulc :
    answers (.fmulc 0 1 (BitVec.ofInt 32 (-39082))) (withF 1 0) (fun t => (t.getF 0).val == fieldP - 39082) = true ∧
    answers (.fmulc 0 1 (BitVec.ofInt 32 (-67108863))) (withF (fieldP - 1) 0)
      (fun t => (t.getF 0).val == 67108863) = true := by
  decide +kernel

/-- V15. -/
theorem test_field_copies :
    ([Instr.fwred 0 1, .fsred 0 1, .fmov 0 1].all fun i =>
      answers i (withF 123 0) (fun t => (t.getF 0).val == 123)) = true := by
  decide +kernel

/-- V16 to V21. -/
theorem test_fconst :
    ([((0 : Fin 6), 0), (1, 1), (2, 2),
      (3, 0xfffffffffffffffffffffffffffffffffffffffffffffffffffffffeffffffffffffffffffffffffffffffffffffffffffffffffffff6756),
      (4, 0xfffffffffffffffffffffffffffffffffffffffffffffffffffffffeffffffffffffffffffffffffffffffffffffffffffffffffffff6755),
      (5, 0xfffffffffffffffffffffffffffffffffffffffffffffffffffffffefffffffffffffffffffffffffffffffffffffffffffffffffffeceab)].all
      fun e => answers (.fconst 0 e.1) blank (fun t => (t.getF 0).val == e.2)) = true := by
  decide +kernel

/-- I2, I4. -/
theorem test_finv :
    answers (.finv 0 1) (withF 2 0) (fun t => (t.getF 0).val == (fieldP + 1) / 2) = true ∧
    answers (.finv 0 1) (withF 0 0) (fun t => (t.getF 0).val == 0) = true := by
  decide +kernel

/-- I11, I12. -/
theorem test_fisr :
    answers (.fisr 0 1 0) (withF 9 0) (fun t => t.getM 0 == ones && (t.getF 0).val ==
      0x5555555555555555555555555555555555555555555555555555555500000000000000000000000000000000000000000000000000000000) =
      true ∧
    answers (.fisr 0 1 0) (withF 7 0) (fun t => t.getM 0 == 0 && (t.getF 0).val ==
      0x638a6270090bcc94e0e179a6e313273596f57d72ea834b428c2d34238ed9337bf188bd7cacf8158ca6fc1ba8e3ea9c535ece28de3146fa24) =
      true := by
  decide +kernel

/-- C1, C2. -/
theorem test_feq :
    answers (.feq 0 1 2) (withF 5 5) (fun t => t.getM 0 == 0xFFFFFFFF) = true ∧
    answers (.feq 0 1 2) (withF 0 (fieldP - 1)) (fun t => t.getM 0 == 0) = true := by
  decide +kernel

/-- C3, C4. -/
theorem test_fsel :
    answers (.fsel 0 1 2 3) (withF 7 9) (fun t => (t.getF 0).val == 7) = true ∧
    answers (.fsel 0 1 2 3) ((withF 7 9).setM 3 ones) (fun t => (t.getF 0).val == 9) = true := by
  decide +kernel

/-- C5, C6. -/
theorem test_fcswap :
    answers (.fcswap 1 2 3) ((withF 7 9).setM 3 ones) (fun t => (t.getF 1).val == 9 && (t.getF 2).val == 7) = true ∧
    answers (.fcswap 1 2 3) (withF 7 9) (fun t => (t.getF 1).val == 7 && (t.getF 2).val == 9) = true := by
  decide +kernel

/-- C7, C9. -/
theorem test_fcneg :
    answers (.fcneg 0 1 3) ((withF 7 0).setM 3 ones) (fun t => (t.getF 0).val == fieldP - 7) = true ∧
    answers (.fcneg 0 1 3) (withF 7 0) (fun t => (t.getF 0).val == 7) = true := by
  decide +kernel

/-- C10, C11. -/
theorem test_masks :
    answers (.mset 0 1) blank (fun t => t.getM 0 == 0xFFFFFFFF) = true ∧
    answers (.mset 1 0) (blank.setM 1 ones) (fun t => t.getM 1 == 0) = true ∧
    answers (.mand 2 0 1) (blank.setM 0 ones) (fun t => t.getM 2 == 0) = true ∧
    answers (.mor 3 0 1) (blank.setM 0 ones) (fun t => t.getM 3 == 0xFFFFFFFF) = true ∧
    answers (.mxor 4 0 0) (blank.setM 0 ones) (fun t => t.getM 4 == 0) = true ∧
    answers (.mnot 5 1) (blank.setM 0 ones) (fun t => t.getM 5 == 0xFFFFFFFF) = true := by
  decide

/-- C12, C13. -/
theorem test_mld :
    answers (.mld 0 false 0x10) { blank with dmem := [(0x13, 0x80)] } (fun t => t.getM 0 == 0xFFFFFFFF) = true ∧
    answers (.mld 0 false 0x10) (blank.setM 0 ones) (fun t => t.getM 0 == 0) = true := by
  decide +kernel

/-- C14. -/
theorem test_mst :
    answers (.mst 0 false 0x10) (blank.setM 0 ones)
      (fun t => t.dmem == [(0x10, 0xFF), (0x11, 0xFF), (0x12, 0xFF), (0x13, 0xFF)]) = true := by
  decide +kernel

/-- D2, D3: LE56(p), and 56 bytes FF. -/
theorem test_fld :
    answers (.fld 0 0 false 0) (blank.storeLE 0 56 fieldP) (fun t => (t.getF 0).val == 0 && t.getM 0 == 0) = true ∧
    answers (.fld 0 0 false 0) { blank with dmem := (List.range 56).map fun i => (i, 0xFF) }
      (fun t => (t.getF 0).val == 2 ^ 224 && t.getM 0 == 0) = true := by
  decide +kernel

/-- D5, D6. -/
theorem test_fldm :
    answers (.fldm 0 0 false 0x00 0) { blank with dmem := [(0, 5), (56, 0x80)] } (fun t =>
      (t.getF 0).val == 0x8000000000000000000000000000000000000000000000000000000085 && t.getM 0 == 0) = true ∧
    answers (.fldm 0 0 false 0xFF 0) { blank with dmem := [(0, 5), (56, 0x7F)] }
      (fun t => (t.getF 0).val == 5 && t.getM 0 == ones) = true := by
  decide +kernel

/-- D9; and D10 with ar = 0xFC0: with its own ar = 0xFC8 the store would end at 0x1008, which 20_memory.md R212
makes DMEM_RANGE (log entry 13). -/
theorem test_fst :
    answers (.fst 3 false 0x40) (blank.setF 3 (fe (fieldP - 1))) (fun t => t.dmem ==
      (List.range 56).map fun i => (0x40 + i, if i = 0 ∨ i = 28 then 0xFE else 0xFF)) = true ∧
    answers (.fst 3 true 8) { blank.setF 3 (fe 2) with ar := 0xFC0 } (fun t => t.dmem == [(0xFC8, 2)]) = true ∧
    answers (.fst 3 true 8) { blank.setF 3 (fe 2) with ar := 0xFC8 }
      (fun t => t.dmem == [] && t.cause == 6 && t.einfo == 0xFD0) = true := by
  decide +kernel

/-- S2, S3. -/
theorem test_sadd_ssub :
    answers (.sadd 0 1 2) (withS (orderL - 1) (orderL - 1)) (fun t => (t.getS 0).val == orderL - 2) = true ∧
    answers (.ssub 0 1 2) (withS 0 1) (fun t => (t.getS 0).val == orderL - 1) = true := by
  decide +kernel

/-- S5, S7. -/
theorem test_smont :
    answers (.smont 0 1 2) (withS 2 3) (fun t => (t.getS 0).val ==
      0x2bcf28bce1e2cc4372706da2f1c9f472088b08cbb6fcbc416e8b36ce5c55144f2b790a9277f900eb96648d1a8650367b07677bafb6673b8) =
      true ∧
    answers (.smont 0 1 2) ((blank.setS 1 montR2).setS 2 montR2) (fun t => (t.getS 0).val ==
      0xd30a4f69d3af5f1ed66e7f42bab736de4c71af86754b842178769ed878dfcda3e0d0c8b5fa7496432d533584f61d63662db79e25f9b74ed) =
      true := by
  decide +kernel

/-- S9, S10. -/
theorem test_smul :
    answers (.smul 0 1 2) (withS (orderL - 1) (orderL - 1)) (fun t => (t.getS 0).val == 1) = true ∧
    answers (.smul 0 1 2) (withS (2 ^ 223 * 2 ^ 222) 4) (fun t => (t.getS 0).val ==
      0x1066bb82c7762496ca25392dfbd267b1ae474e155b90e7adaa94f761a) = true := by
  decide +kernel

/-- S11, S13. -/
theorem test_shalve :
    answers (.shalve 0 1) (withS 1 0) (fun t => (t.getS 0).val == (orderL + 1) / 2) = true ∧
    answers (.shalve 0 1) (withS (orderL - 1) 0) (fun t => (t.getS 0).val == (orderL - 1) / 2) = true := by
  decide +kernel

/-- S14 to S18. -/
theorem test_smov_sconst :
    answers (.smov 0 1) (withS 99 0) (fun t => (t.getS 0).val == 99) = true ∧
    answers (.sconst 0 1) blank (fun t => (t.getS 0).val == 1) = true ∧
    answers (.sconst 0 2) blank (fun t => t.getS 0 == montR2) = true ∧
    answers (.sconst 0 3) blank (fun t => t.getS 0 == scalarAdj) = true := by
  decide +kernel

/-- S20, S21. -/
theorem test_sld :
    answers (.sld 0 0 false 0) (blank.storeLE 0 56 orderL) (fun t => (t.getS 0).val == 0 && t.getM 0 == 0) = true ∧
    answers (.sld 0 0 false 0) { blank with dmem := (List.range 56).map fun i => (i, 0xFF) } (fun t =>
      (t.getS 0).val == 0x20cd77058eec492d944a725bf7a4cf635c8e9c2ab721cf5b5529eec33 && t.getM 0 == 0) = true := by
  decide +kernel

/-- S22. -/
theorem test_sst :
    answers (.sst 0 false 0) (blank.setS 0 (sca (orderL - 1))) (fun t =>
      t.dmem.read 0 == 0xF2 && t.dmem.read 1 == 0x44 && t.dmem.read 27 == 0x7C && t.dmem.read 54 == 0xFF &&
      t.dmem.read 55 == 0x3F && t.dmem.read 56 == 0) = true := by
  decide +kernel

/-- X14 to X17, X19: EINFO, ERR and CAUSE of the two memory faults. -/
theorem test_memory_faults :
    answers (.fld 0 0 false 2) blank (fun t => t.cause == 5 && t.einfo == 2 && t.err) = true ∧
    answers (.fld 0 0 false 0xFCC) blank (fun t => t.cause == 6 && t.einfo == 0xFCC && t.err) = true ∧
    answers (.fldm 0 0 false 0 0xFC8) blank (fun t => t.cause == 6 && t.einfo == 0xFC8) = true ∧
    answers (.fld 0 0 false 0xFC8) blank (fun t => t.cause == 0 && t.pc == 1) = true ∧
    answers (.mst 0 true 0x10) { blank with ar := 0xFF0 } (fun t => t.cause == 6 && t.einfo == 0x1000) = true := by
  decide +kernel

/-! ### Points. B_T of 95_test_vectors.md section 2. -/

def btX : Nat :=
  0x950dc1f5c754083be94df52fdab369bc56ac074a2398c81e881a66c82494e3fbc430c6adfdc78d0202584be14865ed1cfcacfcf20a288642

def btY : Nat :=
  0x3b65099395defa1aded002e9ed43eb1e3dfd7a9c985ab9aa032f047c7414dd4f506f04f33bd84c412523fc1e8ade56e67cf47bbff325d131

def btT : Nat :=
  0xd5802c05c9fa3be4e2989142681937f77e430151ec03e41ed4ca94f1d334d5271652444fa77650b819f217064c323131835c55d42577dfcd

/-- The reset state with P[0] = BE. -/
def withBE : State := withP btX btY 1 btT false

/-- PADD, PADDN and PADDPN of BE with itself (P9, P10, P13). -/
def sumX : Nat :=
  0x5913a419f5a5b18765928dc7e76599ce28ef1743c5dd0bf261f4d76a204c76850f4c38b1f936a93e4f62624d347e2d8a674815fb843ce7ca

def sumY : Nat :=
  0x8bfe0f526ce07e25b6cf7936b0e852fac7344d54716583aba18a1398965573caa25d306fd3834c4dcfefe44786e6ee0481e26fe6b843bb00

def sumZ : Nat :=
  0x72aa810356fea31ac27879863d56b2eeaa7308c2dbaa237b753f4ee09c0b389e7610becaea70daf90fd69b084a9f0cbd9c051678abef3e7

def sumT : Nat :=
  0x96186d8dd2fcb9a7c4dd3adf7142645a4f05c78a13aaf5a93d923275fff0721bbf9b8c738d9a62a9e497ec3ee35fbc07b1ee62a1f95571aa

/-- P7: PTON of BE. -/
def niels : Niels where
  ypx := fe
    0xd072cb895d330256c81df819c7f754da94a981e6bbf381c88b496b4498a9c14b149fcba1399fd943277c47ffd344440379a178b1fd4e5773
  ymx := fe
    0xa657479dce8af1def5820dba12908161e751735274c1f18b7b149db34f7ff9538c3e3e453e10bf3f22cbb03d427869c980477ecde8fd4aee
  t2d := fe
    0x3d7ea8769888a6ede0e0382fcc0bc55cbd70f6edebf06a5cd2120560c0b67d94a99eaf5917022cae0f21f12732ebde3fe37215bfe3065518
  z := fe 1

/-- The reset state with P[0] = BE and N[0] = PTON(BE). -/
def withN : State := withBE.setN 0 niels

/-- P4, P5. -/
theorem test_pdbl :
    answers (.pdbl 1 0 false) withBE (fun t => holds (t.getP 1)
      0x69bb16f98296939e269b5c8e0626998c75c43a2f0e88bd036782ca24f7ece25ebc2cf1d381b255b06c27676cb2e0749d662dfa811ef0c60d
      0xdd007c2b64c7e076924c21b253c5eb414e32ecaae3a69f15179d7b18da6aa30d5768b3e40b1f2cec8c0406ee1e46447edf87640651ef113f
      0x3e3555fbf2a4057394f61e19e70aa534455633dcf4915772122b02c43d8fd31d8627bd04d4563c941bc0a593ded583cd098feba61d504306
      0x5a79e49c8b40d1960ec8b14823af66e96c3e8e1d7b154295b09b73620003e37910191ce31c99675586da04f0472810fe1384675781aaa395
      false) = true ∧
    answers (.pdbl 1 0 true) withBE (fun t => holds (t.getP 1)
      0x69bb16f98296939e269b5c8e0626998c75c43a2f0e88bd036782ca24f7ece25ebc2cf1d381b255b06c27676cb2e0749d662dfa811ef0c60d
      0xdd007c2b64c7e076924c21b253c5eb414e32ecaae3a69f15179d7b18da6aa30d5768b3e40b1f2cec8c0406ee1e46447edf87640651ef113f
      0x3e3555fbf2a4057394f61e19e70aa534455633dcf4915772122b02c43d8fd31d8627bd04d4563c941bc0a593ded583cd098feba61d504306
      btT true) = true := by
  decide +kernel

/-- P8, P9. -/
theorem test_paddn :
    answers (.paddn 1 0 0 false) blank (fun t => holds (t.getP 1) 0 4 4 0 false) = true ∧
    answers (.paddn 1 0 0 false) withN (fun t => holds (t.getP 1) sumX sumY sumZ sumT false) = true := by
  decide +kernel

/-- P11, P12. -/
theorem test_psubn_psubpn :
    answers (.psubn 1 0 0 false) withN (fun t => holds (t.getP 1) 0 sumZ sumZ 0 false) = true ∧
    answers (.psubpn 1 0 0 false) withN (fun t => holds (t.getP 1) 0 sumZ sumZ 0 false) = true := by
  decide +kernel

/-- P10. -/
theorem test_paddpn :
    answers (.paddpn 1 0 0 false) withN (fun t => holds (t.getP 1) sumX sumY sumZ sumT false) = true := by
  decide +kernel

/-- P13, P14. -/
theorem test_padd :
    answers (.padd 1 0 0 false) withBE (fun t => holds (t.getP 1) sumX sumY sumZ sumT false) = true ∧
    answers (.padd 1 0 2 true) withBE (fun t => (t.getP 1).coords.t.val == btT && (t.getP 1).ts) = true := by
  decide +kernel

/-- P6, P7. -/
theorem test_pton :
    answers (.pton 1 2) blank (fun t => t.getN 1 == ⟨fe 1, fe 1, fe 0, fe 1⟩) = true ∧
    answers (.pton 1 0) withBE (fun t => t.getN 1 == niels) = true := by
  decide +kernel

/-- P15, P16. -/
theorem test_ncneg :
    answers (.ncneg 1 0 0) ((blank.setN 0 ⟨fe 2, fe 3, fe 4, fe 5⟩).setM 0 ones)
      (fun t => t.getN 1 == ⟨fe 3, fe 2, fe (fieldP - 4), fe 5⟩) = true ∧
    answers (.ncneg 1 0 0) (blank.setN 0 ⟨fe 2, fe 3, fe 4, fe 5⟩)
      (fun t => t.getN 1 == ⟨fe 2, fe 3, fe 4, fe 5⟩) = true := by
  decide +kernel

/-- P1, P25. -/
theorem test_pid_pmov :
    answers (.pid 0) withBE (fun t => holds (t.getP 0) 0 1 1 0 false) = true ∧
    answers (.pmov 2 0) (withP 1 2 3 4 true) (fun t => holds (t.getP 2) 1 2 3 4 true) = true := by
  decide +kernel

/-- P17, P18. -/
theorem test_peq :
    answers (.peq 0 0 1) (blank.setP 1 ⟨⟨fe 0, fe (fieldP - 1), fe (fieldP - 1), fe 0⟩, false⟩)
      (fun t => t.getM 0 == ones) = true ∧
    answers (.peq 0 0 1) (withBE.setP 1 ⟨dbl (withBE.getP 0).coords false, false⟩) (fun t => t.getM 0 == 0) = true := by
  decide +kernel

/-- P19, P20, P21. -/
theorem test_pvalid :
    answers (.pvalid 0 0) withBE (fun t => t.getM 0 == ones) = true ∧
    answers (.pvalid 0 0) (withP 0 1 0 0 false) (fun t => t.getM 0 == 0) = true ∧
    answers (.pvalid 0 0) (withP 1 1 1 1 false) (fun t => t.getM 0 == 0) = true := by
  decide +kernel

/-- P22, P23. -/
theorem test_pfx_pxf :
    answers (.pfx 0 4) ((((blank.setF 4 (fe 1)).setF 5 (fe 2)).setF 6 (fe 3)).setF 7 (fe 4))
      (fun t => holds (t.getP 0) 1 2 3 4 false) = true ∧
    answers (.pxf 4 0) (withP 1 2 3 4 true) (fun t => (t.getF 4).val == 1 && (t.getF 5).val == 2 &&
      (t.getF 6).val == 3 && (t.getF 7).val == 4 && t.cause == 0) = true := by
  decide +kernel

/-- P24. -/
theorem test_nfx_nxf :
    answers (.nfx 0 8) ((((blank.setF 8 (fe 6)).setF 9 (fe 7)).setF 10 (fe 8)).setF 11 (fe 9))
      (fun t => t.getN 0 == ⟨fe 6, fe 7, fe 8, fe 9⟩) = true ∧
    answers (.nxf 8 1) (blank.setN 1 ⟨fe 2, fe 3, fe 4, fe 5⟩) (fun t => (t.getF 8).val == 2 &&
      (t.getF 9).val == 3 && (t.getF 10).val == 4 && (t.getF 11).val == 5) = true := by
  decide +kernel

/-- X20, X21, X24, X25. -/
theorem test_stale_t :
    answers (.pton 0 1) (blank.setP 1 ⟨ExtPoint.identity, true⟩) (fun t => t.cause == 7 && t.einfo == 1) = true ∧
    answers (.padd 0 2 1 false) (blank.setP 1 ⟨ExtPoint.identity, true⟩) (fun t => t.cause == 7 && t.einfo == 1) = true ∧
    answers (.pdbl 0 1 false) (blank.setP 1 ⟨ExtPoint.identity, true⟩) (fun t => t.cause == 0) = true ∧
    answers (.peq 0 1 2) (blank.setP 1 ⟨ExtPoint.identity, true⟩) (fun t => t.cause == 0) = true := by
  decide +kernel

/-- E1. -/
theorem test_psmul :
    answers (.psmul 1 0 0) (withBE.setS 0 (sca 1)) (fun t => holds (t.getP 1)
      0xeafe20567b62c5d4c3bad27082a23cd61fe32db0696b408647f198a2afdcd8294254068fa12e25ea7c3fb22c8a346652a2ed83db1485002d
      0x50d50a13981e6d6b12eafc39d26044955f84862afd9e12282088003cebe08883d16f9ffcc68819a90dce1545c2db013fba9fbe2a2cbee1e2
      0x68303c0a01b5e084a42b9d35aa54a3445f03a8dbaa3c47eb9fba320a44cdae7e6c85f63cb88037475ef8e195d4b92c252932e2344e16a915
      0x4e48e550b784f0b2872c4489628c5cf0fe61e8e700e2ffd7fd4af4d04edb4e264ed20fac8b3e4dbbe1fd78939baa85322974305c6b918c7a
      false) = true := by
  decide +kernel

/-- B_T as BASE_POINT. -/
def bt : AffinePoint := ⟨fe btX, fe btY⟩

/-- The fixed-window vectors of 95_test_vectors.md 3.7 for k = 1: s, and the digits of windows 0 to 5. -/
theorem test_windows :
    (offsetHalve (sca 1)).val = 0x419aee0b1dd8925b2894e4b7ef499ec6b91d38556e439eb6aa53dd868 ∧
    ((List.range 6).map fun w => 2 * (windowDigit (offsetHalve (sca 1)).val w : Int) - 31) =
      [-15, -25, 13, 23, 7, 5] := by
  decide +kernel

/-- 46_scalarmul.md R830 by hand: n(0, 15) and n(1, 0). PBMUL itself answers for every base point. -/
theorem test_pbmul :
    combMultiple 0 15 = 2 ^ 72 + 2 ^ 54 + 2 ^ 36 + 2 ^ 18 + 1 ∧
    combMultiple 1 0 = 2 ^ 162 - 2 ^ 144 - 2 ^ 126 - 2 ^ 108 - 2 ^ 90 ∧
    answers (.pbmul 1 0) withBE (fun t => !(t.getP 1).ts && t.pc == 1) = true := by
  decide +kernel

/-- E9, of the operation that PDSMUL runs, with BASE_POINT = B_T. -/
theorem test_double_base :
    holds ⟨doubleBaseMultiply bt (sca 1) (withBE.getP 0).coords (sca 0), false⟩
      0x543707d71d5020efa537d4bf6acda6f15ab01d288e63207a20699b2292538fef10c31ab7f71e340809612f852197b473f2b3f3c828a2190a
      0xed94264e577be86b7b400ba7b50fac78f7f5ea72616ae6a80cbc11f1d053753d41bc13ccef613104948ff07a2b795b99f3d1eeffcc9744c4
      4
      0x5600b01727e8ef938a624509a064dfddf90c0547b00f907b532a53ca4cd3549c5949113e9dd942e067c85c1930c8c4c60d71575095df7f37
      false = true := by
  decide +kernel

/-- E11: with two zero scalars PDSMUL gives the identity, whatever the base point. -/
theorem test_pdsmul :
    answers (.pdsmul 1 0 0 1) withBE (fun t => holds (t.getP 1) 0 1 1 0 false) = true := by
  decide +kernel

/-- The rows v = 31, 33, 4660 and 0xabcdef of the recoding vectors. -/
theorem test_recode :
    recodeWnaf 31 3 = [(0, -1), (5, 1)] ∧ recodeWnaf 33 5 = [(0, 33)] ∧ recodeWnaf 4660 5 = [(2, 13), (9, 9)] ∧
    recodeWnaf 0xabcdef 3 = [(0, 15), (5, 15), (10, -13), (18, 11), (23, 1)] := by
  decide +kernel

/-! ### The whole step -/

/-- The state in which the next step runs the word w. -/
def running (w : Nat) : State := State.reset.withFetchWord 64 w

/-- The step answers a next state with the given property. -/
def stepAnswers (s : State) (p : State → Bool) : Bool :=
  match step s with
  | .next t => p t
  | .fault _ => false
  | .refused _ => false

theorem test_step_runs_fetched_word :
    stepAnswers (running 0x1930000000000001) (fun t => (t.getF 3).val == 1 && t.pc == 1 && t.busy) = true ∧
    decodeTableWord 64 0x1930000000000001 = some (.fconst 3 1) := by
  decide +kernel

/-- Q15, X1, X3, X10 through the step. -/
theorem test_step_exceptions :
    stepAnswers { running 0 with pc := 512 } (fun t => t.cause == 4 && t.einfo == 512 && t.epc == 512) = true ∧
    stepAnswers (running 0x0900000000000000) (fun t => t.cause == 1 && t.einfo == 0x09000000 && !t.busy) = true ∧
    stepAnswers (running 0x1012300400000000) (fun t => t.cause == 2 && t.einfo == 0x10123004) = true ∧
    stepAnswers (running 0x1900000000000006) (fun t => t.cause == 3 && t.einfo == 6) = true := by
  decide +kernel

/-- 10_state.md R141: START from ENTRY, then a write of IE. -/
theorem test_host_start :
    stepAnswers { blank with entry := 9, host := [.write 4 .word 9] }
      (fun t => t.busy && t.pc == 9 && t.ie && t.host == []) = true := by
  decide +kernel

/-- 20_memory.md R231: the word at window offset 0x1004 is the high half of IMEM[0]. -/
theorem test_host_window :
    stepAnswers { blank with host := [.write 0x1004 .word 0x10123000] }
      (fun t => t.imemWord 0 == 0x1012300000000000) = true := by
  decide +kernel

/-- 60_exceptions.md R1006: at a boundary the latch stops the run before the command and is cleared; the HALT
in progress stands, and the latch stays. -/
theorem test_abort :
    stepAnswers { running 0x0100000000000000 with abortLatch := true }
      (fun t => t.cause == 8 && t.epc == 0 && t.err && !t.done && !t.busy && !t.abortLatch) = true ∧
    stepAnswers { running 0x0100000000000000 with abortLatch := true, inProgress := true }
      (fun t => t.cause == 0 && !t.err && t.done && !t.busy && t.abortLatch && !t.inProgress) = true := by
  decide +kernel

/-- 10_state.md R141: ABORT and START in one write while the last command is in progress latch the abort and
start nothing; the core is still BUSY. -/
theorem test_abort_in_progress :
    stepAnswers { running 0x0100000000000000 with inProgress := true, host := [.write 4 .word 3] }
      (fun t => t.abortLatch && t.inProgress && t.busy && !t.done) = true ∧
    stepAnswers { running 0x0100000000000000 with host := [.letCoreBegin] }
      (fun t => t.inProgress && t.busy && t.pc == 0) = true := by
  decide +kernel

/-- 00_scope.md R19: the identity, a point of order 2 and a point off the curve are no base points. -/
theorem test_legal_base :
    (⟨fe 0, fe 1⟩ : AffinePoint).legalBase = false ∧ (⟨fe 0, fe (fieldP - 1)⟩ : AffinePoint).onCurve = true ∧
    (⟨fe 0, fe (fieldP - 1)⟩ : AffinePoint).legalBase = false ∧ (⟨fe 1, fe 5⟩ : AffinePoint).onCurve = false := by
  decide +kernel

/-- 20_memory.md R230: an access wider than a word is ignored if a write and returns 0 if a read. -/
theorem test_host_wider :
    stepAnswers { blank with host := [.write 0x2000 .wider 0xFF] } (fun t => t == blank) = true ∧
    stepAnswers { blank with host := [.read 0x000 .wider] } (fun t => t.hostRead == some 0) = true := by
  decide +kernel

/-- 10_state.md R180 through a soft reset (R1101). -/
theorem test_soft_reset :
    stepAnswers { withBE with lc := 5, host := [.write 4 .word 4] }
      (fun t => holds (t.getP 0) 0 1 1 0 false && t.lc == 0) = true := by
  decide +kernel

/-! ## Witnesses: for every obligation with hypotheses, values that meet them -/

theorem test_witness_EncodedCommandsDecode : (Instr.fmulc 1 2 67108863).wf = true ∧ (Instr.pxf 12 7).wf = true := by
  decide

theorem test_witness_EveryCommandHasOneWord :
    decode 0x1501000003FFFFFF = .ok (.fmulc 0 1 67108863) ∧ decode 0x5CC7000000000000 = .ok (.pxf 12 7) := by
  decide

/-- The ends of the unassigned ranges, and the assigned opcodes beside them. -/
theorem test_witness_UnassignedOpcodes :
    ([0x09, 0x0F, 0x1C, 0x1F, 0x24, 0x27, 0x2F, 0x33, 0x3F, 0x49, 0x4F, 0x63, 0xFF].all fun op =>
      decide (decode (BitVec.ofNat 64 (op * 2 ^ 56)) = .error (.illegalOpcode (BitVec.ofNat 32 (op * 2 ^ 24))))) = true ∧
    ([0x08, 0x10, 0x1B, 0x20, 0x23, 0x28, 0x2E, 0x30, 0x32, 0x40, 0x48, 0x50, 0x62].all fun op =>
      match decode (BitVec.ofNat 64 (op * 2 ^ 56)) with
      | .ok _ => true
      | .error _ => false) = true := by
  decide +kernel

/-- FADD with MOD[2] set (X3); w[55], the highest bit below OP, of PDBL (X5). -/
theorem test_witness_ReservedZeroBits :
    (∃ r ∈ opcodeMap, (0x1012300400000000 : CommandWord).toNat / 2 ^ 56 = r.op.toNat ∧
      r.mask.getLsbD 34 = true ∧ (0x1012300400000000 : CommandWord).getLsbD 34 = true) ∧
    (∃ r ∈ opcodeMap, (0x5090000000000000 : CommandWord).toNat / 2 ^ 56 = r.op.toNat ∧
      r.mask.getLsbD 55 = true ∧ (0x5090000000000000 : CommandWord).getLsbD 55 = true) := by
  decide +kernel

theorem test_witness_OperandAndImmediateRanges :
    12 < (13 : BitVec 4).toNat ∧ 12 < (15 : BitVec 4).toNat ∧
    ¬ (-67108864 < (67108864 : BitVec 32).toInt ∧ (67108864 : BitVec 32).toInt < 67108864) ∧
    ¬ (-67108864 < (BitVec.ofInt 32 (-67108864)).toInt ∧ (BitVec.ofInt 32 (-67108864)).toInt < 67108864) ∧
    5 < (6 : BitVec 16).toNat ∧ 1 < (2 : BitVec 16).toNat ∧ 3 < (4 : BitVec 16).toNat ∧ 5 < (65535 : BitVec 16).toNat := by
  decide

/-- A FCONST at the first and at the last word of IMEM, with both hosts, and a HALT in progress, with the latch
set. -/
theorem test_witness_StepRunsTheDecodedCommand :
    (let s := running 0x1930000000000001
     s.run = .running ∧ s.inProgress = false ∧ s.abortLatch = false ∧ s.pc.toNat < 512 ∧ s.host = [] ∧
     decode (BitVec.ofNat 64 (bytesValue s.imem (8 * s.pc.toNat) 8)) = .ok (.fconst 3 1)) ∧
    (let s := { running 0x0100000000000000 with inProgress := true, abortLatch := true, host := [.letCoreStep] }
     s.run = .running ∧ s.inProgress = true ∧ s.pc.toNat < 512 ∧ s.host = [.letCoreStep] ∧
     decode (BitVec.ofNat 64 (bytesValue s.imem (8 * s.pc.toNat) 8)) = .ok .halt) ∧
    (let s := { ({ blank with pc := 511 } : State).withFetchWord 64 0x1930000000000001 with host := [.letCoreStep] }
     s.run = .running ∧ s.inProgress = false ∧ s.abortLatch = false ∧ s.pc.toNat = 511 ∧ s.host = [.letCoreStep] ∧
     decode (BitVec.ofNat 64 (bytesValue s.imem (8 * s.pc.toNat) 8)) = .ok (.fconst 3 1)) := by
  decide +kernel

/-- Each case: idle (with both hosts), aborted, pc at 512 at a boundary and in progress, the three rejected
words, and the three outcomes at a boundary. -/
theorem test_witness_FetchExceptions :
    (blank.host = [] ∧ blank.run = .idle) ∧
    (let s := { blank with host := [.letCoreStep] }
     s.host = [.letCoreStep] ∧ s.run = .idle) ∧
    (let s := { running 0 with abortLatch := true }
     s.host = [] ∧ s.run = .running ∧ s.inProgress = false ∧ s.abortLatch = true) ∧
    (let s := { running 0 with pc := 512 }
     s.host = [] ∧ s.run = .running ∧ s.abortLatch = false ∧ 512 ≤ s.pc.toNat) ∧
    (let s := { running 0 with pc := 0xFFFF, inProgress := true, abortLatch := true }
     s.host = [] ∧ s.run = .running ∧ s.inProgress = true ∧ 512 ≤ s.pc.toNat) ∧
    (([(0x0900000000000000, DecodeError.illegalOpcode 0x09000000),
       (0x1012300400000000, .illegalOperand 0x10123004), (0x1900000000000006, .badImmediate 6)].all fun e =>
      let s := running e.1
      decide (s.host = [] ∧ s.run = .running ∧ s.abortLatch = false ∧ s.pc.toNat < 512 ∧
        decode (BitVec.ofNat 64 (bytesValue s.imem (8 * s.pc.toNat) 8)) = .error e.2)) = true) ∧
    ([{ blank with host := [.letCoreBegin] }, { running 0 with host := [.letCoreBegin], abortLatch := true },
      { running 0 with host := [.letCoreBegin] }].map fun s => (s.run, s.inProgress, s.abortLatch)) =
      [(.idle, false, false), (.running, false, true), (.running, false, false)] := by
  decide +kernel

theorem test_witness_FieldMultiplyByConstant :
    (-67108864 < (67108863 : BitVec 32).toInt ∧ (67108863 : BitVec 32).toInt < 67108864) ∧
    (-67108864 < (BitVec.ofInt 32 (-67108863)).toInt ∧ (BitVec.ofInt 32 (-67108863)).toInt < 67108864) ∧
    67108864 ≤ |(67108864 : BitVec 32).toInt| ∧ 67108864 ≤ |(BitVec.ofInt 32 (-67108864)).toInt| := by
  decide

theorem test_witness_FieldConstants : 5 < (6 : BitVec 16).toNat := by decide

theorem test_witness_FieldInversion :
    ((withF 0 0).getF 1).val = 0 ∧ ((withF (fieldP - 1) 0).getF 1).val ≠ 0 := by
  decide +kernel

/-- 0; the square 4 = 2·2; p - 1, which is no square since p % 4 = 3. -/
theorem test_witness_FieldInverseSquareRoot :
    ((withF 0 0).getF 1).val = 0 ∧
    (((withF 4 0).getF 1).val ≠ 0 ∧ ∃ y, y * y % fieldP = ((withF 4 0).getF 1).val) ∧
    ¬ ∃ y, y * y % fieldP = ((withF (fieldP - 1) 0).getF 1).val := by
  refine ⟨by decide +kernel, ⟨by decide +kernel, 2, by decide +kernel⟩, ?_⟩
  rw [show ((withF (fieldP - 1) 0).getF 1).val = fieldP - 1 by decide +kernel]
  rintro ⟨y, hy⟩
  have : Fact fieldP.Prime := ⟨fieldP_prime⟩
  refine ZMod.exists_sq_eq_neg_one_iff.mp ⟨(y : ZMod fieldP), ?_⟩ (show fieldP % 4 = 3 by decide)
  have h := congrArg (Nat.cast : Nat → ZMod fieldP) hy
  rw [ZMod.natCast_mod, Nat.cast_sub fieldP_pos] at h
  simpa using h.symm

theorem test_witness_MaskLogic : 1 < (2 : BitVec 16).toNat := by decide

/-- MaskLoadStore, FieldLoad, FieldLoadStripped, FieldStore, FieldRoundTrip and ScalarLoadStore ask for a good
address, the stores for the invariant as well. The last good address of each width, with and without ar; the reset state satisfies the invariant. -/
theorem test_witness_good_addresses :
    GoodAddress 4 false 4092 blank ∧ GoodAddress 56 false 4040 blank ∧ GoodAddress 57 false 4036 blank ∧
    GoodAddress 56 true 8 { blank with ar := 0xFC0 } ∧ GoodAddress 56 true 0x20 { blank with ar := 0xFFF0 } ∧
    blank.Inv := by
  simp only [GoodAddress]
  decide +kernel

theorem test_witness_ScalarHalveMoveConstant : 3 < (4 : BitVec 16).toNat := by decide

theorem test_witness_ScalarProperties : (1 : SReg) ≠ 2 ∧ blank.Inv ∧ GoodAddress 56 false 0 blank := by
  simp only [GoodAddress]
  decide +kernel

/-- A misaligned address, also one out of range, and the first aligned addresses out of range of each width. -/
theorem test_witness_MemoryFaults :
    4098 % 4 ≠ 0 ∧ 2 % 4 ≠ 0 ∧ (4096 % 4 = 0 ∧ 4096 < 4096 + 4) ∧ (4044 % 4 = 0 ∧ 4096 < 4044 + 56) ∧
    (4040 % 4 = 0 ∧ 4096 < 4040 + 57) := by
  decide

/-- MixedAddition, ProjectedAddition, NielsAndIdentity, PointComparison, BeforeDouble, FreshTIsConsistent,
FixedWindowMultiplication and DoubleBaseMultiplication ask only for operands whose T is fresh. -/
theorem test_witness_fresh_operands : (withBE.getP 0).ts = false ∧ (withBE.getP 1).ts = false := by decide +kernel

theorem test_witness_StaleOperands :
    ((withP 1 2 3 4 true).getP 0).ts = true ∧ ((withP 1 2 3 4 true).getP 1).ts = false := by
  decide +kernel

theorem test_witness_CombDigitsSum : 449 < 450 ∧ 2 ^ 450 - 1 < 2 ^ 450 := by decide +kernel

theorem test_witness_WnafRecoding : recodeWnaf (sca 3).val 1 = [(0, 3)] ∧ 1 ≤ 1 := by decide +kernel

/-- SETLC changes lc, SETA changes ar, FST changes DMEM, MSET changes a mask register. -/
theorem test_witness_OwnersOfTheState :
    answers (.setlc 3) blank (fun t => t.lc != blank.lc) = true ∧
    answers (.seta 3) blank (fun t => t.ar != blank.ar) = true ∧
    answers (.fst 1 false 0) (withF 3 0) (fun t => t.dmem != blank.dmem) = true ∧
    answers (.mset 3 1) blank (fun t => t.getM 3 != blank.getM 3) = true := by
  decide +kernel

theorem test_witness_PowerOnResetValues :
    let s := { withBE with host := [.powerOnReset [(4095, 7)] [(0, 1), (4095, 9)]] }
    s.host = .powerOnReset [(4095, 7)] [(0, 1), (4095, 9)] :: [] ∧
    (∀ e ∈ [((0 : Nat), (1 : BitVec 8)), (4095, 9)], e.1 = 4095 → e = (4095, 9)) ∧ 4095 < 4096 := by
  exact ⟨rfl, by decide, by decide⟩

/-- The running state that is about to store, and the idle one, each with a soft reset to come. -/
theorem test_witness_SoftReset :
    (let s := { running 0x3200000000000000 with inProgress := true, host := [.write 0x004 .word 0xFFFFFFFF] }
     s.Inv ∧ s.run = .running ∧ s.inProgress = true ∧ (0xFFFFFFFF : BitVec 32).getLsbD 2 = true) ∧
    (let s := { blank with host := [.write 0x004 .word 4] }
     s.Inv ∧ s.run = .idle ∧ (4 : BitVec 32).getLsbD 2 = true) := by
  decide +kernel

/-- A running state whose host writes ABORT. -/
def aborting : State := { running 0x1321000000000000 with host := [.write 0x004 .word 2] }

/-- The invariant holds at reset and in a running state, where ABORT sets the latch. -/
theorem test_witness_StepKeepsInvariant :
    State.reset.Inv ∧ aborting.Inv ∧ aborting.abortLatch = false ∧
    stepAnswers aborting (fun t => t.abortLatch) = true := by
  decide +kernel

/-- One run of each ending: HALT, an exception, a soft reset. -/
theorem test_witness_RunOutcome :
    ([running 0x0100000000000000, running 0x0900000000000000,
      { running 0 with host := [.write 0x004 .word 4] }].all fun s =>
        decide (s.Inv) && s.busy && stepAnswers s (fun t => !t.busy)) = true := by
  decide +kernel

/-- Two states that differ in a field register, in a mask register and in DMEM, about to run FADD. -/
theorem test_witness_SecretsStayHidden :
    let s := running 0x1012300000000000
    let t := ((running 0x1012300000000000).setF 2 (fe 5)).setM 1 ones
    PublicEq s { t with dmem := [(0, 1)] } ∧
    decode (BitVec.ofNat 64 (bytesValue s.imem (8 * s.pc.toNat) 8)) = .ok (.fadd 1 2 3) ∧
    ¬ branchesOnMask (.fadd 1 2 3) ∧ stepAnswers s (fun _ => true) = true ∧
    stepAnswers { t with dmem := [(0, 1)] } (fun _ => true) = true := by
  refine ⟨by simp only [PublicEq]; decide +kernel, by decide +kernel, ?_, by decide +kernel, by decide +kernel⟩
  rintro ⟨c, off, h | h⟩ <;> cases h

/-- CTRL = START and IE while IDLE; CTRL = ABORT, START and IE while RUNNING. -/
theorem test_witness_ControlWrite :
    (9 : BitVec 32).getLsbD 2 = false ∧ (11 : BitVec 32).getLsbD 2 = false ∧
    ({ blank with host := [.write 0x004 .word 9] } : State).run = .idle ∧
    ({ running 0 with host := [.write 0x004 .word 11] } : State).run = .running := by
  decide +kernel

/-- The four accesses, each while IDLE and while RUNNING. -/
theorem test_witness_StatusAndEntry :
    ([HostAction.write 0x008 .word 0xF, .write 0x00C .word 7, .read 0x008 .word, .read 0x00C .word].all fun a =>
      stepAnswers { blank with host := [a] } (fun t => t.host == []) &&
      stepAnswers { running 0 with host := [a] } (fun t => t.host == [] && t.busy)) = true := by
  decide +kernel

/-- Reads of the ends of the reserved range, and of PC while IDLE and while RUNNING; a write of ID. -/
theorem test_witness_ControlReads :
    stepAnswers { blank with host := [.read 0x02C .word] } (fun t => t.hostRead == some 0) = true ∧
    stepAnswers { blank with host := [.read 0xFFC .word] } (fun t => t.hostRead == some 0) = true ∧
    stepAnswers { blank with pc := 3, host := [.read 0x010 .word] } (fun t => t.hostRead == some 3) = true ∧
    stepAnswers { running 0 with host := [.read 0x010 .word] } (fun t => t.freeCount == 1) = true ∧
    stepAnswers { blank with host := [.write 0x000 .word 1] } (fun t => t == blank) = true := by
  decide +kernel

/-- The first and the last word of each window while IDLE. -/
theorem test_witness_WindowAccess :
    blank.Inv ∧ blank.run = .idle ∧
    ([(0 : Nat), 1023].all fun k =>
      stepAnswers { blank with host := [.write (BitVec.ofNat 14 (0x1000 + 4 * k)) .word 0x04030201] }
        (fun t => t.imem == [(4 * k, 1), (4 * k + 1, 2), (4 * k + 2, 3), (4 * k + 3, 4)]) &&
      stepAnswers { blank with host := [.write (BitVec.ofNat 14 (0x2000 + 4 * k)) .word 0x04030201] }
        (fun t => t.dmem == [(4 * k, 1), (4 * k + 1, 2), (4 * k + 2, 3), (4 * k + 3, 4)])) = true := by
  decide +kernel

/-- The ends of the refused range while RUNNING; a byte access; an unaligned offset; the reserved part. -/
theorem test_witness_RefusedAccesses :
    ((running 0).run = .running ∧ (0x1000 : BitVec 14).toNat % 4 = 0 ∧ 0x1000 ≤ (0x1000 : BitVec 14).toNat ∧
      (0x2FFC : BitVec 14).toNat % 4 = 0 ∧ (0x2FFC : BitVec 14).toNat < 0x3000) ∧
    AccessSize.byte ≠ .word ∧ AccessSize.half ≠ .word ∧ AccessSize.wider ≠ .word ∧ (0x1002 : BitVec 14).toNat % 4 ≠ 0 ∧ 0x3000 ≤ (0x3000 : BitVec 14).toNat := by
  decide +kernel

end Sys2Proof.Tests
end

section
/-! PROOFS. PBMUL is the comb sequence of 46_scalarmul.md R811 over the table of a legal base point
(statement FixedBaseComb): a packed command decodes to itself, the signed entry of a digit from its bits, the
points inside one spacing position, and what 00_scope.md R19 gives for the base point. -/

namespace Sys2Proof.Machine

/-! ## Encoding -/

/-- A well-formed command whose encoding selects and passes its own row is the command of its fields. -/
theorem encodes_fields {i : Instr} (h : Laws.Encodes.Statement i) (hw : i.wf = true) : Encodes i.fields i := by
  obtain ⟨r, hrow, hmask, hread⟩ := h
  rw [encode] at hmask
  rw [Encodes, decode_pack hrow hmask (hread hw)]

theorem encodes_pbmul (d : PReg) (a : SReg) : Encodes ⟨0x61, reg4 d, reg4 a, 0, 0, 0, 0⟩ (.pbmul d a) := by
  simpa only [Instr.fields, field8_eq_reg4] using encodes_fields (Laws.Encodes.pbmul d a) rfl

/-! ## One spacing position -/

/-- The top bit of a 5-bit digit selects its other four as they are, or complemented and negated (R810). -/
theorem signedEntry_low_top {low top : Nat} (hl : low < 16) (ht : top < 2) (entry : Nat → Niels) :
    signedEntry (low + 16 * top) entry = if top = 1 then entry low else negN (entry (15 - low)) := by
  unfold signedEntry
  interval_cases top <;> interval_cases low <;> rfl

/-- The signed entry of a comb digit, from the digit's five bits (R810). -/
theorem signedEntry_combDigit (s i j : Nat) (entry : Nat → Niels) : signedEntry (combDigit s i j) entry =
    (let bit := fun k => s / 2 ^ (i + 18 * (k + 5 * j)) % 2
     let low := bit 0 + 2 * bit 1 + 4 * bit 2 + 8 * bit 3
     if bit 4 = 1 then entry low else negN (entry (15 - low))) := by
  rw [combDigit_bits]
  exact signedEntry_low_top (by dsimp only; omega) (Nat.mod_lt _ two_pos) entry

/-- The point of spacing position i after its doubling and the additions of its first j groups (R811). -/
def combPartial (b : AffinePoint) (s i : Nat) (q : ExtPoint) : Nat → ExtPoint
  | 0 => dbl q false
  | j + 1 => addN (combPartial b s i q j) (signedEntry (combDigit s i j) (combRom b j)) (j == 4 && i != 0)

/-- A spacing position ends after its fifth group. -/
theorem combStep_eq_combPartial (b : AffinePoint) (s i : Nat) (q : ExtPoint) :
    combStep b s i q = combPartial b s i q 5 := rfl

/-- One group's addition, its entry written out from the bits of s. -/
theorem combPartial_succ (b : AffinePoint) (s i j : Nat) (q : ExtPoint) : combPartial b s i q (j + 1) =
    (let bit := fun k => s / 2 ^ (i + 18 * (k + 5 * j)) % 2
     let low := bit 0 + 2 * bit 1 + 4 * bit 2 + 8 * bit 3
     addN (combPartial b s i q j) (if bit 4 = 1 then combRom b j low else negN (combRom b j (15 - low)))
       (decide (j = 4 ∧ i ≠ 0))) := by
  have hbd : (j == 4 && i != 0) = decide (j = 4 ∧ i ≠ 0) := by simp [bne, beq_eq_decide]
  rw [combPartial, signedEntry_combDigit, hbd]

/-! ## The statement -/

/-- What 00_scope.md R19 demands of the base point, on integers. -/
theorem legalBase_ints {b : AffinePoint} (h : b.legalBase = true) :
    let x : Int := b.x.val
    let y : Int := b.y.val
    let m := (multipleBits b 450 orderL).ints
    (-x ^ 2 + y ^ 2) % fieldP = (1 + -39082 * x ^ 2 * y ^ 2) % fieldP ∧
      (m.x = 0 ∧ m.y = m.z ∧ m.z ≠ 0) ∧ ¬ (x = 0 ∧ y = 1) := by
  obtain ⟨hcurve, hid, hne⟩ := (legalBase_iff b).mp h
  exact ⟨(onCurve_iff b).mp hcurve, (isIdentity_iff _).mp hid, hne⟩

/-- Settles O43: the base point's clause is its legality, and PBMUL's point is the end of the comb loop, whose
spacing positions run through the points `combPartial`. -/
theorem fixedBaseComb : Obligations.FixedBaseComb := by
  refine ⟨legalBase_ints basePoint_legal, fun d a s => ⟨encodes_pbmul d a, ?_⟩⟩
  refine completes_of (exec_pbmul s d a) rfl ((OnlyWrites.refl _ s).setP _ (List.mem_singleton_self d)) ?_
  obtain ⟨q, hstart, hstep, hend⟩ :=
    combLoop_sequence basePoint (offsetHalve (s.getS a)).val 18 ExtPoint.identity
  refine ⟨(offsetHalve (s.getS a)).val, q,
    fun i j => combPartial basePoint (offsetHalve (s.getS a)).val i (q (i + 1)) j,
    (offsetHalve (s.getS a)).isLt, offsetHalve_double _, hstart, fun i hi => ⟨rfl, ?_, ?_⟩, ?_⟩
  · rw [hstep i hi, combStep_eq_combPartial]
  · exact fun j _ => combPartial_succ ..
  · rw [State.advance_getP, State.getP_setP_same, combMultiply, hend]

end Sys2Proof.Machine
end

section
/-! PROOFS. What a command can answer, said once for all 63: updates of what its rule names, an exception of its
own, or HALT; and from it which commands own lc, ar, DMEM and the masks (10_state.md R108, R111, R112, 20_memory.md
R202; statement OwnersOfTheState). -/

namespace Sys2Proof.Machine

/-! ## The updates a command is made of -/

/-- Every mask register holds 0 or ONES (10_state.md R107). -/
def State.MasksLegal (s : State) : Prop := ∀ r : MReg, s.getM r = 0 ∨ s.getM r = ones

/-- t arises from s by updates of what w names and of pc, where a mask is written with a legal word whenever
the masks of s are legal, and a store fills exactly the named bytes, which lie in DMEM. -/
inductive Updates (w : Writes) (s : State) : State → Prop where
  | none : Updates w s s
  | setF {t : State} {d : FReg} (v : Fe) (hd : d ∈ w.f) (h : Updates w s t) : Updates w s (t.setF d v)
  | setS {t : State} {d : SReg} (v : Sc) (hd : d ∈ w.sc) (h : Updates w s t) : Updates w s (t.setS d v)
  | setP {t : State} {d : PReg} (v : PointReg) (hd : d ∈ w.p) (h : Updates w s t) : Updates w s (t.setP d v)
  | setN {t : State} {d : NReg} (v : Niels) (hd : d ∈ w.n) (h : Updates w s t) : Updates w s (t.setN d v)
  | setM {t : State} {d : MReg} (v : BitVec 32) (hd : d ∈ w.m) (hv : s.MasksLegal → v = 0 ∨ v = ones)
      (h : Updates w s t) : Updates w s (t.setM d v)
  | setLc {t : State} (v : BitVec 16) (hl : w.lc = true) (h : Updates w s t) : Updates w s (t.setLc v)
  | setAr {t : State} (v : BitVec 16) (hl : w.ar = true) (h : Updates w s t) : Updates w s (t.setAr v)
  | store {t : State} (v : Nat) (hl : w.len ≠ 0) (hr : w.start + w.len ≤ 4096) (h : Updates w s t) :
      Updates w s (t.storeLE w.start w.len v)
  | advance {t : State} (h : Updates w s t) : Updates w s t.advance
  | branch {t : State} (off : BitVec 16) (h : Updates w s t) : Updates w s (t.branch off)

section
variable {w : Writes} {s t : State}

theorem Updates.setGroup {g : FGroup} (a b c d : Fe) (hg : ∀ k : Fin 4, groupReg g k ∈ w.f)
    (h : Updates w s t) : Updates w s (t.setGroup g a b c d) :=
  (((h.setF a (hg 0)).setF b (hg 1)).setF c (hg 2)).setF d (hg 3)

theorem Updates.setMask {d : MReg} (b : Bool) (hd : d ∈ w.m) (h : Updates w s t) :
    Updates w s (t.setM d (maskOf b)) :=
  h.setM _ hd fun _ => maskOf_legal b

theorem Updates.decodeField {d : FReg} {c : MReg} (v : Nat) (hd : d ∈ w.f) (hc : c ∈ w.m)
    (h : Updates w s t) : Updates w s (t.decodeField d c v) :=
  (h.setF _ hd).setMask _ hc

/-- Updates write only what w names. -/
theorem Updates.onlyWrites (h : Updates w s t) : OnlyWrites w s t := by
  induction h with
  | none => exact .refl w s
  | setF v hd _ ih => exact ih.setF v hd
  | setS v hd _ ih => exact ih.setS v hd
  | setP v hd _ ih => exact ih.setP v hd
  | setN v hd _ ih => exact ih.setN v hd
  | setM v hd _ _ ih => exact ih.setM v hd
  | setLc v hl _ ih => exact ih.setLc v hl
  | setAr v hl _ ih => exact ih.setAr v hl
  | store v _ _ _ ih => exact ih.storeLE v le_rfl le_rfl
  | advance _ ih => exact ih.advance
  | branch off _ ih => exact ih.branch off

/-- Updates that name no bytes leave DMEM as it is, whatever its form. -/
theorem Updates.dmem_eq (h : Updates w s t) (hl : w.len = 0) : t.dmem = s.dmem := by
  induction h with
  | none => rfl
  | store _ hne => exact absurd hl hne
  | _ => assumption

/-- Updates keep the invariant: only a mask write and a store touch what it speaks of. -/
theorem Updates.inv (h : Updates w s t) (hs : s.Inv) : t.Inv := by
  induction h with
  | none => exact hs
  | @setM t d v _ hv _ ih =>
    obtain ⟨hd, hdi, hi, hii, hm, hrest⟩ := ih
    refine ⟨hd, hdi, hi, hii, fun r => ?_, hrest⟩
    rw [State.getM_setM]
    split
    · obtain ⟨_, _, _, _, hlegal, _⟩ := hs
      exact hv hlegal
    · exact hm r
  | store v _ hr _ ih =>
    obtain ⟨hd, hdi, hrest⟩ := ih
    exact ⟨Memory.wf_writeLE _ _ v hd, Memory.within_writeLE v hdi hr, hrest⟩
  | _ => assumption

end

/-! ## What a command can answer -/

/-- The result is the next state after updates of what w names, or after one of the three exceptions a command
raises itself. -/
def Answers (w : Writes) (s : State) (r : Result) : Prop :=
  ∃ t, r = .next t ∧ (Updates w s t ∨
    ∃ c info, (c = .dmemMisaligned ∨ c = .dmemRange ∨ c = .staleT) ∧ t = s.raise c info)

section
variable {w : Writes} {s t : State}

theorem Answers.next (h : Updates w s t) : Answers w s (.next t) := ⟨t, rfl, .inl h⟩

theorem Answers.complete (h : Updates w s t) : Answers w s (complete t) := .next h.advance

theorem Answers.raised {c : Cause} (info : BitVec 32) (hc : c = .dmemMisaligned ∨ c = .dmemRange ∨ c = .staleT) :
    Answers w s (raised s c info) :=
  ⟨_, rfl, .inr ⟨c, info, hc, rfl⟩⟩

theorem Answers.memoryCommand {n : Nat} {am : Bool} {base : BitVec 16} {act : Nat → State}
    (h : GoodAddress n am base s → Updates w s (act (s.effAddr am base).toNat)) :
    Answers w s (memoryCommand n am base s act) := by
  obtain ⟨hgood, he⟩ | he | he := memoryCommand_cases n am base s act <;> rw [he]
  · exact .complete (h hgood)
  · exact .raised _ (.inl rfl)
  · exact .raised _ (.inr (.inl rfl))

theorem Answers.withFreshT {a : PReg} {k : ExtPoint → Result} (h : ∀ q, Answers w s (k q)) :
    Answers w s (withFreshT a s k) := by
  cases hts : (s.getP a).ts with
  | false => rw [withFreshT_fresh k hts]; exact h _
  | true => rw [withFreshT_stale k hts]; exact .raised _ (.inr (.inr rfl))

end

/-! ## Masks of legal masks -/

theorem State.MasksLegal.and {s : State} (h : s.MasksLegal) (a b : MReg) :
    s.getM a &&& s.getM b = 0 ∨ s.getM a &&& s.getM b = ones := by
  rcases h a with ha | ha <;> rcases h b with hb | hb <;> rw [ha, hb] <;> decide

theorem State.MasksLegal.or {s : State} (h : s.MasksLegal) (a b : MReg) :
    s.getM a ||| s.getM b = 0 ∨ s.getM a ||| s.getM b = ones := by
  rcases h a with ha | ha <;> rcases h b with hb | hb <;> rw [ha, hb] <;> decide

theorem State.MasksLegal.xor {s : State} (h : s.MasksLegal) (a b : MReg) :
    s.getM a ^^^ s.getM b = 0 ∨ s.getM a ^^^ s.getM b = ones := by
  rcases h a with ha | ha <;> rcases h b with hb | hb <;> rw [ha, hb] <;> decide

theorem State.MasksLegal.not {s : State} (h : s.MasksLegal) (a : MReg) :
    s.getM a ^^^ ones = 0 ∨ s.getM a ^^^ ones = ones := by
  rcases h a with ha | ha <;> rw [ha] <;> decide

theorem groupReg_mem (g : FGroup) (k : Fin 4) :
    groupReg g k ∈ [groupReg g 0, groupReg g 1, groupReg g 2, groupReg g 3] := by
  fin_cases k <;> simp

/-- Every command but HALT answers with updates of what its rule names, or with an exception of its own. -/
theorem exec_answers (i : Instr) (s : State) (hi : i ≠ .halt) : Answers (writesOf i s) s (exec i s) := by
  have single {α : Type} {a : α} : a ∈ [a] := List.mem_singleton_self a
  cases i with
  | halt => exact absurd rfl hi
  | nop => exact .complete .none
  | jmp off => exact .next (.branch off .none)
  | bmt c off =>
    rw [exec_bmt, execBmt]
    split
    · exact .next (.branch off .none)
    · exact .complete .none
  | bmf c off =>
    rw [exec_bmf, execBmf]
    split
    · exact .next (.branch off .none)
    · exact .complete .none
  | djnz off =>
    have hlc : Updates (writesOf (.djnz off) s) s (s.setLc (s.lc - 1)) := .setLc _ rfl .none
    rw [exec_djnz, execDjnz]
    split
    · exact .next (.branch off hlc)
    · exact .complete hlc
  | setlc u => exact .complete (.setLc u rfl .none)
  | seta u | adda u => exact .complete (.setAr _ rfl .none)
  | fadd d | fsub d | fneg d | fmul d | fsqr d | fmulc d | fwred d | fsred d | fmov d | fconst d | finv d
  | fsel d | fcneg d => exact .complete (.setF _ single .none)
  | fisr d a c => exact .complete (.setMask _ single (.setF _ single .none))
  | fcswap a b c =>
    rw [exec_fcswap, execFcswap]
    have hpair (x y : Fe) : Updates (writesOf (.fcswap a b c) s) s ((s.setF a x).setF b y) :=
      .setF _ (.tail _ (.head _)) (.setF _ (.head _) .none)
    split
    · exact .complete (hpair ..)
    · exact .complete (hpair ..)
  | feq d | mset d | peq d => exact .complete (.setMask _ single .none)
  | mand d a b => exact .complete (.setM _ single (·.and a b) .none)
  | mor d a b => exact .complete (.setM _ single (·.or a b) .none)
  | mxor d a b => exact .complete (.setM _ single (·.xor a b) .none)
  | mnot d a => exact .complete (.setM _ single (·.not a) .none)
  | mld d am base =>
    rw [exec_mld, execMld]
    exact .memoryCommand fun _ => .setMask _ single .none
  | fld d c am base =>
    rw [exec_fld, execFld]
    exact .memoryCommand fun _ => .decodeField _ single single .none
  | fldm d c am strip base =>
    rw [exec_fldm, execFldm]
    exact .memoryCommand fun _ => .decodeField _ single single .none
  | sld d c am base =>
    rw [exec_sld, execSld]
    exact .memoryCommand fun _ => .setMask _ single (.setS _ single .none)
  | mst a am base =>
    rw [exec_mst, execMst]
    exact .memoryCommand fun hgood => .store _ (by simp [writesOf]) hgood.2 .none
  | fst a am base =>
    rw [exec_fst, execFst]
    exact .memoryCommand fun hgood => .store _ (by simp [writesOf]) hgood.2 .none
  | sst a am base =>
    rw [exec_sst, execSst]
    exact .memoryCommand fun hgood => .store _ (by simp [writesOf]) hgood.2 .none
  | sadd d | ssub d | smont d | smul d | shalve d | smov d | sconst d =>
    exact .complete (.setS _ single .none)
  | pdbl d | pid d | pmov d | pfx d | pbmul d => exact .complete (.setP _ single .none)
  | paddn d | psubn d | paddpn d | psubpn d =>
    simp only [exec_paddn, exec_psubn, exec_paddpn, exec_psubpn, execPaddn, execPsubn, execPaddpn, execPsubpn]
    exact .withFreshT fun _ => .complete (.setP _ single .none)
  | psmul d | pdsmul d =>
    simp only [exec_psmul, exec_pdsmul, execPsmul, execPdsmul]
    exact .withFreshT fun _ => .complete (.setP _ single .none)
  | padd d =>
    rw [exec_padd, execPadd]
    exact .withFreshT fun _ => .withFreshT fun _ => .complete (.setP _ single .none)
  | pton d =>
    rw [exec_pton, execPton]
    exact .withFreshT fun _ => .complete (.setN _ single .none)
  | ncneg d | nfx d => exact .complete (.setN _ single .none)
  | pvalid d =>
    rw [exec_pvalid, execPvalid]
    exact .withFreshT fun _ => .complete (.setMask _ single .none)
  | pxf g =>
    rw [exec_pxf, execPxf]
    exact .complete (.setGroup _ _ _ _ (groupReg_mem g) .none)
  | nxf g =>
    rw [exec_nxf, execNxf]
    exact .complete (.setGroup _ _ _ _ (groupReg_mem g) .none)

/-! ## Which commands own lc, ar, DMEM and the masks -/

theorem writesOf_lc {i : Instr} {s : State} (h : (writesOf i s).lc = true) :
    (∃ u, i = .setlc u) ∨ ∃ off, i = .djnz off := by
  cases i with
  | setlc u => exact .inl ⟨u, rfl⟩
  | djnz off => exact .inr ⟨off, rfl⟩
  | _ => cases h

theorem writesOf_ar {i : Instr} {s : State} (h : (writesOf i s).ar = true) :
    (∃ u, i = .seta u) ∨ ∃ v, i = .adda v := by
  cases i with
  | seta u => exact .inl ⟨u, rfl⟩
  | adda v => exact .inr ⟨v, rfl⟩
  | _ => cases h

theorem writesOf_len {i : Instr} {s : State} (h : (writesOf i s).len ≠ 0) :
    (∃ a am base, i = .mst a am base) ∨ (∃ a am base, i = .fst a am base) ∨
      ∃ a am base, i = .sst a am base := by
  cases i with
  | mst a am base => exact .inl ⟨a, am, base, rfl⟩
  | fst a am base => exact .inr (.inl ⟨a, am, base, rfl⟩)
  | sst a am base => exact .inr (.inr ⟨a, am, base, rfl⟩)
  | _ => exact absurd rfl h

theorem writesOf_m {i : Instr} {s : State} {r : MReg} (h : r ∈ (writesOf i s).m) :
    (∃ a b, i = .feq r a b) ∨ (∃ a b, i = .peq r a b) ∨ (∃ a, i = .pvalid r a) ∨
      (∃ d a, i = .fisr d a r) ∨ (∃ d am base, i = .fld d r am base) ∨
      (∃ d am strip base, i = .fldm d r am strip base) ∨ (∃ d am base, i = .sld d r am base) ∨
      (∃ k, i = .mset r k) ∨ (∃ a b, i = .mand r a b) ∨ (∃ a b, i = .mor r a b) ∨
      (∃ a b, i = .mxor r a b) ∨ (∃ a, i = .mnot r a) ∨ ∃ am base, i = .mld r am base := by
  cases i with
  | feq | peq | pvalid | fisr | fld | fldm | sld | mset | mand | mor | mxor | mnot | mld =>
    obtain rfl := List.mem_singleton.mp h
    simp
  | _ => cases h

/-- What no command changes, and what only the commands that name it change. HALT and an exception change
none of it. -/
theorem exec_keeps {i : Instr} {s t : State} (he : exec i s = .next t) :
    ((writesOf i s).lc = false → t.lc = s.lc) ∧ ((writesOf i s).ar = false → t.ar = s.ar) ∧
    t.imem = s.imem ∧ t.entry = s.entry ∧ t.ie = s.ie ∧ t.hac = s.hac ∧
    ((writesOf i s).len = 0 → t.dmem = s.dmem) ∧ ∀ r, r ∉ (writesOf i s).m → t.getM r = s.getM r := by
  by_cases hi : i = .halt
  · subst hi
    cases he
    simp
  · obtain ⟨u, hu, hcases⟩ := exec_answers i s hi
    obtain rfl : u = t := by simpa [hu] using he
    obtain hup | ⟨c, info, -, rfl⟩ := hcases
    · obtain ⟨-, -, -, -, hm, hlc, har, -, hcontrol⟩ := hup.onlyWrites
      obtain ⟨-, -, -, hie, -, -, hhac, hentry, -, -, -, himem, -⟩ := hcontrol
      exact ⟨hlc, har, himem, hentry, hie, hhac, hup.dmem_eq, hm⟩
    · simp

/-- Settles O49: a change betrays that `writesOf` names the register or the bytes, and only the owners' rows do. -/
theorem ownersOfTheState : Obligations.OwnersOfTheState := by
  intro i s t he
  obtain ⟨hlc, har, himem, hentry, hie, hhac, hdmem, hm⟩ := exec_keeps he
  exact ⟨fun h => writesOf_lc (by simpa using mt hlc h), fun h => writesOf_ar (by simpa using mt har h),
    himem, hentry, hie, hhac, fun h => writesOf_len (mt hdmem h), fun r h => writesOf_m (not_not.mp (mt (hm r) h))⟩

end Sys2Proof.Machine
end

section
/-! PROOFS. Every step keeps the invariant (10_state.md R107, R114, R142, R180; 60_exceptions.md R1013; statements
InvariantAtReset and StepKeepsInvariant): a command by its updates or its exception, the turn of the core, and
everything a host access can do. -/

namespace Sys2Proof.Machine

/-! ## The invariant through what ends a run, starts one or resets -/

theorem State.powerOn_inv {imem dmem : Memory} (host : List HostAction) (hostRead : Option (BitVec 32)) (n : Nat)
    (hi : imem.wf = true ∧ imem.within Config.imemBytes = true)
    (hd : dmem.wf = true ∧ dmem.within Config.dmemBytes = true) :
    (State.powerOn imem dmem host hostRead n).Inv := by
  have hmask (r : MReg) : (State.powerOn imem dmem host hostRead n).getM r = 0 := by
    simp [State.getM, State.powerOn]
  exact ⟨hd.1, hd.2, hi.1, hi.2, fun r => .inl (hmask r), by simp [State.powerOn]⟩

/-- Settles O52: reset is a power-on with both memories empty. -/
theorem invariantAtReset : Obligations.InvariantAtReset :=
  State.powerOn_inv [] none 0 ⟨rfl, rfl⟩ ⟨rfl, rfl⟩

theorem causeCode_range (c : Cause) : causeCode c ≠ 0 ∧ causeCode c ≤ 8 := by cases c <;> decide

section
variable {s : State}

theorem State.Inv.raise (hs : s.Inv) (hrun : s.run = .running) (hp : s.inProgress = false) (c : Cause)
    (info : BitVec 32) : (s.raise c info).Inv := by
  obtain ⟨hd, hdi, hi, hii, hm, -, hr, -, -, -, -⟩ := hs
  obtain ⟨hdone, -, -⟩ := hr hrun
  obtain ⟨hne, hle⟩ := causeCode_range c
  exact ⟨hd, hdi, hi, hii, hm, by simp [hdone], by simp, by simp [hdone], fun _ => hne, hle, by simp [hp]⟩

theorem State.Inv.takeAbort (hs : s.Inv) (hrun : s.run = .running) (hp : s.inProgress = false) :
    s.takeAbort.Inv := hs.raise hrun hp .aborted 0

theorem State.Inv.halt (hs : s.Inv) (hrun : s.run = .running) (hp : s.inProgress = false) : s.halt.Inv := by
  obtain ⟨hd, hdi, hi, hii, hm, -, hr, -, -, -, -⟩ := hs
  obtain ⟨-, herr, hcause⟩ := hr hrun
  exact ⟨hd, hdi, hi, hii, hm, by simp [herr], by simp, by simp [hcause], by simp [herr], by simp [hcause],
    by simp [hp]⟩

theorem State.Inv.setInProgress (hs : s.Inv) {b : Bool} (hb : b = true → s.run = .running) :
    (s.setInProgress b).Inv := by
  obtain ⟨hd, hdi, hi, hii, hm, hboth, hr, hdone, herr, hle, -⟩ := hs
  exact ⟨hd, hdi, hi, hii, hm, hboth, hr, hdone, herr, hle, hb⟩

theorem State.Inv.start (hs : s.Inv) : s.start.Inv := by
  obtain ⟨hd, hdi, hi, hii, hm, -⟩ := hs
  exact ⟨hd, hdi, hi, hii, hm, by simp⟩

/-! ## The core's turn -/

/-- A running core's command answers a next state that keeps the invariant and the abort latch. -/
theorem exec_inv (hs : s.Inv) (hrun : s.run = .running) (hp : s.inProgress = false) (i : Instr) :
    ∃ t, exec i s = .next t ∧ t.Inv ∧ t.abortLatch = s.abortLatch := by
  by_cases hi : i = .halt
  · subst hi
    exact ⟨s.halt, rfl, hs.halt hrun hp, rfl⟩
  · obtain ⟨t, ht, hup | ⟨c, info, -, rfl⟩⟩ := exec_answers i s hi
    · obtain ⟨-, -, -, -, -, -, -, -, -, hlatch, -⟩ := hup.onlyWrites
      exact ⟨t, ht, hup.inv hs, hlatch⟩
    · exact ⟨_, ht, hs.raise hrun hp c info, rfl⟩

theorem raisedDecode_inv (hs : s.Inv) (hrun : s.run = .running) (hp : s.inProgress = false) (e : DecodeError) :
    ∃ t, raisedDecode s e = .next t ∧ t.Inv ∧ t.abortLatch = s.abortLatch := by
  cases e with
  | illegalOpcode info => exact ⟨_, rfl, hs.raise hrun hp .illegalOpcode info, rfl⟩
  | illegalOperand info => exact ⟨_, rfl, hs.raise hrun hp .illegalOperand info, rfl⟩
  | badImmediate info => exact ⟨_, rfl, hs.raise hrun hp .badImmediate info, rfl⟩

theorem runCommand_inv (hs : s.Inv) (hrun : s.run = .running) (hp : s.inProgress = false) :
    ∃ t, runCommand s = .next t ∧ t.Inv ∧ t.abortLatch = s.abortLatch := by
  rcases Nat.lt_or_ge s.pc.toNat 512 with hpc | hpc
  · cases hd : decode (s.imemWord s.pc.toNat) with
    | error e => rw [runCommand_rejected hpc hd]; exact raisedDecode_inv hs hrun hp e
    | ok i => rw [runCommand_decoded hpc hd]; exact exec_inv hs hrun hp i
  · exact ⟨_, runCommand_range hpc, hs.raise hrun hp .pcRange _, rfl⟩

/-- A boundary with the latch set is the one place where the core does not run its command. -/
theorem at_boundary_or_command (s : State) :
    (s.inProgress = false ∧ s.abortLatch = true) ∨ s.inProgress = true ∨ s.abortLatch = false := by
  cases s.inProgress <;> cases s.abortLatch <;> simp

theorem coreTurn_inv (hs : s.Inv) :
    ∃ t, coreTurn s = .next t ∧ t.Inv ∧ (t.abortLatch = true → s.abortLatch = true) := by
  cases hrun : s.run with
  | idle => exact ⟨s, coreTurn_idle hrun, hs, id⟩
  | running =>
    obtain ⟨hp, ha⟩ | hc := at_boundary_or_command s
    · exact ⟨_, coreTurn_abort hrun hp ha, hs.takeAbort hrun hp, fun _ => ha⟩
    · obtain ⟨t, ht, hinv, hlatch⟩ := runCommand_inv (hs.setInProgress (b := false) (by simp)) hrun rfl
      exact ⟨t, (coreTurn_command hrun hc).trans ht, hinv, hlatch ▸ id⟩

theorem passBoundary_inv (hs : s.Inv) :
    s.passBoundary.Inv ∧ (s.passBoundary.abortLatch = true → s.abortLatch = true) := by
  cases hrun : s.run with
  | idle => rw [passBoundary_idle hrun]; exact ⟨hs, id⟩
  | running =>
    obtain ⟨hp, ha⟩ | hc := at_boundary_or_command s
    · rw [passBoundary_abort hrun hp ha]; exact ⟨hs.takeAbort hrun hp, fun _ => ha⟩
    · rw [passBoundary_command hrun hc]; exact ⟨hs.setInProgress fun _ => hrun, id⟩

/-! ## The host's accesses -/

theorem softReset_inv (hs : s.Inv) : s.softReset.Inv := by
  obtain ⟨hd, hdi, hi, hii, -⟩ := hs
  rw [State.softReset]
  split
  · refine State.powerOn_inv _ _ _ ⟨hi, hii⟩ ?_
    rw [State.cancelledDmem]
    split
    · exact cancelledBytes_wf _ le_rfl ⟨hd, hdi⟩
    · exact ⟨hd, hdi⟩
    · exact ⟨hd, hdi⟩
  · exact State.powerOn_inv _ _ _ ⟨hi, hii⟩ ⟨hd, hdi⟩

theorem writeStatus_inv (hs : s.Inv) (v : BitVec 32) : (s.writeStatus v).Inv := by
  obtain ⟨hd, hdi, hi, hii, hm, hboth, hr, hdone, herr, hle, hp⟩ := hs
  refine ⟨hd, hdi, hi, hii, hm, ?_, ?_, ?_, ?_, hle, hp⟩ <;> simp only [State.writeStatus, Bool.and_eq_true]
  · exact fun h => hboth ⟨h.1.1, h.2.1⟩
  · exact fun h => by simp [hr h]
  · exact fun h => hdone h.1
  · exact fun h => herr h.1

theorem busy_iff (s : State) : s.busy = true ↔ s.run = .running := by simp [State.busy]

theorem writeEntry_inv (hs : s.Inv) (v : BitVec 32) : (s.writeEntry v).Inv := by
  rw [State.writeEntry]
  split <;> exact hs

theorem writeCtrl_inv (hs : s.Inv) (v : BitVec 32) : (s.writeCtrl v).Inv := by
  rw [State.writeCtrl]
  split
  · exact softReset_inv hs
  · split
    · split <;> exact hs
    · split
      · exact State.Inv.start hs
      · exact hs

theorem writeControl_inv (hs : s.Inv) (offset : Nat) (v : BitVec 32) : (s.writeControl offset v).Inv := by
  rw [State.writeControl]
  split
  · exact writeCtrl_inv hs v
  · split
    · exact writeStatus_inv hs v
    · split
      · exact writeEntry_inv hs v
      · exact hs

end

/-- A write of CTRL leaves the latch set only where it was set, or where the core runs and ABORT is written. -/
theorem writeCtrl_latch {s : State} {v : BitVec 32} (h : (s.writeCtrl v).abortLatch = true) :
    s.abortLatch = true ∨ s.run = .running ∧ v.getLsbD 1 = true := by
  rw [State.writeCtrl] at h
  split at h
  · rw [State.softReset] at h
    split at h <;> cases h
  · split at h
    · next hbusy =>
      split at h
      · next hv => exact .inr ⟨(busy_iff s).mp hbusy, hv⟩
      · exact .inl h
    · split at h
      · cases h
      · exact .inl h

/-- Of the control block's registers, only CTRL reaches the abort latch. -/
theorem writeControl_latch {s : State} {offset : Nat} {v : BitVec 32}
    (h : (s.writeControl offset v).abortLatch = true) :
    s.abortLatch = true ∨ offset = 0x004 ∧ s.run = .running ∧ v.getLsbD 1 = true := by
  rw [State.writeControl] at h
  split at h
  · next hoff => exact (writeCtrl_latch h).imp_right fun hw => ⟨hoff, hw⟩
  · left
    split at h
    · exact h
    · split at h
      · rw [State.writeEntry] at h
        split at h <;> exact h
      · exact h

/-- Everything a host write can do. -/
theorem hostWrite_cases (s : State) (offset : BitVec 14) (size : AccessSize) (v : BitVec 32) :
    s.hostWrite offset size v = s ∨ s.hostWrite offset size v = s.conflict ∨
    (size = .word ∧ s.hostWrite offset size v = s.writeControl offset.toNat v) ∨
    ∃ a, a + 4 ≤ 4096 ∧ (s.hostWrite offset size v = { s with imem := s.imem.writeLE a 4 v.toNat } ∨
      s.hostWrite offset size v = { s with dmem := s.dmem.writeLE a 4 v.toNat }) := by
  by_cases hw : wholeWord offset size = true
  · obtain ⟨hsize, halign⟩ : size = .word ∧ offset.toNat % 4 = 0 := by simpa [wholeWord] using hw
    have hidx : windowIndex offset + 4 ≤ 4096 := by rw [windowIndex]; omega
    cases hpart : windowPart offset with
    | control =>
      have hlt : offset.toNat < 0x1000 := by
        by_contra hge
        rw [windowPart, if_neg hge] at hpart
        split_ifs at hpart
      exact .inr (.inr (.inl ⟨hsize, by simp [State.hostWrite, hw, hpart, windowIndex, Nat.mod_eq_of_lt hlt]⟩))
    | reserved => exact .inl (by simp [State.hostWrite, hw, hpart])
    | imem =>
      by_cases hb : s.busy = true
      · exact .inr (.inl (by simp [State.hostWrite, hw, hpart, hb]))
      · exact .inr (.inr (.inr ⟨_, hidx, .inl (by simp [State.hostWrite, hw, hpart, hb])⟩))
    | dmem =>
      by_cases hb : s.busy = true
      · exact .inr (.inl (by simp [State.hostWrite, hw, hpart, hb]))
      · exact .inr (.inr (.inr ⟨_, hidx, .inr (by simp [State.hostWrite, hw, hpart, hb])⟩))
  · exact .inl (by simp [State.hostWrite, hw])

theorem hostWrite_inv {s : State} (hs : s.Inv) (offset : BitVec 14) (size : AccessSize) (v : BitVec 32) :
    (s.hostWrite offset size v).Inv := by
  obtain h | h | ⟨-, h⟩ | ⟨a, ha, h | h⟩ := hostWrite_cases s offset size v <;> rw [h]
  · exact hs
  · exact hs
  · exact writeControl_inv hs offset.toNat v
  all_goals obtain ⟨hd, hdi, hi, hii, hrest⟩ := hs
  · exact ⟨hd, hdi, Memory.wf_writeLE _ _ _ hi, Memory.within_writeLE _ hii ha, hrest⟩
  · exact ⟨Memory.wf_writeLE _ _ _ hd, Memory.within_writeLE _ hdi ha, hi, hii, hrest⟩

/-- A host write sets the abort latch only at CTRL.ABORT while RUNNING (10_state.md R114). -/
theorem hostWrite_latch {s : State} {offset : BitVec 14} {size : AccessSize} {v : BitVec 32}
    (hl : (s.hostWrite offset size v).abortLatch = true) :
    s.abortLatch = true ∨ offset = 0x004 ∧ size = .word ∧ s.run = .running ∧ v.getLsbD 1 = true := by
  obtain h | h | ⟨hsize, h⟩ | ⟨a, -, h | h⟩ := hostWrite_cases s offset size v <;> rw [h] at hl
  · exact .inl hl
  · exact .inl hl
  · exact (writeControl_latch hl).imp_right fun ⟨hoff, hw⟩ => ⟨BitVec.eq_of_toNat_eq hoff, hsize, hw⟩
  · exact .inl hl
  · exact .inl hl

/-- A read of PC, LC or AR draws at most one free value. -/
theorem readQuiet_state (s : State) (x : BitVec 16) :
    (s.readQuiet x).2 = s ∨ (s.readQuiet x).2 = { s with freeCount := s.freeCount + 1 } := by
  rw [State.readQuiet]
  split
  · exact .inr rfl
  · exact .inl rfl

theorem readControl_state (s : State) (offset : Nat) :
    (s.readControl offset).2 = s ∨ (s.readControl offset).2 = { s with freeCount := s.freeCount + 1 } := by
  by_cases hpc : offset = 0x010
  · subst hpc
    exact readQuiet_state s s.pc
  by_cases hlc : offset = 0x020
  · subst hlc
    exact readQuiet_state s s.lc
  by_cases har : offset = 0x024
  · subst har
    exact readQuiet_state s s.ar
  · simp [State.readControl, hpc, hlc, har, apply_ite Prod.snd]

/-- Everything a host read can leave besides its word. -/
theorem readWindow_state (s : State) (offset : BitVec 14) (size : AccessSize) :
    (s.readWindow offset size).2 = s ∨ (s.readWindow offset size).2 = s.conflict ∨
    (s.readWindow offset size).2 = { s with freeCount := s.freeCount + 1 } := by
  rw [State.readWindow]
  split
  · exact .inl rfl
  · split
    · exact (readControl_state s _).imp_right .inr
    · split
      · exact .inr (.inl rfl)
      · exact .inl rfl
    · split
      · exact .inr (.inl rfl)
      · exact .inl rfl
    · exact .inl rfl

theorem hostReads_inv {s : State} (hs : s.Inv) (offset : BitVec 14) (size : AccessSize) :
    (s.hostReads offset size).Inv ∧ (s.hostReads offset size).abortLatch = s.abortLatch := by
  rw [State.hostReads]
  obtain h | h | h := readWindow_state s offset size <;> rw [h] <;> exact ⟨hs, rfl⟩

/-! ## The step -/

/-- Settles O53: the core's turn, a boundary and each host access keep the invariant, and of them only a host
write can set the latch. -/
theorem stepKeepsInvariant : Obligations.StepKeepsInvariant := by
  intro s hs
  cases hh : s.host with
  | nil =>
    obtain ⟨t, ht, hinv, hlatch⟩ := coreTurn_inv hs
    exact ⟨t, (step_silent hh).trans ht, hinv, fun hf hl => absurd (hlatch hl) (by simp [hf])⟩
  | cons a rest =>
    have hs' : ({ s with host := rest } : State).Inv := hs
    cases a with
    | letCoreStep =>
      obtain ⟨t, ht, hinv, hlatch⟩ := coreTurn_inv hs'
      exact ⟨t, (step_letCoreStep hh).trans ht, hinv, fun hf hl => absurd (hlatch hl) (by simp [hf])⟩
    | letCoreBegin =>
      obtain ⟨hinv, hlatch⟩ := passBoundary_inv hs'
      exact ⟨_, step_letCoreBegin hh, hinv, fun hf hl => absurd (hlatch hl) (by simp [hf])⟩
    | write offset size v =>
      refine ⟨_, step_write hh, hostWrite_inv hs' offset size v, fun hf hl => ?_⟩
      obtain h | ⟨rfl, rfl, hrun, hv⟩ := hostWrite_latch hl
      · simp [hf] at h
      · exact ⟨hrun, v, rest, rfl, hv⟩
    | read offset size =>
      obtain ⟨hinv, hlatch⟩ := hostReads_inv hs' offset size
      exact ⟨_, step_read hh, hinv, fun hf hl => absurd (hlatch.symm.trans hl) (by simp [hf])⟩
    | powerOnReset imemInit dmemInit =>
      exact ⟨_, step_powerOnReset hh, State.powerOn_inv _ _ _ (Memory.ofCells_wf _ _) (Memory.ofCells_wf _ _),
        fun _ hl => by cases hl⟩

end Sys2Proof.Machine
end

section
/-! PROOFS. Reads and writes of the control block (10_state.md R140-R151; statements StatusAndEntry, ControlReads)
and what a power-on reset leaves (R180, 70_reset_and_hazards.md R1100; statement PowerOnResetValues). -/

namespace Sys2Proof.Machine

/-! ## Accesses to the control block -/

section
variable {s : State} {offset : BitVec 14} {rest : List HostAction}

theorem windowPart_control (h : offset.toNat < 0x1000) : windowPart offset = .control := by
  simp [windowPart, h]

theorem windowIndex_control (h : offset.toNat < 0x1000) : windowIndex offset = offset.toNat := Nat.mod_eq_of_lt h

theorem wholeWord_word : wholeWord offset .word = true ↔ offset.toNat % 4 = 0 := by simp [wholeWord]

/-- An aligned word write to the control block writes the register at its offset. -/
theorem step_write_control {v : BitVec 32} (h : s.host = .write offset .word v :: rest)
    (hlt : offset.toNat < 0x1000) (halign : offset.toNat % 4 = 0) :
    step s = .next ({ s with host := rest }.writeControl offset.toNat v) := by
  simp [step_write h, State.hostWrite, wholeWord_word.mpr halign, windowPart_control hlt, windowIndex_control hlt]

/-- An aligned word read from the control block reads the register at its offset. -/
theorem step_read_control {x : BitVec 32} {t : State} (h : s.host = .read offset .word :: rest)
    (hlt : offset.toNat < 0x1000) (halign : offset.toNat % 4 = 0)
    (hr : { s with host := rest }.readControl offset.toNat = (x, t)) :
    step s = .next { t with hostRead := some x } := by
  simp [step_read h, State.hostReads, State.readWindow, wholeWord_word.mpr halign, windowPart_control hlt,
    windowIndex_control hlt, hr]

/-- A read whose register answers without changing the state. -/
theorem step_read_value {x : BitVec 32} (hlt : offset.toNat < 0x1000) (halign : offset.toNat % 4 = 0)
    (hr : { s with host := rest }.readControl offset.toNat = (x, { s with host := rest }))
    (h : s.host = .read offset .word :: rest) : step s = .next { s with host := rest, hostRead := some x } :=
  step_read_control h hlt halign hr

theorem writeControl_ignored {o : Nat} {v : BitVec 32} (hctrl : o ≠ 0x004) (hstatus : o ≠ 0x008)
    (hentry : o ≠ 0x00C) : s.writeControl o v = s := by
  rw [State.writeControl, if_neg hctrl, if_neg hstatus, if_neg hentry]

/-- Every write but one of CTRL, STATUS and ENTRY is ignored, aligned or not. -/
theorem step_write_ignored {v : BitVec 32} (h : s.host = .write offset .word v :: rest)
    (hlt : offset.toNat < 0x1000) (hctrl : offset ≠ 0x004) (hstatus : offset ≠ 0x008) (hentry : offset ≠ 0x00C) :
    step s = .next { s with host := rest } := by
  by_cases halign : offset.toNat % 4 = 0
  · rw [step_write_control h hlt halign, writeControl_ignored (fun e => hctrl (BitVec.eq_of_toNat_eq e))
      (fun e => hstatus (BitVec.eq_of_toNat_eq e)) (fun e => hentry (BitVec.eq_of_toNat_eq e))]
  · simp [step_write h, State.hostWrite, wholeWord, halign]

/-- A read beyond the last register returns 0, aligned or not. -/
theorem step_read_reserved (h : s.host = .read offset .word :: rest) (hge : 0x02C ≤ offset.toNat)
    (hlt : offset.toNat < 0x1000) : step s = .next { s with host := rest, hostRead := some 0 } := by
  by_cases halign : offset.toNat % 4 = 0
  · refine step_read_value hlt halign ?_ h
    rw [State.readControl]
    repeat rw [if_neg (by omega)]
  · simp [step_read h, State.hostReads, State.readWindow, wholeWord, halign]

end

/-! ## The words read -/

/-- The CTRL word reads IE in bit 3. -/
theorem ctrlWord_eq (ie : Bool) : 0#28 ++ (BitVec.ofBool ie ++ 0#3) = if ie then (8 : BitVec 32) else 0 := by
  cases ie <;> rfl

/-- Five bits above 27 zeros are the sum of their weights. -/
theorem toNat_fiveBits (b4 b3 b2 b1 b0 : Bool) :
    (0#27 ++ (BitVec.ofBool b4 ++ (BitVec.ofBool b3 ++ (BitVec.ofBool b2 ++
      (BitVec.ofBool b1 ++ BitVec.ofBool b0))))).toNat =
    (if b0 then 1 else 0) + (if b1 then 2 else 0) + (if b2 then 4 else 0) + (if b3 then 8 else 0) +
      (if b4 then 16 else 0) := by
  revert b4 b3 b2 b1 b0
  decide

theorem statusWord_toNat (s : State) : s.statusWord.toNat =
    (if s.run = .running then 1 else 0) + (if s.done then 2 else 0) + (if s.err then 4 else 0) +
      (if s.hac then 8 else 0) + (if s.ie && (s.done || s.err) then 16 else 0) := by
  rw [State.statusWord, toNat_fiveBits, State.irq]
  simp only [busy_iff]

theorem readQuiet_idle {s : State} (h : s.run = .idle) (x : BitVec 16) :
    s.readQuiet x = (BitVec.ofNat 32 x.toNat, s) := by
  simp [State.readQuiet, State.busy, h]

theorem readQuiet_running {s : State} (h : s.run = .running) (x : BitVec 16) : s.readQuiet x =
    ((Config.freeHalf s.freeCount).setWidth 32, { s with freeCount := s.freeCount + 1 }) := by
  simp [State.readQuiet, State.busy, h]

/-- PC, LC and AR are read quietly: at an offset whose register is x, x while IDLE and a free value while
RUNNING. -/
theorem step_read_quiet {s : State} {offset : BitVec 14} {x : BitVec 16} {rest : List HostAction}
    (hlt : offset.toNat < 0x1000) (halign : offset.toNat % 4 = 0)
    (hx : { s with host := rest }.readControl offset.toNat = { s with host := rest }.readQuiet x) :
    (s.run = .idle → s.host = .read offset .word :: rest →
      step s = .next { s with host := rest, hostRead := some (BitVec.ofNat 32 x.toNat) }) ∧
    (s.run = .running → s.host = .read offset .word :: rest → ∃ y : BitVec 16,
      step s = .next { s with host := rest, hostRead := some (y.setWidth 32), freeCount := s.freeCount + 1 }) :=
  ⟨fun hrun => step_read_value hlt halign (hx.trans (readQuiet_idle (s := { s with host := rest }) hrun x)),
    fun hrun h => ⟨_, step_read_control h hlt halign
      (hx.trans (readQuiet_running (s := { s with host := rest }) hrun x))⟩⟩

/-! ## The two statements -/

/-- Settles O57: each access goes to the register at its offset. -/
theorem statusAndEntry : Obligations.StatusAndEntry := by
  intro s v rest
  refine ⟨fun h => ?_, fun h => ?_, fun h => ?_, fun h => ?_⟩
  · exact step_write_control h (by decide) (by decide)
  · rw [step_write_control h (by decide) (by decide)]
    cases s.run <;> simp [State.writeControl, State.writeEntry, State.busy, State.conflict]
  · exact ⟨_, step_read_value (by decide) (by decide) rfl h, statusWord_toNat s⟩
  · rw [BitVec.ofNat_toNat]
    exact step_read_value (by decide) (by decide) rfl h

/-- Settles O58: the registers by their offsets, the quiet ones by the run state, and what is ignored. -/
theorem controlReads : Obligations.ControlReads := by
  intro s rest
  refine ⟨step_read_value (by decide) (by decide) rfl, ?_, ?_, ?_, step_read_value (by decide) (by decide) rfl,
    step_read_value (by decide) (by decide) rfl, fun offset hge hlt h => step_read_reserved h hge hlt, ?_,
    fun offset v hlt hctrl hstatus hentry h => step_write_ignored h hlt hctrl hstatus hentry⟩
  · rw [← ctrlWord_eq]
    exact step_read_value (by decide) (by decide) rfl
  · rw [BitVec.ofNat_toNat]
    exact step_read_value (by decide) (by decide) rfl
  · rw [BitVec.ofNat_toNat]
    exact step_read_value (by decide) (by decide) rfl
  · simp only [List.forall_mem_cons, List.not_mem_nil, false_imp_iff, implies_true, and_true]
    exact ⟨step_read_quiet (by decide) (by decide) rfl, step_read_quiet (by decide) (by decide) rfl,
      step_read_quiet (by decide) (by decide) rfl⟩

/-! ## Power-on reset -/

theorem hasResetValues_powerOn (imem dmem : Memory) (host : List HostAction) (hostRead : Option (BitVec 32))
    (n : Nat) : HasResetValues (State.powerOn imem dmem host hostRead n) := by
  refine ⟨?_, ?_, ?_, ?_, ?_, rfl, rfl, rfl, rfl, rfl, rfl, rfl,
    BitVec.eq_of_toNat_eq (statusWord_toNat _), rfl, rfl, rfl, rfl, rfl⟩ <;> intro r
  · simp [State.getF, State.powerOn, Fe.zero, Fe.ofNat]
  · simp [State.getS, State.powerOn, Sc.ofNat]
  · rw [show (State.powerOn imem dmem host hostRead n).getP r = ⟨ExtPoint.identity, false⟩ by
      simp [State.getP, State.powerOn]]
    exact ⟨by decide, rfl⟩
  · rw [show (State.powerOn imem dmem host hostRead n).getN r = Niels.identity by
      simp [State.getN, State.powerOn]]
    decide
  · simp [State.getM, State.powerOn]

/-- A byte all of whose cells agree is read back from a memory they are written to, if one is listed or the
memory holds it already. -/
theorem Memory.read_foldl_write {size a : Nat} {b : Byte} (ha : a < size) (cells : List Host.Cell) {mem : Memory}
    (hw : mem.wf = true) (hagree : ∀ e ∈ cells, e.1 = a → e.2 = b)
    (hsome : mem.read a = b ∨ ∃ e ∈ cells, e.1 = a) :
    Memory.read (cells.foldl (fun mem c => if c.1 < size then Memory.write mem c.1 c.2 else mem) mem) a = b := by
  induction cells generalizing mem with
  | nil => simpa using hsome
  | cons c rest ih =>
    obtain ⟨hc, hrest⟩ := List.forall_mem_cons.mp hagree
    rw [List.foldl_cons]
    by_cases hca : c.1 = a
    · rw [if_pos (hca ▸ ha)]
      exact ih (Memory.wf_write _ _ hw) hrest (.inl (by rw [hca, Memory.read_write_same _ _ hw, hc hca]))
    · have hsome' : mem.read a = b ∨ ∃ e ∈ rest, e.1 = a := by simpa [hca] using hsome
      split
      · refine ih (Memory.wf_write _ _ hw) hrest (hsome'.imp_left fun h => ?_)
        rw [Memory.read_write_ne _ _ (Ne.symm hca), h]
      · exact ih hw hrest hsome'

/-- A memory of the given cells holds each of them that is the only one of its address. -/
theorem Memory.read_ofCells {size : Nat} {cells : List Host.Cell} {c : Host.Cell} (hc : c ∈ cells)
    (honly : ∀ e ∈ cells, e.1 = c.1 → e = c) (hlt : c.1 < size) : (Memory.ofCells size cells).read c.1 = c.2 :=
  Memory.read_foldl_write hlt cells rfl (fun e he h => by rw [honly e he h]) (.inr ⟨c, hc, rfl⟩)

/-- Settles O50: both the reset state and a reset step are a power-on, the step's with memories of the cells
given. -/
theorem powerOnResetValues : Obligations.PowerOnResetValues :=
  ⟨hasResetValues_powerOn _ _ _ _ _, rfl, rfl, fun _ _ _ _ h =>
    ⟨_, step_powerOnReset h, hasResetValues_powerOn _ _ _ _ _, rfl, fun _ hc honly => Memory.read_ofCells hc honly,
      fun _ hc honly => Memory.read_ofCells hc honly⟩⟩

end Sys2Proof.Machine
end

section
/-! PROOFS. The host's accesses to the IMEM and DMEM windows, to the reserved part, and those that are no aligned
word (20_memory.md R230-R240; statements WindowAccess, RefusedAccesses). -/

namespace Sys2Proof.Machine

/-! ## The window map (20_memory.md R230) -/

section
variable {offset : BitVec 14}

theorem windowPart_imem (hge : 0x1000 ≤ offset.toNat) (hlt : offset.toNat < 0x2000) :
    windowPart offset = .imem := by
  rw [windowPart, if_neg (by omega), if_pos hlt]

theorem windowPart_dmem (hge : 0x2000 ≤ offset.toNat) (hlt : offset.toNat < 0x3000) :
    windowPart offset = .dmem := by
  rw [windowPart, if_neg (by omega), if_neg (by omega), if_pos hlt]

theorem windowPart_reserved (hge : 0x3000 ≤ offset.toNat) : windowPart offset = .reserved := by
  rw [windowPart, if_neg (by omega), if_neg (by omega), if_neg (by omega)]

theorem windowPart_imem_or_dmem (hge : 0x1000 ≤ offset.toNat) (hlt : offset.toNat < 0x3000) :
    windowPart offset = .imem ∨ windowPart offset = .dmem :=
  (Nat.lt_or_ge offset.toNat 0x2000).imp (windowPart_imem hge) fun h => windowPart_dmem h hlt

theorem wholeWord_eq_false_iff {size : AccessSize} :
    wholeWord offset size = false ↔ size ≠ .word ∨ offset.toNat % 4 ≠ 0 := by
  simp [wholeWord, or_iff_not_imp_left]

end

/-- Word k of the IMEM window is an aligned word of that part, at byte 4 * k of the memory. -/
theorem imemWindow_word {k : Nat} (hk : k < 1024) :
    wholeWord (BitVec.ofNat 14 (0x1000 + 4 * k)) .word = true ∧
    windowPart (BitVec.ofNat 14 (0x1000 + 4 * k)) = .imem ∧
    windowIndex (BitVec.ofNat 14 (0x1000 + 4 * k)) = 4 * k := by
  have hoff : (BitVec.ofNat 14 (0x1000 + 4 * k)).toNat = 0x1000 + 4 * k := Nat.mod_eq_of_lt (by omega)
  exact ⟨wholeWord_word.mpr (by omega), windowPart_imem (by omega) (by omega), by rw [windowIndex]; omega⟩

/-- Word k of the DMEM window is an aligned word of that part, at byte 4 * k of the memory. -/
theorem dmemWindow_word {k : Nat} (hk : k < 1024) :
    wholeWord (BitVec.ofNat 14 (0x2000 + 4 * k)) .word = true ∧
    windowPart (BitVec.ofNat 14 (0x2000 + 4 * k)) = .dmem ∧
    windowIndex (BitVec.ofNat 14 (0x2000 + 4 * k)) = 4 * k := by
  have hoff : (BitVec.ofNat 14 (0x2000 + 4 * k)).toNat = 0x2000 + 4 * k := Nat.mod_eq_of_lt (by omega)
  exact ⟨wholeWord_word.mpr (by omega), windowPart_dmem (by omega) (by omega), by rw [windowIndex]; omega⟩

/-! ## What an access to a memory window or to no register does -/

section
variable {s : State} {offset : BitVec 14} {size : AccessSize}

theorem busy_eq_false_of_idle (h : s.run = .idle) : s.busy = false := by simp [State.busy, h]

theorem hostWrite_ignored (v : BitVec 32) (h : wholeWord offset size = false ∨ windowPart offset = .reserved) :
    s.hostWrite offset size v = s := by
  obtain h | h := h <;> simp [State.hostWrite, h]

theorem hostReads_ignored (h : wholeWord offset size = false ∨ windowPart offset = .reserved) :
    s.hostReads offset size = { s with hostRead := some 0 } := by
  obtain h | h := h <;> simp [State.hostReads, State.readWindow, h]

theorem hostWrite_refused (v : BitVec 32) (hbusy : s.busy = true) (hw : wholeWord offset size = true)
    (hpart : windowPart offset = .imem ∨ windowPart offset = .dmem) : s.hostWrite offset size v = s.conflict := by
  obtain hpart | hpart := hpart <;> simp [State.hostWrite, hw, hpart, hbusy]

theorem hostReads_refused (hbusy : s.busy = true) (hw : wholeWord offset size = true)
    (hpart : windowPart offset = .imem ∨ windowPart offset = .dmem) :
    s.hostReads offset size = { s.conflict with hostRead := some 0 } := by
  obtain hpart | hpart := hpart <;> simp [State.hostReads, State.readWindow, hw, hpart, hbusy]

/-- While IDLE a word write to the IMEM window is a little-endian store of four bytes (R231). -/
theorem hostWrite_imem {k : Nat} (v : BitVec 32) (hrun : s.run = .idle) (hk : k < 1024) :
    s.hostWrite (BitVec.ofNat 14 (0x1000 + 4 * k)) .word v =
      { s with imem := s.imem.writeLE (4 * k) 4 v.toNat } := by
  obtain ⟨hw, hpart, hidx⟩ := imemWindow_word hk
  simp [State.hostWrite, hw, hpart, hidx, busy_eq_false_of_idle hrun]

/-- While IDLE a word write to the DMEM window is a little-endian store of four bytes (R232). -/
theorem hostWrite_dmem {k : Nat} (v : BitVec 32) (hrun : s.run = .idle) (hk : k < 1024) :
    s.hostWrite (BitVec.ofNat 14 (0x2000 + 4 * k)) .word v =
      { s with dmem := s.dmem.writeLE (4 * k) 4 v.toNat } := by
  obtain ⟨hw, hpart, hidx⟩ := dmemWindow_word hk
  simp [State.hostWrite, hw, hpart, hidx, busy_eq_false_of_idle hrun]

theorem hostReads_imem {k : Nat} (hrun : s.run = .idle) (hk : k < 1024) :
    s.hostReads (BitVec.ofNat 14 (0x1000 + 4 * k)) .word =
      { s with hostRead := some (BitVec.ofNat 32 (bytesValue s.imem (4 * k) 4)) } := by
  obtain ⟨hw, hpart, hidx⟩ := imemWindow_word hk
  simp [State.hostReads, State.readWindow, hw, hpart, hidx, busy_eq_false_of_idle hrun, readLE_eq_bytesValue]

theorem hostReads_dmem {k : Nat} (hrun : s.run = .idle) (hk : k < 1024) :
    s.hostReads (BitVec.ofNat 14 (0x2000 + 4 * k)) .word =
      { s with hostRead := some (BitVec.ofNat 32 (bytesValue s.dmem (4 * k) 4)) } := by
  obtain ⟨hw, hpart, hidx⟩ := dmemWindow_word hk
  simp [State.hostReads, State.readWindow, hw, hpart, hidx, busy_eq_false_of_idle hrun, readLE_eq_bytesValue]

end

/-! ## The two statements -/

/-- Settles O59: a write is a store of four bytes in the window's memory, which the invariant keeps sorted; a read
loads the four bytes. -/
theorem windowAccess : Obligations.WindowAccess := by
  intro s v k rest hs hrun hk
  obtain ⟨hdmem, -, himem, -⟩ := hs
  have hrun' : ({ s with host := rest } : State).run = .idle := hrun
  refine ⟨fun h => ⟨_, ?_, holdsBytes_writeLE himem (4 * k) 4 v.toNat,
      fun a ha => Memory.read_writeLE_outside s.imem v.toNat ha⟩,
    fun h => ⟨_, ?_, holdsBytes_writeLE hdmem (4 * k) 4 v.toNat,
      fun a ha => Memory.read_writeLE_outside s.dmem v.toNat ha⟩, fun h => ?_, fun h => ?_⟩
  · rw [step_write h, hostWrite_imem v hrun' hk]
  · rw [step_write h, hostWrite_dmem v hrun' hk]
  · rw [step_read h, hostReads_imem hrun' hk]
  · rw [step_read h, hostReads_dmem hrun' hk]

/-- Settles O60: a word access to a memory window while BUSY only raises the conflict, and one that is no aligned
word or lies in the reserved part has no effect. -/
theorem refusedAccesses : Obligations.RefusedAccesses := by
  intro s offset size v rest
  refine ⟨fun hrun hsize halign hge hlt => ?_, fun hbad => ?_⟩
  · subst hsize
    have hbusy : ({ s with host := rest } : State).busy = true := (busy_iff _).mpr hrun
    have hw := wholeWord_word.mpr halign
    have hpart := windowPart_imem_or_dmem hge hlt
    exact ⟨fun h => by rw [step_write h, hostWrite_refused v hbusy hw hpart, State.conflict],
      fun h => by rw [step_read h, hostReads_refused hbusy hw hpart, State.conflict]⟩
  · have hignored : wholeWord offset size = false ∨ windowPart offset = .reserved :=
      (or_assoc.mpr hbad).imp wholeWord_eq_false_iff.mpr windowPart_reserved
    exact ⟨fun h => by rw [step_write h, hostWrite_ignored v hignored],
      fun h => by rw [step_read h, hostReads_ignored hignored]⟩

end Sys2Proof.Machine
end

section
/-! PROOFS. Decoding and encoding are inverse (30_encoding.md R301, R308, R310; statements EncodedCommandsDecode,
EveryCommandHasOneWord): every command meets Laws.Encodes.Statement; and, row by row, fields that pass a row's mask
and are read as a command are the fields of that command. -/

namespace Sys2Proof.Laws.Encodes

/-- The family of Laws/PerInstr.lean, for every command. -/
theorem statement (i : Instr) : Statement i :=
  match i with
  | .nop => nop
  | .halt => halt
  | .jmp off => jmp off
  | .bmt c off => bmt c off
  | .bmf c off => bmf c off
  | .setlc u => setlc u
  | .djnz off => djnz off
  | .seta u => seta u
  | .adda v => adda v
  | .fadd d a b => fadd d a b
  | .fsub d a b => fsub d a b
  | .fneg d a => fneg d a
  | .fmul d a b => fmul d a b
  | .fsqr d a => fsqr d a
  | .fmulc d a c => fmulc d a c
  | .fwred d a => fwred d a
  | .fsred d a => fsred d a
  | .fmov d a => fmov d a
  | .fconst d i => fconst d i
  | .finv d a => finv d a
  | .fisr d a c => fisr d a c
  | .feq d a b => feq d a b
  | .fsel d a b c => fsel d a b c
  | .fcswap a b c => fcswap a b c
  | .fcneg d a c => fcneg d a c
  | .mset d i => mset d i
  | .mand d a b => mand d a b
  | .mor d a b => mor d a b
  | .mxor d a b => mxor d a b
  | .mnot d a => mnot d a
  | .mld d am base => mld d am base
  | .mst a am base => mst a am base
  | .fld d c am base => fld d c am base
  | .fldm d c am strip base => fldm d c am strip base
  | .fst a am base => fst a am base
  | .sadd d a b => sadd d a b
  | .ssub d a b => ssub d a b
  | .smont d a b => smont d a b
  | .smul d a b => smul d a b
  | .shalve d a => shalve d a
  | .smov d a => smov d a
  | .sconst d i => sconst d i
  | .sld d c am base => sld d c am base
  | .sst a am base => sst a am base
  | .pdbl d a bd => pdbl d a bd
  | .paddn d a b bd => paddn d a b bd
  | .psubn d a b bd => psubn d a b bd
  | .paddpn d a b bd => paddpn d a b bd
  | .psubpn d a b bd => psubpn d a b bd
  | .padd d a b bd => padd d a b bd
  | .pton d a => pton d a
  | .ncneg d a c => ncneg d a c
  | .pid d => pid d
  | .peq d a b => peq d a b
  | .pvalid d a => pvalid d a
  | .pfx d g => pfx d g
  | .pxf g a => pxf g a
  | .nfx d g => nfx d g
  | .nxf g a => nxf g a
  | .pmov d a => pmov d a
  | .psmul d a b => psmul d a b
  | .pbmul d a => pbmul d a
  | .pdsmul d a b c => pdsmul d a b c

end Sys2Proof.Laws.Encodes

namespace Sys2Proof.Machine

/-! ## Fields that pass a mask -/

/-- A packed word passes a mask exactly when each of its fields does. -/
theorem pack_and_eq_iff {f : Fields} {mask v : CommandWord} : f.pack &&& mask = v ↔
    Fields.mk (f.op &&& (Fields.unpack mask).op) (f.rd &&& (Fields.unpack mask).rd)
        (f.ra &&& (Fields.unpack mask).ra) (f.rb &&& (Fields.unpack mask).rb) (f.rc &&& (Fields.unpack mask).rc)
        (f.md &&& (Fields.unpack mask).md) (f.imm &&& (Fields.unpack mask).imm) = Fields.unpack v := by
  refine ⟨?_, Fields.pack_and_eq⟩
  rintro rfl
  conv_rhs => rw [← Fields.pack_unpack mask, Fields.pack_and_pack, Fields.unpack_pack]

@[simp] theorem and_0xF (x : BitVec 4) : x &&& 0xF#4 = x := BitVec.and_allOnes

@[simp] theorem and_0xFF (x : BitVec 8) : x &&& 0xFF#8 = x := BitVec.and_allOnes

@[simp] theorem and_0xFFFFFFFF (x : BitVec 32) : x &&& 0xFFFFFFFF#32 = x := BitVec.and_allOnes

/-! ## A field is the encoder's exactly when its reserved bits are 0 -/

/-- A value extended by zeros is one with zeros in its high bits and that value in its low ones. -/
theorem eq_zero_append_iff {m n : Nat} {x : BitVec (m + n)} {u : BitVec n} :
    x = 0#m ++ u ↔ x &&& (BitVec.allOnes m ++ 0#n) = 0#(m + n) ∧ x.extractLsb' 0 n = u := by
  simp only [BitVec.eq_of_getLsbD_eq_iff, BitVec.getLsbD_append, BitVec.getLsbD_and, BitVec.getLsbD_extractLsb',
    BitVec.getLsbD_allOnes, BitVec.getLsbD_zero]
  grind

@[simp] theorem fieldF_regF (x : BitVec 4) : fieldF (regF x) = x := rfl

theorem eq_field8_reg8_iff {x : BitVec 4} : x = field8 (reg8 x) ↔ x &&& 8#4 = 0#4 := by revert x; decide

theorem eq_immOf16_iff {x : BitVec 32} {u : BitVec 16} :
    x = immOf16 u ↔ x &&& 0xFFFF0000#32 = 0#32 ∧ x.extractLsb' 0 16 = u :=
  eq_zero_append_iff (m := 16) (n := 16)

theorem eq_immOfStrip_iff {x : BitVec 32} :
    x = immOfStrip (x.extractLsb' 16 8) (x.extractLsb' 0 16) ↔ x &&& 0xFF000000#32 = 0#32 := by
  have hlow : x.extractLsb' 0 24 = x.extractLsb' 16 8 ++ x.extractLsb' 0 16 := by
    ext i hi
    simp only [BitVec.getElem_extractLsb']
    grind
  exact (eq_zero_append_iff (m := 8) (n := 24)).trans (and_iff_left hlow)

theorem eq_modOf_am_iff {x : BitVec 8} : x = modOf false x[1] ↔ x &&& 0xFD#8 = 0#8 := by revert x; decide

theorem eq_modOf_bd_iff {x : BitVec 8} : x = modOf x[0] false ↔ x &&& 0xFE#8 = 0#8 := by revert x; decide

/-! ## What a reader that can reject answers -/

theorem readGroup_badGroup {x : BitVec 4} (h : 13 ≤ x.toNat) (k : FGroup → Instr) : readGroup x k = .badGroup :=
  dif_neg (by omega)

theorem readIndex_badImmediate {n : Nat} {u : BitVec 16} (h : n ≤ u.toNat) (k : Fin n → Instr) :
    readIndex n (immOf16 u) k = .badImmediate := by
  rw [readIndex, immOf16_low, dif_neg (by omega)]

theorem readConst_badImmediate {c : BitVec 32} (h : legalConst c = false) (k : BitVec 32 → Instr) :
    readConst c k = .badImmediate := by simp [readConst, h]

/-- What holds of every command that readGroup can answer. -/
theorem forall_readGroup {x : BitVec 4} {k : FGroup → Instr} {Q : Instr → Prop} :
    (∀ i, readGroup x k = .command i → Q i) ↔ ∀ g, fieldG g = x → Q (k g) := by
  refine ⟨fun h g hg => h _ (hg ▸ readGroup_fieldG g k), fun h i hi => ?_⟩
  unfold readGroup at hi
  split at hi
  next hx => cases hi; exact h _ (by simp [fieldG])
  next => cases hi

/-- What holds of every command that readIndex can answer. -/
theorem forall_readIndex {n : Nat} (hn : n ≤ 6) {imm : BitVec 32} {k : Fin n → Instr} {Q : Instr → Prop} :
    (∀ i, readIndex n imm k = .command i → Q i) ↔
      ∀ j : Fin n, imm.extractLsb' 0 16 = BitVec.ofNat 16 j.val → Q (k j) := by
  refine ⟨fun h j hj => h _ ?_, fun h i hi => ?_⟩
  · have hval : (imm.extractLsb' 0 16).toNat = j.val := by rw [hj]; exact Nat.mod_eq_of_lt (by omega)
    simp only [readIndex, hval, Fin.is_lt, dite_true, Fin.eta]
  · unfold readIndex at hi
    split at hi
    next hx => cases hi; exact h _ (BitVec.setWidth_eq _ ▸ BitVec.ofNat_toNat ..).symm
    next => cases hi

/-- What holds of every command that readConst can answer. -/
theorem forall_readConst {imm : BitVec 32} {k : BitVec 32 → Instr} {Q : Instr → Prop} :
    (∀ i, readConst imm k = .command i → Q i) ↔ (legalConst imm = true → Q (k imm)) := by
  unfold readConst
  split <;> simp_all

/-! ## The rows of the opcode map -/

/-- Fields that pass the row's mask and that the row reads as a command are the fields of that command, and the
command is well formed. -/
def RowIsFaithful (r : Row) : Prop :=
  ∀ f, f.pack &&& r.mask = r.match' → ∀ i, r.read f = .command i → i.wf = true ∧ f = i.fields

/-- Each mask covers just the bits that the row does not read: field by field, that the mask passes is that the field
is the encoder's. -/
theorem rowIsFaithful : ∀ r ∈ opcodeMap, RowIsFaithful r := by
  simp only [opcodeMap, sequencerRows, fieldRows, selectRows, fieldIORows, scalarRows, pointRows, engineRows,
    List.forall_mem_append, List.forall_mem_cons, List.not_mem_nil, false_imp_iff, implies_true, and_true,
    RowIsFaithful, Reading.command.injEq, forall_eq', forall_readGroup, forall_readConst,
    forall_readIndex (n := 6) le_rfl, forall_readIndex (n := 4) (by decide), forall_readIndex (n := 2) (by decide)]
  and_intros
  all_goals
    rintro ⟨op, rd, ra, rb, rc, md, imm⟩
    simp +contextual [pack_and_eq_iff, Fields.unpack, Instr.wf, Instr.fields, modBD, modAM, imm16, immStrip,
      eq_field8_reg8_iff, eq_immOf16_iff, eq_immOfStrip_iff, eq_modOf_am_iff, eq_modOf_bd_iff]

theorem mem_opcodeMap_of_rowOf {op : BitVec 8} {r : Row} (h : rowOf op = some r) : r ∈ opcodeMap ∧ r.op = op :=
  ⟨List.mem_of_find?_eq_some h, eq_of_beq (List.find?_some (p := fun r : Row => r.op == op) h)⟩

/-! ## What decode answers -/

section
variable {w : CommandWord} {r : Row} {i : Instr}

theorem decode_of_rowOf (h : rowOf (w.extractLsb' 56 8) = some r) : decode w = r.decode w := by
  simp only [decode, h]

theorem decode_of_unassigned (h : rowOf (w.extractLsb' 56 8) = none) :
    decode w = .error (.illegalOpcode (highHalf w)) := by simp only [decode, h]

theorem decodeRow_of_mask_ne (h : w &&& r.mask ≠ r.match') : r.decode w = .error (.illegalOperand (highHalf w)) :=
  if_pos h

theorem decodeRow_of_badGroup (hm : w &&& r.mask = r.match') (hread : r.read (Fields.unpack w) = .badGroup) :
    r.decode w = .error (.illegalOperand (highHalf w)) := by simp [Row.decode, hm, hread]

theorem decodeRow_of_badImmediate (hm : w &&& r.mask = r.match')
    (hread : r.read (Fields.unpack w) = .badImmediate) : r.decode w = .error (.badImmediate (lowHalf w)) := by
  simp [Row.decode, hm, hread]

/-- A row answers a command exactly when the word passes its mask and the row reads that command. -/
theorem decodeRow_eq_ok_iff :
    r.decode w = .ok i ↔ w &&& r.mask = r.match' ∧ r.read (Fields.unpack w) = .command i := by
  unfold Row.decode
  split
  next hm => simp [hm]
  next hm => cases r.read (Fields.unpack w) <;> simp [not_not.mp hm]

theorem decodeRow_ne_illegalOpcode (info : BitVec 32) : r.decode w ≠ .error (.illegalOpcode info) := by
  unfold Row.decode
  split
  · simp
  · cases r.read (Fields.unpack w) <;> simp

/-- A word that decodes has a row, passes its mask and is read by it as the command. -/
theorem exists_row_of_decode_ok (h : decode w = .ok i) :
    ∃ r ∈ opcodeMap, w &&& r.mask = r.match' ∧ r.read (Fields.unpack w) = .command i := by
  cases hr : rowOf (w.extractLsb' 56 8) with
  | none => cases (decode_of_unassigned hr).symm.trans h
  | some r =>
    exact ⟨r, (mem_opcodeMap_of_rowOf hr).1, decodeRow_eq_ok_iff.mp ((decode_of_rowOf hr).symm.trans h)⟩

end

/-! ## The two statements -/

/-- Settles O1: every command's fields select its own row, pass the mask and are read back. -/
theorem encodedCommandsDecode : Obligations.EncodedCommandsDecode :=
  fun i hw => encodes_fields (Laws.Encodes.statement i) hw

/-- Settles O2: the word is its fields packed, and its row is faithful. -/
theorem everyCommandHasOneWord : Obligations.EveryCommandHasOneWord := by
  intro w i h
  obtain ⟨r, hmem, hmask, hread⟩ := exists_row_of_decode_ok h
  rw [← Fields.pack_unpack w] at hmask
  obtain ⟨hwf, hfields⟩ := rowIsFaithful r hmem (Fields.unpack w) hmask i hread
  exact ⟨hwf, by rw [encode, ← hfields, Fields.pack_unpack]⟩

end Sys2Proof.Machine
end

section
/-! PROOFS. The words that do not decode, in the order of 30_encoding.md R307, and fixed words that do (R302 to R306,
R309, R311; statements UnassignedOpcodes, ReservedZeroBits, OperandAndImmediateRanges, WordsOfTheSpec). -/

namespace Sys2Proof.Machine

/-! ## The opcode and the halves of a word -/

theorem highHalf_eq_ofNat (w : CommandWord) : highHalf w = BitVec.ofNat 32 (w.toNat / 2 ^ 32) := by
  apply BitVec.eq_of_toNat_eq
  simp [highHalf, Nat.shiftRight_eq_div_pow]

theorem toNat_opcode (w : CommandWord) : (w.extractLsb' 56 8).toNat = w.toNat / 2 ^ 56 := by
  rw [BitVec.extractLsb'_toNat, Nat.shiftRight_eq_div_pow]
  exact Nat.mod_eq_of_lt (by omega)

/-- The high half of packed fields that use no operand but the first two. -/
theorem highHalf_pack (op : BitVec 8) (rd ra : BitVec 4) (imm : BitVec 32) :
    highHalf (Fields.pack ⟨op, rd, ra, 0, 0, 0, imm⟩) = op ++ (rd ++ (ra ++ 0#16)) := by
  ext i hi
  simp only [highHalf, Fields.pack, BitVec.getLsbD_append, ← BitVec.getLsbD_eq_getElem]
  grind

theorem lowHalf_pack (f : Fields) : lowHalf f.pack = f.imm := congrArg Fields.imm (Fields.unpack_pack f)

/-! ## The opcodes of the map -/

/-- The assigned opcodes, in the order of the map (R308). -/
theorem opcodes_eq : opcodeMap.map (·.op.toNat) =
    List.range' 0x00 9 ++ (List.range' 0x10 12 ++ (List.range' 0x20 4 ++ (List.range' 0x28 7 ++
      (List.range' 0x30 3 ++ (List.range' 0x40 9 ++ List.range' 0x50 19))))) := by decide

theorem rowOf_eq_none_iff_notMem {op : BitVec 8} :
    rowOf op = none ↔ op.toNat ∉ opcodeMap.map (·.op.toNat) := by
  simp [rowOf, List.find?_eq_none, BitVec.toNat_inj]

/-- The opcodes without a row are the ranges between and beyond the assigned ones (R309). -/
theorem rowOf_eq_none_iff {op : BitVec 8} : rowOf op = none ↔
    (0x09 ≤ op.toNat ∧ op.toNat ≤ 0x0F) ∨ (0x1C ≤ op.toNat ∧ op.toNat ≤ 0x1F) ∨
    (0x24 ≤ op.toNat ∧ op.toNat ≤ 0x27) ∨ op.toNat = 0x2F ∨ (0x33 ≤ op.toNat ∧ op.toNat ≤ 0x3F) ∨
    (0x49 ≤ op.toNat ∧ op.toNat ≤ 0x4F) ∨ 0x63 ≤ op.toNat := by
  rw [rowOf_eq_none_iff_notMem, opcodes_eq]
  simp only [List.mem_append, List.mem_range'_1]
  omega

theorem opcodes_nodup : (opcodeMap.map Row.op).Nodup := by decide

/-- A row is the one of its opcode. -/
theorem rowOf_of_mem {r : Row} (h : r ∈ opcodeMap) : rowOf r.op = some r := by
  obtain ⟨r', hr'⟩ : ∃ r', rowOf r.op = some r' :=
    Option.isSome_iff_exists.mp (List.find?_isSome.mpr ⟨r, h, beq_self_eq_true _⟩)
  obtain ⟨hmem, hop⟩ := mem_opcodeMap_of_rowOf hr'
  rw [hr', List.inj_on_of_nodup_map opcodes_nodup hmem h hop]

/-- The value a row wants under its mask is 0 below the opcode. -/
theorem match'_low_of_mem : ∀ r ∈ opcodeMap, r.match'.extractLsb' 0 56 = 0#56 := by decide

theorem getLsbD_match' {r : Row} (hr : r ∈ opcodeMap) {b : Nat} (hb : b < 56) : r.match'.getLsbD b = false := by
  simpa [hb] using congrArg (BitVec.getLsbD · b) (match'_low_of_mem r hr)

/-! ## Packed fields that do not decode -/

theorem decode_pack_badGroup {op : BitVec 8} {rd ra : BitVec 4} {imm : BitVec 32} {r : Row} (hr : rowOf op = some r)
    (hm : Fields.pack ⟨op, rd, ra, 0, 0, 0, imm⟩ &&& r.mask = r.match')
    (hread : r.read ⟨op, rd, ra, 0, 0, 0, imm⟩ = .badGroup) :
    decode (Fields.pack ⟨op, rd, ra, 0, 0, 0, imm⟩) = .error (.illegalOperand (op ++ (rd ++ (ra ++ 0#16)))) := by
  rw [decode_of_rowOf (by rw [Fields.op_pack, hr]), decodeRow_of_badGroup hm (by rw [Fields.unpack_pack, hread]),
    highHalf_pack]

theorem decode_pack_badImmediate {f : Fields} {r : Row} (hr : rowOf f.op = some r) (hm : f.pack &&& r.mask = r.match')
    (hread : r.read f = .badImmediate) : decode f.pack = .error (.badImmediate f.imm) := by
  rw [decode_of_rowOf (by rw [Fields.op_pack, hr]), decodeRow_of_badImmediate hm (by rw [Fields.unpack_pack, hread]),
    lowHalf_pack]

/-! ## The statements -/

/-- Settles O3: the ranges are the opcodes without a row, and a word with a row is never rejected for its opcode. -/
theorem unassignedOpcodes : Obligations.UnassignedOpcodes := by
  intro w
  have hnone := rowOf_eq_none_iff (op := w.extractLsb' 56 8)
  rw [toNat_opcode] at hnone
  refine ⟨fun h => ?_, fun h info => ?_⟩
  · rw [decode_of_unassigned (hnone.mpr h), highHalf_eq_ofNat]
  · obtain ⟨r, hr⟩ := Option.ne_none_iff_exists'.mp (mt hnone.mp h)
    rw [decode_of_rowOf hr]
    exact decodeRow_ne_illegalOpcode info

/-- Settles O4: a set bit under the mask is 0 in the row's match. -/
theorem reservedZeroBits : Obligations.ReservedZeroBits := by
  intro r w b hr hop hb hmask hw
  have hrow : rowOf (w.extractLsb' 56 8) = some r := by
    rw [BitVec.eq_of_toNat_eq ((toNat_opcode w).trans hop), rowOf_of_mem hr]
  have hne : w &&& r.mask ≠ r.match' := by
    intro h
    have hbit := getLsbD_match' hr hb
    rw [← h, BitVec.getLsbD_and, hw, hmask] at hbit
    cases hbit
  rw [decode_of_rowOf hrow, decodeRow_of_mask_ne hne, highHalf_eq_ofNat]

/-- Settles O5: the word passes its row's mask, and the row's reader rejects the operand. -/
theorem operandAndImmediateRanges : Obligations.OperandAndImmediateRanges := by
  simp only [Obligations.OperandAndImmediateRanges, ← immOf16_eq, ← field8_eq_reg4, ← fieldF_eq_reg4]
  refine ⟨fun g a op hg => ?_, fun d a c hc => ?_, fun d u hu => ?_, fun d u hu => ?_, fun d u hu => ?_⟩
  · constructor <;> rintro (rfl | rfl) <;>
      exact decode_pack_badGroup rfl (Fields.pack_and_eq (by simp [Fields.unpack]))
        (by simp only [readGroup_badGroup hg])
  · exact decode_pack_badImmediate rfl (Fields.pack_and_eq (by simp [Fields.unpack]))
      (readConst_badImmediate (by simpa [legalConst] using hc) _)
  all_goals
    exact decode_pack_badImmediate rfl (Fields.pack_and_eq (by simp [Fields.unpack])) (readIndex_badImmediate hu _)

/-- Settles O6: fixed words, decoded. -/
theorem wordsOfTheSpec : Obligations.WordsOfTheSpec := by
  unfold Obligations.WordsOfTheSpec
  decide

end Sys2Proof.Machine
end

section
/-! PROOFS. The field arithmetic commands (40_field.md R401-R410; statements FieldAddSubtractNegate,
FieldMultiplySquare, FieldMultiplyByConstant, FieldCopies, FieldConstants): each writes one field register, and the
value written is the residue of the integer result. -/

namespace Sys2Proof.Machine

/-! ## A command on the field file: its word and its write -/

/-- A well-formed command is the command of its fields, however they are written. -/
theorem encodes_of_fields {f : Fields} {i : Instr} (hf : i.fields = f) (hw : i.wf = true) : Encodes f i :=
  hf ▸ encodes_fields (Laws.Encodes.statement i) hw

/-- A command that writes one field register and ends completes with whatever its rule says of the value. -/
theorem completes_setF {i : Instr} {s : State} {d : FReg} {v : Fe} {post : State → Prop}
    (he : exec i s = complete (s.setF d v)) (hp : ∀ t : State, t.getF d = v → post t) :
    Completes i s { f := [d] } post :=
  completes_of he (State.setF_pc s d v) ((OnlyWrites.refl _ s).setF v (List.mem_singleton_self d))
    (hp _ (by rw [State.advance_getF, State.getF_setF_same]))

/-! ## The residues written -/

theorem val_sub_eq_emod (x y : Fe) : ((x - y).val : Int) = (x.val - y.val : Int) % fieldP :=
  (Fe.val_eq_emod_iff _ _).mpr (by simp)

theorem val_fieldNeg (x : Fe) : ((fieldNeg x).val : Int) = (0 - x.val : Int) % fieldP :=
  val_sub_eq_emod Fe.zero x

theorem val_ofInt (z : Int) : ((Fe.ofInt z).val : Int) = z % fieldP :=
  (Fe.val_eq_emod_iff _ _).mpr (Fe.toZ_ofInt z)

/-- The constants as residues: the negative ones are p less their magnitude (R410). -/
theorem val_fieldConst (i : Fin 6) : (fieldConst i).val =
    [0, 1, 2, fieldP - 39081, fieldP - 39082, fieldP - 78164].getD i.val 0 := by
  revert i
  decide

theorem legalConst_iff {c : BitVec 32} : legalConst c = true ↔ -67108864 < c.toInt ∧ c.toInt < 67108864 := by
  simp [legalConst]

/-! ## The statements -/

/-- Settles O13: the residues of a sum, a difference and a negation. -/
theorem fieldAddSubtractNegate : Obligations.FieldAddSubtractNegate := by
  simp only [Obligations.FieldAddSubtractNegate, ← fieldF_eq_reg4]
  intro d a b s
  refine ⟨⟨encodes_of_fields rfl rfl, completes_setF (exec_fadd s d a b) fun t ht => ?_⟩,
    ⟨encodes_of_fields rfl rfl, completes_setF (exec_fsub s d a b) fun t ht => ?_⟩,
    ⟨encodes_of_fields rfl rfl, completes_setF (exec_fneg s d a) fun t ht => ?_⟩⟩
  · rw [ht, Fin.val_add]
  · rw [ht, val_sub_eq_emod]
  · rw [ht, val_fieldNeg]

/-- Settles O14: the residue of a product. -/
theorem fieldMultiplySquare : Obligations.FieldMultiplySquare := by
  simp only [Obligations.FieldMultiplySquare, ← fieldF_eq_reg4]
  intro d a b s
  refine ⟨⟨encodes_of_fields rfl rfl, completes_setF (exec_fmul s d a b) fun t ht => ?_⟩,
    ⟨encodes_of_fields rfl rfl, completes_setF (exec_fsqr s d a) fun t ht => ?_⟩⟩
  · rw [ht, Fin.val_mul]
  · rw [ht, Fin.val_mul]

/-- Settles O15: a constant is legal exactly when it is below 2^26 in magnitude, and the others are those that
statement OperandAndImmediateRanges rejects. -/
theorem fieldMultiplyByConstant : Obligations.FieldMultiplyByConstant := by
  obtain ⟨-, hbad, -⟩ := operandAndImmediateRanges
  refine fun d a c s => ⟨fun hc => ⟨?_, completes_setF (exec_fmulc s d a c) fun t ht => ?_⟩,
    fun hc => hbad d a c (mt abs_lt.mpr hc.not_gt)⟩
  · exact encodes_of_fields (by simp only [Instr.fields, fieldF_eq_reg4]) (legalConst_iff.mpr hc)
  · rw [ht, val_ofInt]

/-- Settles O16: the value written is the one read. -/
theorem fieldCopies : Obligations.FieldCopies := by
  simp only [Obligations.FieldCopies, ← fieldF_eq_reg4]
  exact fun d a s =>
    ⟨⟨encodes_of_fields rfl rfl, completes_setF (exec_fwred s d a) fun _ ht => ht⟩,
      ⟨encodes_of_fields rfl rfl, completes_setF (exec_fsred s d a) fun _ ht => ht⟩,
      ⟨encodes_of_fields rfl rfl, completes_setF (exec_fmov s d a) fun _ ht => ht⟩⟩

/-- Settles O17: the constants as residues; the selectors above 5 are those that statement
OperandAndImmediateRanges rejects. -/
theorem fieldConstants : Obligations.FieldConstants := by
  obtain ⟨-, -, hbad, -⟩ := operandAndImmediateRanges
  refine ⟨fun d i s => ⟨?_, completes_setF (exec_fconst s d i) fun t ht => ?_⟩, hbad⟩
  · exact encodes_of_fields (by simp only [Instr.fields, fieldF_eq_reg4, immOf16_index i le_rfl]) rfl
  · rw [ht, val_fieldConst]

end Sys2Proof.Machine
end

section
/-! PROOFS. The prime-field inverter (41_field_inverter.md R450, R451; statements FieldInversion,
FieldInverseSquareRoot): Fermat's little theorem makes x^(p-2) the inverse, and Euler's criterion makes
r·r·x = x^((p-1)/2), with r = x^((p-3)/4), tell the squares from the non-squares. -/

namespace Sys2Proof

/-! ## Residues and their values in ZMod p -/

theorem Fe.toZ_eq_zero_iff {x : Fe} : x.toZ = 0 ↔ x.val = 0 := by
  rw [← Nat.zero_mod fieldP, Fe.val_eq_mod_iff, Nat.cast_zero]

theorem Fe.toZ_eq_one_iff {x : Fe} : x.toZ = 1 ↔ x.val = 1 := by
  rw [← Nat.cast_one, ← Fe.val_eq_mod_iff, Nat.mod_eq_of_lt (by decide)]

theorem Fe.toZ_eq_neg_one_iff {x : Fe} : x.toZ = -1 ↔ x.val = fieldP - 1 := by
  have hcast : ((fieldP - 1 : Nat) : ZMod fieldP) = -1 := by simp [Nat.cast_sub fieldP_pos]
  rw [← hcast, ← Fe.val_eq_mod_iff, Nat.mod_eq_of_lt (by decide)]

theorem Fe.val_mul_mul (x y z : Fe) : (x * y * z).val = x.val * y.val * z.val % fieldP := by
  rw [Fin.val_mul, Fin.val_mul, Nat.mod_mul_mod]

theorem Fe.isSquare_toZ_iff {x : Fe} : IsSquare x.toZ ↔ ∃ y, y * y % fieldP = x.val := by
  have : NeZero fieldP := ⟨fieldP_pos.ne'⟩
  simp only [eq_comm (b := x.val), Fe.val_eq_mod_iff, Nat.cast_mul]
  exact ZMod.natCast_zmod_surjective.exists

namespace Machine

/-! ## The two powers -/

theorem fieldInv_val_of_zero {x : Fe} (hx : x.val = 0) : (fieldInv x).val = 0 := by
  rw [← Fe.toZ_eq_zero_iff, toZ_fieldInv, Fe.toZ_eq_zero_iff.mpr hx, zero_pow (by decide)]

/-- Fermat's little theorem. -/
theorem mul_fieldInv_val {x : Fe} (hx : x.val ≠ 0) : (x * fieldInv x).val = 1 := by
  have : Fact fieldP.Prime := ⟨fieldP_prime⟩
  rw [← Fe.toZ_eq_one_iff, Fe.toZ_mul, toZ_fieldInv, ← pow_succ', show fieldP - 2 + 1 = fieldP - 1 by decide,
    ZMod.pow_card_sub_one_eq_one (mt Fe.toZ_eq_zero_iff.mp hx)]

theorem fieldIsr_val_of_zero {x : Fe} (hx : x.val = 0) : (fieldIsr x).val = 0 := by
  rw [← Fe.toZ_eq_zero_iff, toZ_fieldIsr, Fe.toZ_eq_zero_iff.mpr hx, zero_pow (by decide)]

/-- r·r·x, the value that FISR compares with 1. -/
def isrCheck (x : Fe) : Fe := fieldIsr x * fieldIsr x * x

theorem isrCheck_val (x : Fe) : (isrCheck x).val = (fieldIsr x).val * (fieldIsr x).val * x.val % fieldP :=
  Fe.val_mul_mul ..

/-- The exponent of Euler's criterion: p % 4 = 3, so 2·((p-3)/4) + 1 = (p-1)/2. -/
theorem toZ_isrCheck (x : Fe) : (isrCheck x).toZ = x.toZ ^ (fieldP / 2) := by
  rw [isrCheck, Fe.toZ_mul, Fe.toZ_mul, toZ_fieldIsr, ← pow_add, ← pow_succ,
    show (fieldP - 3) / 4 + (fieldP - 3) / 4 + 1 = fieldP / 2 by decide]

theorem isrCheck_val_of_zero {x : Fe} (hx : x.val = 0) : (isrCheck x).val = 0 := by
  rw [isrCheck_val, hx, Nat.mul_zero, Nat.zero_mod]

/-- Euler's criterion, for a square. -/
theorem isrCheck_val_of_square {x : Fe} (hx : x.val ≠ 0) (hsq : ∃ y, y * y % fieldP = x.val) :
    (isrCheck x).val = 1 := by
  have : Fact fieldP.Prime := ⟨fieldP_prime⟩
  rw [← Fe.toZ_eq_one_iff, toZ_isrCheck]
  exact (ZMod.euler_criterion fieldP (mt Fe.toZ_eq_zero_iff.mp hx)).mp (Fe.isSquare_toZ_iff.mpr hsq)

/-- Euler's criterion, for a non-square: the power is 1 or -1, and 1 only for a square. -/
theorem isrCheck_val_of_nonsquare {x : Fe} (hsq : ¬ ∃ y, y * y % fieldP = x.val) :
    (isrCheck x).val = fieldP - 1 := by
  have : Fact fieldP.Prime := ⟨fieldP_prime⟩
  have hx : x.toZ ≠ 0 := fun h => hsq ⟨0, (Fe.toZ_eq_zero_iff.mp h).symm⟩
  have hne : x.toZ ^ (fieldP / 2) ≠ 1 := mt (ZMod.euler_criterion fieldP hx).mpr (mt Fe.isSquare_toZ_iff.mp hsq)
  rw [← Fe.toZ_eq_neg_one_iff, toZ_isrCheck]
  exact (ZMod.pow_div_two_eq_neg_one_or_one fieldP hx).resolve_left hne

/-! ## What FISR writes -/

theorem maskOf_isrCheck (x : Fe) :
    maskOf (isrCheck x == Fe.one) = if (isrCheck x).val = 1 then 0xFFFFFFFF else 0x00000000 := by
  simp only [maskOf_eq, beq_iff_eq, ← Fe.toZ_inj, Fe.toZ_one, Fe.toZ_eq_one_iff]

/-- FISR completes with whatever its rule says of the root and of the mask. -/
theorem completes_fisr {s : State} {d a : FReg} {c : MReg} {post : State → Prop}
    (hp : ∀ t : State, t.getF d = fieldIsr (s.getF a) →
      (t.getM c = if (isrCheck (s.getF a)).val = 1 then 0xFFFFFFFF else 0x00000000) → post t) :
    Completes (.fisr d a c) s { f := [d], m := [c] } post :=
  completes_of (exec_fisr s d a c) rfl
    (((OnlyWrites.refl _ s).setF _ (List.mem_singleton_self d)).setM _ (List.mem_singleton_self c))
    (hp _ (by rw [State.advance_getF, State.setM_getF, State.getF_setF_same])
      (by rw [State.advance_getM, State.getM_setM_same, ← maskOf_isrCheck, isrCheck]))

/-! ## The statements -/

/-- Settles O18: the power of `fieldInv`, which is 0 for 0 and the inverse by Fermat's little theorem otherwise. -/
theorem fieldInversion : Obligations.FieldInversion := by
  simp only [Obligations.FieldInversion, ← fieldF_eq_reg4]
  refine fun d a s => ⟨encodes_of_fields rfl rfl, completes_setF (exec_finv s d a) fun t ht => ?_⟩
  rw [ht, ← Fin.val_mul]
  exact ⟨toZ_fieldInv _, fieldInv_val_of_zero, mul_fieldInv_val⟩

/-- Settles O19: r·r·x is 0 for 0, and by Euler's criterion 1 for a non-zero square and p - 1 for a non-square. -/
theorem fieldInverseSquareRoot : Obligations.FieldInverseSquareRoot := by
  simp only [Obligations.FieldInverseSquareRoot, ← fieldF_eq_reg4, ← field8_eq_reg4]
  refine fun d a c s => ⟨encodes_of_fields rfl rfl, completes_fisr fun t hr hm => ?_⟩
  rw [hr, hm, ← isrCheck_val]
  refine ⟨toZ_fieldIsr _, rfl, fun hx => ⟨fieldIsr_val_of_zero hx, ?_⟩, fun hx hsq => ?_, fun hsq => ?_⟩
  · exact if_neg (by rw [isrCheck_val_of_zero hx]; decide)
  · exact if_pos (isrCheck_val_of_square hx hsq)
  · have hcheck := isrCheck_val_of_nonsquare hsq
    exact ⟨hcheck, if_neg (by rw [hcheck]; decide)⟩

end Machine
end Sys2Proof
end

section
/-! PROOFS. The comparator, the selectors and the mask commands (42_ct_compare_select.md R501-R511; statements
CompareAndSelect, MaskLogic, MaskLoadStore): each writes the registers or the bytes its rule names, and a selection
follows the mask's being ONES. -/

namespace Sys2Proof.Machine

/-! ## A command on the mask file -/

/-- A command that writes one mask register and ends completes with whatever its rule says of the word. -/
theorem completes_setM {i : Instr} {s : State} {d : MReg} {v : BitVec 32} {post : State → Prop}
    (he : exec i s = complete (s.setM d v)) (hp : ∀ t : State, t.getM d = v → post t) :
    Completes i s { m := [d] } post :=
  completes_of he (State.setM_pc s d v) ((OnlyWrites.refl _ s).setM v (List.mem_singleton_self d))
    (hp _ (by rw [State.advance_getM, State.getM_setM_same]))

/-! ## Selection by a mask -/

/-- A choice on the mask's test is the choice on its being ONES, as the rules write it. -/
theorem ite_maskTrue {α : Type} (s : State) (c : MReg) (x y : α) :
    (if s.maskTrue c = true then x else y) = if s.getM c = 0xFFFFFFFF then x else y :=
  if_congr (maskTrue_iff s c) rfl rfl

/-- Both registers of a pair just written read back, where a pair of one register holds one value. -/
theorem getF_setF_pair (s : State) {a b : FReg} {x y : Fe} (h : a = b → x = y) :
    ((s.setF a x).setF b y).getF a = x ∧ ((s.setF a x).setF b y).getF b = y := by
  refine ⟨?_, State.getF_setF_same _ b y⟩
  by_cases hab : a = b
  · rw [State.getF_setF, if_pos hab.symm, h hab]
  · rw [State.getF_setF_ne _ y hab, State.getF_setF_same]

/-- FCSWAP writes both registers, each with the other's value or with its own (R503). -/
theorem exec_fcswap_eq_setF (s : State) (a b : FReg) (c : MReg) : exec (.fcswap a b c) s =
    complete ((s.setF a (if s.getM c = 0xFFFFFFFF then s.getF b else s.getF a)).setF b
      (if s.getM c = 0xFFFFFFFF then s.getF a else s.getF b)) := by
  rw [exec_fcswap, execFcswap, ite_maskTrue]
  split <;> rfl

/-- A pair of one register exchanges nothing, so the two values written to it are the same. -/
theorem completes_fcswap (a b : FReg) (c : MReg) (s : State) :
    Completes (.fcswap a b c) s { f := [a, b] } fun t =>
      (t.getF a = if s.getM c = 0xFFFFFFFF then s.getF b else s.getF a) ∧
      (t.getF b = if s.getM c = 0xFFFFFFFF then s.getF a else s.getF b) := by
  refine completes_of (exec_fcswap_eq_setF s a b c) rfl
    (((OnlyWrites.refl _ s).setF _ (.head _)).setF _ (.tail _ (.head _))) ?_
  rw [State.advance_getF, State.advance_getF]
  exact getF_setF_pair s (by rintro rfl; rfl)

/-! ## The masks written -/

theorem maskOf_beq_fe (x y : Fe) : maskOf (x == y) = if x.val = y.val then 0xFFFFFFFF else 0x00000000 := by
  simp only [maskOf_eq, beq_iff_eq, Fin.ext_iff]

theorem maskOf_selector (i : Fin 2) : maskOf (i == 1) = if i.val = 1 then 0xFFFFFFFF else 0x00000000 := by
  simp only [maskOf_eq, beq_iff_eq, Fin.ext_iff, Fin.val_one]

/-- Any non-zero word loads as ONES (R510). -/
theorem maskOf_loadLE_ne_zero (s : State) (a n : Nat) :
    maskOf (s.loadLE a n != 0) = if bytesValue s.dmem a n ≠ 0 then 0xFFFFFFFF else 0x00000000 := by
  simp only [maskOf_eq, bne_iff_ne, State.loadLE, readLE_eq_bytesValue]

/-! ## The statements -/

/-- Settles O20: a choice on the mask, and the equality of two residues as a mask. -/
theorem compareAndSelect : Obligations.CompareAndSelect := by
  simp only [Obligations.CompareAndSelect, ← fieldF_eq_reg4, ← field8_eq_reg4]
  intro d a b e c s
  refine ⟨⟨encodes_of_fields rfl rfl, completes_setM (exec_feq s e a b) fun t ht => ?_⟩,
    ⟨encodes_of_fields rfl rfl, completes_setF (exec_fsel s d a b c) fun t ht => ?_⟩,
    ⟨encodes_of_fields rfl rfl, completes_fcswap a b c s⟩,
    ⟨encodes_of_fields rfl rfl, completes_setF (exec_fcneg s d a c) fun t ht => ?_⟩⟩
  · rw [ht, maskOf_beq_fe]
  · rw [ht, ite_maskTrue]
  · rw [ht, ite_maskTrue]
    split
    · exact val_fieldNeg _
    · rfl

/-- Settles O21: the word written is the rule's; the selectors above 1 are those that statement
OperandAndImmediateRanges rejects. -/
theorem maskLogic : Obligations.MaskLogic := by
  obtain ⟨-, -, -, hbad, -⟩ := operandAndImmediateRanges
  refine ⟨fun d a b i s => ?_, hbad⟩
  simp only [← field8_eq_reg4]
  refine ⟨⟨?_, completes_setM (exec_mset s d i) fun t ht => ?_⟩,
    ⟨encodes_of_fields rfl rfl, completes_setM (exec_mand s d a b) fun _ ht => ht⟩,
    ⟨encodes_of_fields rfl rfl, completes_setM (exec_mor s d a b) fun _ ht => ht⟩,
    ⟨encodes_of_fields rfl rfl, completes_setM (exec_mxor s d a b) fun _ ht => ht⟩,
    ⟨encodes_of_fields rfl rfl, completes_setM (exec_mnot s d a) fun _ ht => ht⟩⟩
  · exact encodes_of_fields (by simp only [Instr.fields, immOf16_index i (by decide)]) rfl
  · rw [ht, maskOf_selector]

/-- Settles O22: at a good address MLD is a mask of the four bytes' value and MST a store of four bytes, in a DMEM
that the invariant keeps sorted. -/
theorem maskLoadStore : Obligations.MaskLoadStore := by
  simp only [Obligations.MaskLoadStore, ← field8_eq_reg4, ← modOf_am_eq, ← immOf16_eq]
  refine fun d am base s hgood =>
    ⟨⟨encodes_of_fields rfl rfl, completes_setM (execMld_good hgood) fun t ht => ?_⟩,
      ⟨encodes_of_fields rfl rfl, fun hs => ?_⟩⟩
  · rw [ht, maskOf_loadLE_ne_zero]
  · obtain ⟨hdmem, -⟩ := hs
    exact completes_of (execMst_good hgood) rfl (onlyWrites_storeLE s _ 4 _) (holdsBytes_storeLE hdmem _ 4 _)

end Sys2Proof.Machine
end

section
/-! PROOFS. Field load and store (43_field_io.md R550-R553; statements FieldLoad, FieldLoadStripped, FieldStore,
FieldRoundTrip): a load is the decode of the bytes' value, a store writes the residue's bytes, and a residue fits in
its 56 bytes. -/

namespace Sys2Proof.Machine

/-! ## A decode -/

/-- A command that decodes the value v into F[d] and M[c] and ends completes with the residue and the mask of the
value's being below p. -/
theorem completes_decodeField {i : Instr} {s : State} {d : FReg} {c : MReg} {v : Nat}
    (he : exec i s = complete (s.decodeField d c v)) :
    Completes i s { f := [d], m := [c] } fun t =>
      (t.getF d).val = v % fieldP ∧ t.getM c = if v < fieldP then 0xFFFFFFFF else 0x00000000 :=
  completes_of he rfl
    (((OnlyWrites.refl _ s).setF _ (List.mem_singleton_self d)).setM _ (List.mem_singleton_self c))
    ⟨getF_decodeField s d c v, getM_decodeField s d c v⟩

theorem loadLE_eq_bytesValue (s : State) (a n : Nat) : s.loadLE a n = bytesValue s.dmem a n :=
  readLE_eq_bytesValue s.dmem a n

/-! ## A load of what was stored -/

/-- A residue fits in the 56 bytes of its encoding. -/
theorem val_lt_radix (x : Fe) : x.val < 256 ^ 56 := x.isLt.trans (by decide)

/-- A good address stays good where ar is as before. -/
theorem GoodAddress.congr {s t : State} {n : Nat} {am : Bool} {base : BitVec 16} (har : t.ar = s.ar)
    (h : GoodAddress n am base s) : GoodAddress n am base t := by
  rwa [GoodAddress, effAddr_congr har]

/-- FLD where a value of 56 bytes has just been stored decodes that value. -/
theorem exec_fld_storeLE {s : State} {d : FReg} {c : MReg} {am : Bool} {base : BitVec 16} {v : Nat}
    (hw : s.dmem.wf = true) (hgood : GoodAddress 56 am base s) (hv : v < 256 ^ 56) :
    exec (.fld d c am base) (s.storeLE (s.effAddr am base).toNat 56 v).advance =
      complete ((s.storeLE (s.effAddr am base).toNat 56 v).advance.decodeField d c v) := by
  have har : (s.storeLE (s.effAddr am base).toNat 56 v).advance.ar = s.ar := by
    rw [State.advance_ar, State.storeLE_ar]
  rw [exec_fld, execFld_good (hgood.congr har), effAddr_congr har, loadLE_storeLE hw _ _ hv]

/-! ## The statements -/

/-- Settles O23: at a good address FLD is the decode of the 56 bytes' value. -/
theorem fieldLoad : Obligations.FieldLoad := by
  simp only [Obligations.FieldLoad, ← fieldF_eq_reg4, ← field8_eq_reg4, ← modOf_am_eq, ← immOf16_eq]
  refine fun d c am base s hgood => ⟨encodes_of_fields rfl rfl, completes_decodeField ?_⟩
  rw [exec_fld, execFld_good hgood, loadLE_eq_bytesValue]

/-- Settles O24: at a good address FLDM is the decode of the 56 bytes' value and the stripped last byte. -/
theorem fieldLoadStripped : Obligations.FieldLoadStripped := by
  simp only [Obligations.FieldLoadStripped, ← fieldF_eq_reg4, ← field8_eq_reg4, ← modOf_am_eq]
  refine fun d c am strip base s hgood => ⟨encodes_of_fields rfl rfl, completes_decodeField ?_⟩
  rw [exec_fldm, execFldm_good hgood, strippedValue_eq, show 256 ^ 56 = (2 ^ 8) ^ 56 from rfl, ← pow_mul]

/-- Settles O25: at a good address FST is a store of 56 bytes, in a DMEM that the invariant keeps sorted. -/
theorem fieldStore : Obligations.FieldStore := by
  simp only [Obligations.FieldStore, ← fieldF_eq_reg4, ← modOf_am_eq, ← immOf16_eq]
  refine fun a am base s ⟨hdmem, _⟩ hgood => ⟨encodes_of_fields rfl rfl, ?_⟩
  exact completes_of (execFst_good hgood) (State.storeLE_pc ..) (onlyWrites_storeLE s _ 56 _)
    (holdsBytes_storeLE hdmem _ 56 _)

/-- Settles O26: the load decodes the residue stored, which is below p and so its own residue. -/
theorem fieldRoundTrip : Obligations.FieldRoundTrip := by
  refine fun a d c am base s ⟨hdmem, _⟩ hgood =>
    ⟨_, _, execFst_good hgood, exec_fld_storeLE hdmem hgood (val_lt_radix _), Fin.ext ?_, ?_⟩
  · rw [State.advance_getF, getF_decodeField, Nat.mod_eq_of_lt (s.getF a).isLt]
  · rw [State.advance_getM, getM_decodeField, if_pos (s.getF a).isLt]

end Sys2Proof.Machine
end

section
/-! PROOFS. The scalar commands (44_scalar.md R601-R607, R611, R612, R614; statements ScalarAddSubtract,
ScalarMultiply, ScalarHalveMoveConstant, ScalarLoadStore, ScalarProperties): each writes one residue modulo L; the
Montgomery product and the half are told by the congruence that has one answer below L. -/

namespace Sys2Proof.Machine

/-! ## A command on the scalar file -/

/-- A command that writes one scalar register and ends completes with whatever its rule says of the value. -/
theorem completes_setS {i : Instr} {s : State} {d : SReg} {v : Sc} {post : State → Prop}
    (he : exec i s = complete (s.setS d v)) (hp : ∀ t : State, t.getS d = v → post t) :
    Completes i s { sc := [d] } post :=
  completes_of he (State.setS_pc s d v) ((OnlyWrites.refl _ s).setS v (List.mem_singleton_self d))
    (hp _ (by rw [State.advance_getS, State.getS_setS_same]))

/-! ## The residues written -/

/-- The Montgomery product is the one residue that the radix takes to the product (R603). -/
theorem scalarMont_unique {x y : Sc} {z : Nat} (hz : z < orderL)
    (h : z * 2 ^ 448 ≡ x.val * y.val [MOD orderL]) : z = (scalarMont x y).val :=
  (mul_radix_cancel (h.trans (scalarMont_radix x y).symm)).eq_of_lt_of_lt hz (scalarMont x y).isLt

/-- The second Montgomery product, by R², undoes the first one's division by R (R604). -/
theorem scalarMul_eq_mul (x y : Sc) : scalarMul x y = x * y := by
  have hR2 : montR2.val ≡ 2 ^ 448 * 2 ^ 448 [MOD orderL] := by
    rw [montR2_spec]
    exact (Nat.mod_modEq _ _).trans ((Nat.mod_modEq _ _).mul (Nat.mod_modEq _ _))
  have hmont : (x * y).val * 2 ^ 448 ≡ (scalarMont x y).val * montR2.val [MOD orderL] :=
    calc (x * y).val * 2 ^ 448
      _ ≡ x.val * y.val * 2 ^ 448 [MOD orderL] := (Nat.mod_modEq _ _).mul_right _
      _ ≡ (scalarMont x y).val * 2 ^ 448 * 2 ^ 448 [MOD orderL] := (scalarMont_radix x y).symm.mul_right _
      _ = (scalarMont x y).val * (2 ^ 448 * 2 ^ 448) := mul_assoc ..
      _ ≡ (scalarMont x y).val * montR2.val [MOD orderL] := hR2.symm.mul_left _
  exact Fin.ext (scalarMont_unique (x * y).isLt hmont).symm

/-- The half doubles to the scalar modulo L (R605). -/
theorem two_mul_scalarHalve_mod (x : Sc) : 2 * (scalarHalve x).val % orderL = x.val := by
  rw [scalarHalve_double]
  split
  · rw [Nat.add_mod_right, Nat.mod_eq_of_lt x.isLt]
  · rw [Nat.add_zero, Nat.mod_eq_of_lt x.isLt]

/-- The double of the half is the double of the scalar, and 2 is a unit modulo L. -/
theorem scalarHalve_add_self (x : Sc) : scalarHalve (x + x) = x := by
  have hdouble : 2 * (scalarHalve (x + x)).val ≡ 2 * x.val [MOD orderL] := by
    rw [Nat.ModEq, two_mul_scalarHalve_mod, Fin.val_add, two_mul]
  have hcoprime : Nat.gcd orderL 2 = 1 := by decide
  exact Fin.ext ((hdouble.cancel_left_of_coprime hcoprime).eq_of_lt_of_lt (scalarHalve (x + x)).isLt x.isLt)

/-- The constants as residues (R607). -/
theorem val_scalarConst (i : Fin 4) : (scalarConst i).val =
    [0, 1, 2 ^ 448 % orderL * (2 ^ 448 % orderL) % orderL, (2 ^ 450 - 1) % orderL].getD i.val 0 :=
  match i with
  | 0 => Nat.zero_mod orderL
  | 1 => Nat.mod_eq_of_lt (by decide)
  | 2 => montR2_spec
  | 3 => scalarAdj_spec

theorem scalarMul_const_one (x : Sc) : scalarMul x (scalarConst 1) = x := by
  apply Fin.ext
  rw [scalarMul_eq_mul, Fin.val_mul, val_scalarConst 1]
  change x.val * 1 % orderL = x.val
  rw [mul_one, Nat.mod_eq_of_lt x.isLt]

/-! ## A scalar load -/

/-- What SLD does with the value v of its bytes: the residue to S[d] and the mask of its being below L to M[c]
(R611). -/
def State.decodeScalar (s : State) (d : SReg) (c : MReg) (v : Nat) : State :=
  (s.setS d (Sc.ofNat v)).setM c (maskOf (v < orderL))

theorem getS_decodeScalar (s : State) (d : SReg) (c : MReg) (v : Nat) :
    ((s.decodeScalar d c v).getS d).val = v % orderL := by
  rw [State.decodeScalar, State.setM_getS, State.getS_setS_same]; rfl

theorem getM_decodeScalar (s : State) (d : SReg) (c : MReg) (v : Nat) :
    (s.decodeScalar d c v).getM c = if v < orderL then 0xFFFFFFFF else 0x00000000 := by
  rw [State.decodeScalar, State.getM_setM_same, maskOf_decide]

theorem exec_sld_good {s : State} {d : SReg} {c : MReg} {am : Bool} {base : BitVec 16}
    (hgood : GoodAddress 56 am base s) : exec (.sld d c am base) s =
      complete (s.decodeScalar d c (s.loadLE (s.effAddr am base).toNat 56)) := execSld_good hgood

/-- A scalar fits in the 56 bytes of its encoding. -/
theorem scalar_lt_radix (x : Sc) : x.val < 256 ^ 56 := x.isLt.trans (by decide)

/-- SLD where a value of 56 bytes has just been stored decodes that value. -/
theorem exec_sld_storeLE {s : State} {d : SReg} {c : MReg} {am : Bool} {base : BitVec 16} {v : Nat}
    (hw : s.dmem.wf = true) (hgood : GoodAddress 56 am base s) (hv : v < 256 ^ 56) :
    exec (.sld d c am base) (s.storeLE (s.effAddr am base).toNat 56 v).advance =
      complete ((s.storeLE (s.effAddr am base).toNat 56 v).advance.decodeScalar d c v) := by
  have har : (s.storeLE (s.effAddr am base).toNat 56 v).advance.ar = s.ar := by
    rw [State.advance_ar, State.storeLE_ar]
  rw [exec_sld_good (hgood.congr har), effAddr_congr har, loadLE_storeLE hw _ _ hv]

/-! ## The statements -/

/-- Settles O27: the residues of a sum and a difference. -/
theorem scalarAddSubtract : Obligations.ScalarAddSubtract := by
  simp only [Obligations.ScalarAddSubtract, ← field8_eq_reg4]
  refine fun d a b s =>
    ⟨⟨encodes_of_fields rfl rfl, completes_setS (exec_sadd s d a b) fun t ht => ?_⟩,
      ⟨encodes_of_fields rfl rfl, completes_setS (exec_ssub s d a b) fun t ht => ?_⟩⟩
  · rw [ht, Fin.val_add]
  · rw [ht, Sc.val_sub]

/-- Settles O28: the Montgomery product is pinned by its congruence, and two of them make the product. -/
theorem scalarMultiply : Obligations.ScalarMultiply := by
  simp only [Obligations.ScalarMultiply, ← field8_eq_reg4]
  refine fun d a b s =>
    ⟨⟨encodes_of_fields rfl rfl, completes_setS (exec_smont s d a b) fun t ht => ?_⟩,
      ⟨encodes_of_fields rfl rfl, completes_setS (exec_smul s d a b) fun t ht => ?_⟩⟩
  · rw [ht]
    exact ⟨scalarMont_radix _ _, fun z hz h => scalarMont_unique hz h⟩
  · rw [ht, scalarMul_eq_mul, Fin.val_mul]

/-- Settles O29: the half, the copy and the constants; the selectors above 3 are those that statement
OperandAndImmediateRanges rejects. -/
theorem scalarHalveMoveConstant : Obligations.ScalarHalveMoveConstant := by
  obtain ⟨-, -, -, -, hbad⟩ := operandAndImmediateRanges
  refine ⟨fun d a i s => ?_, hbad⟩
  simp only [← field8_eq_reg4]
  refine ⟨⟨encodes_of_fields rfl rfl, completes_setS (exec_shalve s d a) fun t ht => ?_⟩,
    ⟨encodes_of_fields rfl rfl, completes_setS (exec_smov s d a) fun _ ht => ht⟩,
    ⟨?_, completes_setS (exec_sconst s d i) fun t ht => ?_⟩⟩
  · rw [ht]
    exact ⟨scalarHalve_val _, two_mul_scalarHalve_mod _⟩
  · exact encodes_of_fields (by simp only [Instr.fields, immOf16_index i (by decide)]) rfl
  · rw [ht, val_scalarConst]

/-- Settles O30: at a good address SLD is the decode of the 56 bytes' value and SST a store of 56 bytes, in a DMEM
that the invariant keeps sorted. -/
theorem scalarLoadStore : Obligations.ScalarLoadStore := by
  simp only [Obligations.ScalarLoadStore, ← field8_eq_reg4, ← modOf_am_eq, ← immOf16_eq, ← loadLE_eq_bytesValue]
  refine fun d c am base s hgood =>
    ⟨⟨encodes_of_fields rfl rfl, completes_of (exec_sld_good hgood) rfl ?_
        ⟨getS_decodeScalar s d c _, getM_decodeScalar s d c _⟩⟩,
      ⟨encodes_of_fields rfl rfl, fun ⟨hdmem, _⟩ => ?_⟩⟩
  · exact ((OnlyWrites.refl _ s).setS _ (List.mem_singleton_self d)).setM _ (List.mem_singleton_self c)
  · exact completes_of (execSst_good hgood) (State.storeLE_pc ..) (onlyWrites_storeLE s _ 56 _)
      (holdsBytes_storeLE hdmem _ 56 _)

/-- Settles O31: the second command reads what the first one wrote, and the value is the scalar by
`scalarHalve_add_self`, by `scalarMul_const_one`, or by the scalar's being below L. -/
theorem scalarProperties : Obligations.ScalarProperties := by
  refine fun d a s => ⟨⟨_, _, exec_sadd s d a a, exec_shalve _ d d, ?_⟩,
    fun ha => ⟨_, _, exec_sconst s d 1, exec_smul _ d a d, ?_⟩,
    fun c am base ⟨hdmem, _⟩ hgood =>
      ⟨_, _, execSst_good hgood, exec_sld_storeLE hdmem hgood (scalar_lt_radix _), Fin.ext ?_, ?_⟩⟩
  · simp only [State.advance_getS, State.getS_setS_same, scalarHalve_add_self]
  · simp only [State.advance_getS, State.getS_setS_same, State.getS_setS_ne _ _ ha, scalarMul_const_one]
  · rw [State.advance_getS, getS_decodeScalar, Nat.mod_eq_of_lt (s.getS a).isLt]
  · rw [State.advance_getM, getM_decodeScalar, if_pos (s.getS a).isLt]

end Sys2Proof.Machine
end

section
/-! PROOFS. The six adder commands (45_point.md R701-R709, R716; statements PointDoubling, MixedAddition,
ProjectedAddition, BeforeDouble, FreshTIsConsistent): each writes one point register with the residues of its integer
formula, and every result is made of four factors, (E·F, G·H, F·G, E·H). -/

namespace Sys2Proof.Machine

/-! ## A command on the point file -/

/-- A command that writes one point register and ends completes with whatever its rule says of the point. -/
theorem completes_setP {i : Instr} {s : State} {d : PReg} {v : PointReg} {post : State → Prop}
    (he : exec i s = complete (s.setP d v)) (hp : ∀ t : State, t.getP d = v → post t) :
    Completes i s { p := [d] } post :=
  completes_of he (State.setP_pc s d v) ((OnlyWrites.refl _ s).setP v (List.mem_singleton_self d))
    (hp _ (by rw [State.advance_getP, State.getP_setP_same]))

/-- What a command's formula computes on integers tells its result and TS. -/
theorem completes_residues {i : Instr} {s : State} {d : PReg} {q : ExtPoint} {ts : Bool} {m : IntPoint}
    (he : exec i s = complete (s.setP d ⟨q, ts⟩)) (hq : m.Residues q) :
    Completes i s { p := [d] } fun t => m.Residues (t.getP d).coords ∧ (t.getP d).ts = ts :=
  completes_setP he fun _ ht => by rw [ht]; exact ⟨hq, rfl⟩

/-! ## The four factors of a result -/

/-- r gives the results of one formula with BD and without it, on an operand whose T is t: all coordinates are
products of the same four factors, but for the T that BD passes through (R701-R703). -/
def FactoredResult (t : Fe) (r : Bool → ExtPoint) : Prop :=
  ∃ e f g h : Fe, ∀ bd, r bd = ⟨e * f, g * h, f * g, if bd then t else e * h⟩

theorem factoredResult_dbl (q : ExtPoint) : FactoredResult q.t (dbl q) := ⟨_, _, _, _, fun _ => rfl⟩

theorem factoredResult_addN (q : ExtPoint) (n : Niels) : FactoredResult q.t (addN q n) :=
  ⟨_, _, _, _, fun _ => rfl⟩

theorem factoredResult_addPN (q : ExtPoint) (n : Niels) : FactoredResult q.t (addPN q n) :=
  ⟨_, _, _, _, fun _ => rfl⟩

/-- BD passes T through and changes no other coordinate (R702). -/
theorem FactoredResult.beforeDouble {t : Fe} {r : Bool → ExtPoint} (hr : FactoredResult t r) :
    r true = { r false with t := t } := by
  obtain ⟨e, f, g, h, hr⟩ := hr
  rw [hr, hr]
  rfl

/-- (E·F)·(G·H) = (F·G)·(E·H) (R716). -/
theorem FactoredResult.consistent {t : Fe} {r : Bool → ExtPoint} (hr : FactoredResult t r) :
    (r false).x * (r false).y = (r false).z * (r false).t := by
  obtain ⟨e, f, g, h, hr⟩ := hr
  rw [hr, ← Fe.toZ_inj]
  simp only [Fe.toZ_mul, Bool.false_eq_true, if_false]
  ring

/-- The six adder commands, each as a function of its BD modifier (R702). -/
def adderCommands (d a b : PReg) (n : NReg) : List (Bool → Instr) :=
  [.pdbl d a, .paddn d a n, .psubn d a n, .paddpn d a n, .psubpn d a n, .padd d a b]

/-- On fresh operands each adder command writes a factored result, and BD as TS. -/
theorem exec_adderCommand {d a b : PReg} {n : NReg} {s : State} (ha : (s.getP a).ts = false)
    (hb : (s.getP b).ts = false) : ∀ cmd ∈ adderCommands d a b n, ∃ r, FactoredResult (s.getP a).coords.t r ∧
      ∀ bd, exec (cmd bd) s = complete (s.setP d ⟨r bd, bd⟩) := by
  simp only [adderCommands, List.forall_mem_cons]
  exact ⟨⟨_, factoredResult_dbl _, exec_pdbl s d a⟩,
    ⟨_, factoredResult_addN _ _, fun _ => execPaddn_fresh ha⟩,
    ⟨_, factoredResult_addN _ _, fun _ => execPsubn_fresh ha⟩,
    ⟨_, factoredResult_addPN _ _, fun _ => execPaddpn_fresh ha⟩,
    ⟨_, factoredResult_addPN _ _, fun _ => execPsubpn_fresh ha⟩,
    ⟨_, factoredResult_addPN _ _, fun _ => execPadd_fresh ha hb⟩, List.forall_mem_nil _⟩

/-! ## The statements -/

/-- Settles O33: PDBL is `dbl`, which holds the residues of the integer doubling; TS is not tested. -/
theorem pointDoubling : Obligations.PointDoubling := by
  simp only [Obligations.PointDoubling, ← field8_eq_reg4, ← modOf_bd_eq]
  exact fun d a bd s => ⟨encodes_of_fields rfl rfl, completes_residues (exec_pdbl s d a bd) (residues_dbl _ bd)⟩

/-- Settles O34: on a fresh T the commands are `addN` with the Niels operand and with its negation. -/
theorem mixedAddition : Obligations.MixedAddition := by
  simp only [Obligations.MixedAddition, ← field8_eq_reg4, ← modOf_bd_eq]
  exact fun d a b bd s ha =>
    ⟨⟨encodes_of_fields rfl rfl, completes_residues (execPaddn_fresh ha) (residues_addN _ bd (residues_self _))⟩,
      ⟨encodes_of_fields rfl rfl, completes_residues (execPsubn_fresh ha) (residues_addN _ bd (residues_negN _))⟩⟩

/-- Settles O35: on a fresh T the commands are `addPN` with the Niels operand, with its negation, and with the Niels
form of the second point. -/
theorem projectedAddition : Obligations.ProjectedAddition := by
  simp only [Obligations.ProjectedAddition, ← field8_eq_reg4, ← modOf_bd_eq]
  exact fun d a b bd s ha =>
    ⟨⟨encodes_of_fields rfl rfl, completes_residues (execPaddpn_fresh ha) (residues_addPN _ bd (residues_self _))⟩,
      ⟨encodes_of_fields rfl rfl, completes_residues (execPsubpn_fresh ha) (residues_addPN _ bd (residues_negN _))⟩,
      ⟨encodes_of_fields rfl rfl, fun hb =>
        completes_residues (execPadd_fresh ha hb) (residues_addPN _ bd (residues_toPN _))⟩⟩

/-- Settles O40: the four factors do not depend on BD. -/
theorem beforeDouble : Obligations.BeforeDouble := by
  intro d a b n s ha hb cmd hcmd
  obtain ⟨r, hr, he⟩ := exec_adderCommand ha hb cmd hcmd
  refine ⟨_, _, he true, he false, ?_⟩
  simp only [State.advance_getP, State.getP_setP_same, hr.beforeDouble, and_self]

/-- Settles O41: the products X·Y and Z·T of a factored result have the same four factors. -/
theorem freshTIsConsistent : Obligations.FreshTIsConsistent := by
  intro d a b n s ha hb i hi
  obtain ⟨cmd, hcmd, rfl⟩ : ∃ cmd ∈ adderCommands d a b n, cmd false = i := List.mem_map.mp hi
  obtain ⟨r, hr, he⟩ := exec_adderCommand ha hb cmd hcmd
  refine ⟨_, he false, ?_⟩
  rw [State.advance_getP, State.getP_setP_same, ← Fin.val_mul, ← Fin.val_mul]
  exact ⟨rfl, congrArg Fin.val hr.consistent⟩

end Sys2Proof.Machine
end

section
/-! PROOFS. The other point commands (45_point.md R710-R713, R719-R724; statements NielsAndIdentity, PointComparison,
PointAndNielsMoves): Niels forms, the masks of the comparison and of the curve relations, and the moves between
register files, where a group is four consecutive field registers. -/

namespace Sys2Proof

/-! ## Products of field values on integers -/

theorem Fe.mul_eq_mul_iff {x y z w : Fe} :
    x * y = z * w ↔ (x.val * y.val : Int) % fieldP = (z.val * w.val : Int) % fieldP := by
  rw [← Fe.toZ_inj, ← Int.ModEq, ← ZMod.intCast_eq_intCast_iff]
  simp

namespace Machine

/-! ## A command on the Niels file or on a group of field registers -/

/-- A command that writes one Niels register and ends completes with whatever its rule says of the Niels point. -/
theorem completes_setN {i : Instr} {s : State} {d : NReg} {v : Niels} {post : State → Prop}
    (he : exec i s = complete (s.setN d v)) (hp : ∀ t : State, t.getN d = v → post t) :
    Completes i s { n := [d] } post :=
  completes_of he (State.setN_pc s d v) ((OnlyWrites.refl _ s).setN v (List.mem_singleton_self d))
    (hp _ (by rw [State.advance_getN, State.getN_setN_same]))

/-- A command that writes a group of field registers and ends completes with whatever its rule says of the four
values. -/
theorem completes_setGroup {i : Instr} {s : State} {g : FGroup} {x y z w : Fe} {post : State → Prop}
    (he : exec i s = complete (s.setGroup g x y z w))
    (hp : ∀ t : State, t.getGroup g 0 = x → t.getGroup g 1 = y → t.getGroup g 2 = z → t.getGroup g 3 = w → post t) :
    Completes i s { f := [groupReg g 0, groupReg g 1, groupReg g 2, groupReg g 3] } post :=
  completes_of he rfl ((OnlyWrites.refl _ s).setGroup x y z w (groupReg_mem g))
    (hp _ (getGroup_setGroup s g x y z w 0) (getGroup_setGroup s g x y z w 1) (getGroup_setGroup s g x y z w 2)
      (getGroup_setGroup s g x y z w 3))

/-! ## The comparison and the curve relations on integers -/

/-- The comparison of the ratios X/Y, on integers (R713). -/
theorem sameRatio_iff (q r : ExtPoint) :
    sameRatio q r = true ↔ q.ints.x * r.ints.y % fieldP = r.ints.x * q.ints.y % fieldP := by
  rw [sameRatio, beq_iff_eq, Fe.mul_eq_mul_iff]
  rfl

/-- The curve equation in extended coordinates, on integers (R719). -/
theorem curveEquation_iff (q : ExtPoint) :
    q.y * q.y - q.x * q.x = q.z * q.z + curveD * (q.t * q.t) ↔
      (-q.ints.x ^ 2 + q.ints.y ^ 2) % fieldP = (q.ints.z ^ 2 + -39082 * q.ints.t ^ 2) % fieldP := by
  rw [← Fe.toZ_inj, ← Int.ModEq, ← ZMod.intCast_eq_intCast_iff]
  simp only [ExtPoint.ints, Fe.toZ_mul, Fe.toZ_sub, Fe.toZ_add, curveD, Fe.toZ_ofInt]
  push_cast
  simp only [Fe.natCast_val]
  constructor <;> intro h <;> linear_combination h

theorem z_ne_zero_iff (q : ExtPoint) : q.z ≠ Fe.zero ↔ q.ints.z ≠ 0 :=
  not_congr (fe_eq_ofNat_iff q.z 0 fieldP_pos)

/-- What PVALID tests, on integers (R719). -/
theorem extOnCurve_iff (q : ExtPoint) : onCurve q = true ↔
    q.ints.x * q.ints.y % fieldP = q.ints.z * q.ints.t % fieldP ∧
      (-q.ints.x ^ 2 + q.ints.y ^ 2) % fieldP = (q.ints.z ^ 2 + -39082 * q.ints.t ^ 2) % fieldP ∧
      q.ints.z ≠ 0 := by
  rw [onCurve, Bool.and_eq_true, Bool.and_eq_true, beq_iff_eq, beq_iff_eq, bne_iff_ne, curveEquation_iff,
    z_ne_zero_iff, Fe.mul_eq_mul_iff, and_assoc]
  rfl

/-! ## The statements -/

/-- Settles O37: `toPN` on a fresh T, a choice on the mask, and the identity's residues. -/
theorem nielsAndIdentity : Obligations.NielsAndIdentity := by
  simp only [Obligations.NielsAndIdentity, ← field8_eq_reg4]
  refine fun e b d a c s =>
    ⟨⟨encodes_of_fields rfl rfl, fun ha => completes_setN (execPton_fresh ha) fun t ht => ?_⟩,
      ⟨encodes_of_fields rfl rfl, completes_setN (exec_ncneg s e b c) fun t ht => ?_⟩,
      ⟨encodes_of_fields rfl rfl, completes_setP (exec_pid s d) fun t ht => ?_⟩⟩
  · rw [ht]
    exact residues_toPN _
  · rw [ht, ite_maskTrue]
    split
    · exact residues_negN _
    · rfl
  · rw [ht]
    exact ⟨by decide, rfl⟩

/-- Settles O38: the mask of `sameRatio` and, on a fresh T, of `onCurve`, both read on integers. -/
theorem pointComparison : Obligations.PointComparison := by
  simp only [Obligations.PointComparison, ← field8_eq_reg4, ← sameRatio_iff, ← extOnCurve_iff, ← maskOf_eq]
  exact fun d a b s =>
    ⟨⟨encodes_of_fields rfl rfl, completes_setM (exec_peq s d a b) fun _ ht => ht⟩,
      ⟨encodes_of_fields rfl rfl, fun ha => completes_setM (execPvalid_fresh ha) fun _ ht => ht⟩⟩

/-- Settles O39: the registers of the statement's group are those of `groupReg`, and every value written is one
read. -/
theorem pointAndNielsMoves : Obligations.PointAndNielsMoves := by
  simp only [Obligations.PointAndNielsMoves, ← field8_eq_reg4, ← fieldG_eq_reg4]
  refine fun d a e b g s =>
    ⟨⟨encodes_of_fields rfl rfl, completes_setP (exec_pmov s d a) fun _ ht => ht⟩,
      ⟨encodes_of_fields rfl rfl, completes_setP (exec_pfx s d g) fun _ ht => ht⟩,
      ⟨encodes_of_fields rfl rfl, completes_setGroup (exec_pxf s g a) fun t hx hy hz ht => ?_⟩,
      ⟨encodes_of_fields rfl rfl, completes_setN (exec_nfx s e g) fun _ ht => ht⟩,
      ⟨encodes_of_fields rfl rfl, completes_setGroup (exec_nxf s g b) fun t hypx hymx ht2d hz => ?_⟩⟩
  · exact congr (congr (congr (congrArg ExtPoint.mk hx) hy) hz) ht
  · exact congr (congr (congr (congrArg Niels.mk hypx) hymx) ht2d) hz

end Machine
end Sys2Proof
end

section
/-! PROOFS. The signed digits that PSMUL and PBMUL read their scalar in (46_scalarmul.md R801, R803, R810, R830;
statements OffsetAndSignedDigits, CombDigitsSum): the signed digits of a number to any base sum to one value, and the
comb takes the bits by spacing, group and tooth. -/

namespace Sys2Proof.Machine

/-! ## Sums of digits -/

/-- A list sum over a range as a sum over a finite set. -/
theorem sum_map_range (f : Nat → Int) (n : Nat) : ((List.range n).map f).sum = ∑ i ∈ Finset.range n, f i := rfl

/-- A sum over m·n positions, taken by the residue of the position modulo m. -/
theorem sum_range_mul (f : Nat → Int) (m n : Nat) :
    ∑ b ∈ Finset.range (m * n), f b = ∑ i ∈ Finset.range m, ∑ c ∈ Finset.range n, f (i + m * c) := by
  induction n with
  | zero => simp
  | succ n ih =>
    rw [Nat.mul_succ, Finset.sum_range_add, ih, ← Finset.sum_add_distrib]
    simp only [Finset.sum_range_succ _ n, Nat.add_comm (m * n)]

/-- The lowest n digits of s to the base B, each digit D read as the signed digit 2·D - (B - 1). -/
theorem sum_signed_digits (B s n : Nat) :
    ((List.range n).map fun i => (2 * ((s / B ^ i % B : Nat) : Int) - (B - 1)) * (B : Int) ^ i).sum =
      2 * ((s % B ^ n : Nat) : Int) - ((B ^ n : Nat) - 1) := by
  induction n with
  | zero => simp [Nat.mod_one]
  | succ n ih =>
    rw [List.sum_range_succ, ih, Nat.mod_pow_succ]
    push_cast
    ring

/-- The signed bits of a number below 2^450 sum to N (R801). -/
theorem sum_signed_bits {s : Nat} (hs : s < 2 ^ 450) :
    ((List.range 450).map fun i => (2 * ((s / 2 ^ i % 2 : Nat) : Int) - 1) * 2 ^ i).sum = 2 * s - (2 ^ 450 - 1) := by
  have h := sum_signed_digits 2 s 450
  rwa [Nat.mod_eq_of_lt hs, Nat.cast_pow] at h

/-- The signed windows of a number below 2^450 sum to N (R803). -/
theorem sum_signed_windows {s : Nat} (hs : s < 2 ^ 450) :
    ((List.range 90).map fun w => (2 * (windowDigit s w : Int) - 31) * 32 ^ w).sum = 2 * s - (2 ^ 450 - 1) := by
  have hpow : 32 ^ 90 = 2 ^ 450 := by rw [show 32 = 2 ^ 5 from rfl, ← pow_mul]
  have h := sum_signed_digits 32 s 90
  rw [hpow, Nat.mod_eq_of_lt hs, Nat.cast_pow] at h
  simp only [windowDigit_eq]
  exact h

theorem offsetHalve_lt (k : Sc) : (offsetHalve k).val < 2 ^ 450 :=
  (offsetHalve k).isLt.trans (by decide +kernel)

/-- A congruence with an offset 2^n - 1, read on integers. -/
theorem sub_offset_emod_eq_zero {a b n m : Nat} (h : a ≡ b + (2 ^ n - 1) [MOD m]) :
    ((a : Int) - (2 ^ n - 1) - b) % m = 0 := by
  have hcast : ((b + (2 ^ n - 1) : Nat) : Int) = b + (2 ^ n - 1) := by
    rw [Nat.cast_add, Nat.cast_sub Nat.one_le_two_pow, Nat.cast_pow]
    rfl
  rw [sub_right_comm, sub_sub, ← hcast]
  exact Int.emod_eq_zero_of_dvd (Int.natCast_modEq_iff.mpr h).symm.dvd

/-- Settles O45: the bits and the base-32 digits of s, each read as a signed digit; N ≡ k is
`offsetHalve_double`. -/
theorem offsetAndSignedDigits : Obligations.OffsetAndSignedDigits := by
  intro k
  exact ⟨(offsetHalve k).isLt, offsetHalve_double k, (sum_signed_bits (offsetHalve_lt k)).symm,
    (sum_signed_windows (offsetHalve_lt k)).symm, sub_offset_emod_eq_zero (offsetHalve_double k)⟩

/-! ## The comb -/

/-- The signed bit that a bit stands for (R801). -/
def signedBit (b : Bool) : Int := if b then 1 else -1

theorem signedBit_testBit (s i : Nat) : signedBit (s.testBit i) = 2 * ((s / 2 ^ i % 2 : Nat) : Int) - 1 := by
  rw [← Nat.toNat_testBit]
  cases s.testBit i <;> rfl

theorem signedBit_not (b : Bool) : signedBit (!b) = -signedBit b := by cases b <;> rfl

/-- Bit k of a number written out from five bits. -/
theorem five_bits_div_mod {bit : Nat → Nat} (hbit : ∀ k, bit k < 2) {k : Nat} (hk : k < 5) :
    (bit 0 + 2 * bit 1 + 4 * bit 2 + 8 * bit 3 + 16 * bit 4) / 2 ^ k % 2 = bit k := by
  have h0 := hbit 0
  have h1 := hbit 1
  have h2 := hbit 2
  have h3 := hbit 3
  have h4 := hbit 4
  interval_cases k <;> omega

/-- Bit k of a comb digit is the bit that tooth k reads (R810). -/
theorem testBit_combDigit (s i j : Nat) {k : Nat} (hk : k < 5) :
    (combDigit s i j).testBit k = s.testBit (i + 18 * (k + 5 * j)) := by
  rw [combDigit_bits, Nat.testBit_eq_decide_div_mod_eq, Nat.testBit_eq_decide_div_mod_eq]
  exact congrArg (fun n => decide (n = 1))
    (five_bits_div_mod (bit := fun k => s / 2 ^ (i + 18 * (k + 5 * j)) % 2) (fun _ => Nat.mod_lt _ two_pos) hk)

/-- The multiple of a group's table entry is a signed sum of its four lower teeth and a positive top tooth (R830). -/
theorem combMultiple_eq_sum (j idx : Nat) : combMultiple j idx =
    (∑ k ∈ Finset.range 4, signedBit (idx.testBit k) * 2 ^ (18 * (k + 5 * j))) + 2 ^ (18 * (4 + 5 * j)) := by
  simp only [combMultiple, signedBit, Finset.sum_range_succ, Finset.sum_range_zero, List.map_cons, List.map_nil,
    List.sum_cons, List.sum_nil, Nat.cast_pow, Nat.cast_ofNat]
  ring

/-- The digit's lower four bits, as they index the table. -/
theorem testBit_low (digit : Nat) {k : Nat} (hk : k < 4) : (digit % 16).testBit k = digit.testBit k := by
  rw [Nat.testBit_mod_two_pow digit 4, decide_eq_true hk, Bool.true_and]

/-- The lower four bits of a flipped digit are the complements (90_conflicts.md C3). -/
theorem testBit_low_flipped (digit : Nat) {k : Nat} (hk : k < 4) :
    ((digit ^^^ 0x1F) % 16).testBit k = !digit.testBit k := by
  rw [testBit_low _ hk, Nat.testBit_xor, Nat.testBit_two_pow_sub_one 5, decide_eq_true (by omega), Bool.xor_true]

/-- The sign-corrected multiple of a digit is the signed sum of its five bits (R810, R830). -/
theorem signed_combMultiple (j digit : Nat) :
    (if digit.testBit 4 then combMultiple j (digit % 16) else -combMultiple j ((digit ^^^ 0x1F) % 16)) =
      ∑ k ∈ Finset.range 5, signedBit (digit.testBit k) * 2 ^ (18 * (k + 5 * j)) := by
  rw [Finset.sum_range_succ]
  split
  next h =>
    rw [combMultiple_eq_sum, h, show signedBit true = 1 from rfl, one_mul]
    congr 1
    exact Finset.sum_congr rfl fun k hk => by rw [testBit_low _ (Finset.mem_range.mp hk)]
  next h =>
    rw [combMultiple_eq_sum, Bool.eq_false_iff.mpr h, show signedBit false = -1 from rfl, neg_one_mul, neg_add,
      ← Finset.sum_neg_distrib]
    congr 1
    exact Finset.sum_congr rfl fun k hk => by
      rw [testBit_low_flipped _ (Finset.mem_range.mp hk), signedBit_not, neg_mul, neg_neg]

/-- Every bit position below 450 is that of one spacing, group and tooth (R810). -/
theorem existsUnique_tooth {b : Nat} (hb : b < 450) :
    ∃! t : Fin 18 × Fin 5 × Fin 5, b = t.1.val + 18 * (t.2.2.val + 5 * t.2.1.val) := by
  refine ⟨(⟨b % 18, by omega⟩, ⟨b / 18 / 5, by omega⟩, ⟨b / 18 % 5, by omega⟩), by dsimp only; omega, ?_⟩
  rintro ⟨⟨i, hi⟩, ⟨j, hj⟩, ⟨k, hk⟩⟩ rfl
  simp only [Prod.mk.injEq, Fin.mk.injEq]
  omega

/-- The multiple of group j at spacing i, taken 2^i times, is the signed sum of the bits its teeth read (R810). -/
theorem shifted_combMultiple (s i j : Nat) :
    (2 : Int) ^ i * (if (combDigit s i j).testBit 4 then combMultiple j (combDigit s i j % 16)
      else -combMultiple j ((combDigit s i j ^^^ 0x1F) % 16)) =
    ∑ k ∈ Finset.range 5, signedBit (s.testBit (i + 18 * (k + 5 * j))) * 2 ^ (i + 18 * (k + 5 * j)) := by
  rw [signed_combMultiple, Finset.mul_sum]
  refine Finset.sum_congr rfl fun k hk => ?_
  rw [testBit_combDigit s i j (Finset.mem_range.mp hk), pow_add, mul_left_comm]

/-- The signed bits of a number below 2^450, taken by spacing, group and tooth (R810). -/
theorem sum_signed_bits_comb {s : Nat} (hs : s < 2 ^ 450) :
    ∑ i ∈ Finset.range 18, ∑ j ∈ Finset.range 5, ∑ k ∈ Finset.range 5,
      signedBit (s.testBit (i + 18 * (k + 5 * j))) * 2 ^ (i + 18 * (k + 5 * j)) = 2 * (s : Int) - (2 ^ 450 - 1) := by
  rw [← sum_signed_bits hs, sum_map_range, show 450 = 18 * (5 * 5) from rfl, sum_range_mul]
  refine Finset.sum_congr rfl fun i _ => ?_
  rw [sum_range_mul, Finset.sum_comm]
  simp only [signedBit_testBit]

/-- Settles O46: every group's multiple is the signed sum of the bits its teeth read, and the teeth read every bit
once. -/
theorem combDigitsSum : Obligations.CombDigitsSum := by
  refine ⟨fun b hb => existsUnique_tooth hb, fun s hs => ?_⟩
  simp only [sum_map_range, Finset.mul_sum, shifted_combMultiple]
  exact sum_signed_bits_comb hs

end Sys2Proof.Machine
end

section
/-! PROOFS. The wNAF recoding (46_scalarmul.md R820; statement WnafRecoding): one digit, the recoding as a relation
between a number and its list of digits, and the digits of a list as a function of the position. -/

namespace Sys2Proof.Machine

/-! ## One digit -/

/-- The digit of an odd number: odd, below 2^(tb+1) in magnitude, and what it leaves is a multiple of 2^(tb+2)
(R820). -/
theorem wnafDigit_spec {v : Nat} (tb : Nat) (hv : v % 2 = 1) :
    wnafDigit v tb % 2 = 1 ∧ (wnafDigit v tb).natAbs < 2 ^ (tb + 1) ∧
      ∃ u : Nat, (v : Int) = wnafDigit v tb + (2 ^ (tb + 2) * u : Nat) := by
  have hmod : v % 2 ^ (tb + 2) % 2 = 1 := by rw [Nat.mod_mod_of_dvd _ (dvd_pow_self 2 (by omega)), hv]
  have hlt := Nat.mod_lt v (Nat.two_pow_pos (tb + 2))
  have hdiv := Nat.mod_add_div v (2 ^ (tb + 2))
  have hhalf : 2 ^ (tb + 2) = 2 * 2 ^ (tb + 1) := pow_succ' 2 (tb + 1)
  have heven : 2 ^ (tb + 1) % 2 = 0 := by omega
  simp only [wnafDigit]
  split
  · refine ⟨by omega, by omega, v / 2 ^ (tb + 2) + 1, ?_⟩
    rw [Nat.mul_succ]
    omega
  · exact ⟨by omega, by omega, v / 2 ^ (tb + 2), by omega⟩

/-- What is left after a digit stays within the power of two that bounds the number. -/
theorem wnaf_rest_le {tb m v u : Nat} {d : Int} (hv : v ≤ 2 ^ m) (hd : d.natAbs < 2 ^ (tb + 1))
    (hu : (v : Int) = d + (2 ^ (tb + 2) * u : Nat)) : 2 ^ (tb + 2) * u ≤ 2 ^ m := by
  have hhalf : 2 ^ (tb + 2) = 2 * 2 ^ (tb + 1) := pow_succ' 2 (tb + 1)
  have hlt : 2 ^ (tb + 2) * u < 2 ^ m + 2 ^ (tb + 1) := by omega
  by_cases hm : tb + 2 ≤ m
  · obtain ⟨k, hk⟩ := pow_dvd_pow 2 hm
    rw [hk] at hlt ⊢
    have huk : u < k + 1 := Nat.lt_of_mul_lt_mul_left (a := 2 ^ (tb + 2)) (by rw [Nat.mul_succ]; omega)
    exact Nat.mul_le_mul_left _ (Nat.le_of_lt_succ huk)
  · have hle : 2 ^ m ≤ 2 ^ (tb + 1) := Nat.pow_le_pow_right two_pos (by omega)
    have hu1 : u < 1 := Nat.lt_of_mul_lt_mul_left (a := 2 ^ (tb + 2)) (by omega)
    rw [Nat.lt_one_iff.mp hu1, Nat.mul_zero]
    exact Nat.zero_le _

/-! ## The recoding as a relation -/

/-- l recodes v from position pos on, with digits at the next n positions only (R820): an even number has no digit
at pos, and an odd one has a digit that leaves a multiple of 2^(tb+2). -/
inductive Recoding (tb : Nat) : Nat → Nat → Nat → List (Nat × Int) → Prop where
  | zero (n pos : Nat) : Recoding tb n 0 pos []
  | even {n u pos : Nat} {l : List (Nat × Int)} (h : Recoding tb n u (pos + 1) l) : Recoding tb (n + 1) (2 * u) pos l
  | odd {n v u pos : Nat} {d : Int} {l : List (Nat × Int)} (hodd : d % 2 = 1) (hd : d.natAbs < 2 ^ (tb + 1))
      (hu : (v : Int) = d + (2 ^ (tb + 2) * u : Nat)) (h : Recoding tb n (2 ^ (tb + 1) * u) (pos + 1) l) :
      Recoding tb (n + 1) v pos ((pos, d) :: l)

theorem recodeFrom_zero (tb fuel pos : Nat) : recodeFrom tb fuel 0 pos = [] := by cases fuel <;> rfl

/-- The model's recoding of a number of at most 2^n / 2, with fuel for n positions. -/
theorem recoding_recodeFrom {tb n fuel v : Nat} (pos : Nat) (hv : 2 * v ≤ 2 ^ n) (hn : n ≤ fuel) :
    Recoding tb n v pos (recodeFrom tb fuel v pos) := by
  induction n generalizing fuel v pos with
  | zero =>
    obtain rfl : v = 0 := by omega
    rw [recodeFrom_zero]
    exact .zero 0 pos
  | succ n ih =>
    obtain ⟨fuel, rfl⟩ : ∃ f, fuel = f + 1 := ⟨fuel - 1, by omega⟩
    simp only [recodeFrom]
    split
    next h0 => exact h0 ▸ .zero (n + 1) pos
    split
    next hodd =>
      obtain ⟨hd, hlt, u, hu⟩ := wnafDigit_spec tb hodd
      have hrest := wnaf_rest_le (m := n) (by omega) hlt hu
      have hhalf : ((v : Int) - wnafDigit v tb).toNat / 2 = 2 ^ (tb + 1) * u := by
        rw [hu, add_sub_cancel_left, Int.toNat_natCast, pow_succ', mul_assoc, Nat.mul_div_cancel_left _ two_pos]
      rw [hhalf]
      exact .odd hd hlt hu (ih _ (by rwa [← mul_assoc, ← pow_succ']) (by omega))
    next heven =>
      have h := Recoding.even (ih (fuel := fuel) (v := v / 2) (pos + 1) (by omega) (by omega))
      rwa [show 2 * (v / 2) = v by omega] at h

section
variable {tb n v pos : Nat} {l : List (Nat × Int)}

/-- Where a power of two divides the number, that many positions hold no digit. -/
theorem Recoding.le_pos_of_dvd (h : Recoding tb n v pos l) {k : Nat} (hk : 2 ^ k ∣ v) :
    ∀ e ∈ l, pos + k ≤ e.1 := by
  induction h generalizing k with
  | zero => simp
  | @even n u pos l _ ih =>
    have hdvd : 2 ^ (k - 1) ∣ u := by
      cases k with
      | zero => exact one_dvd u
      | succ k => exact Nat.dvd_of_mul_dvd_mul_left two_pos (by rwa [← pow_succ'])
    intro e he
    have := ih hdvd e he
    omega
  | @odd n v u pos d l hodd hd hu _ ih =>
    obtain rfl : k = 0 := by
      by_contra hk0
      have h2 : 2 ∣ v := (dvd_pow_self 2 hk0).trans hk
      rw [pow_succ', mul_assoc] at hu
      omega
    refine List.forall_mem_cons.mpr ⟨le_rfl, fun e he => ?_⟩
    have := ih (k := 0) (one_dvd _) e he
    omega

theorem Recoding.pos_lt (h : Recoding tb n v pos l) : ∀ e ∈ l, e.1 < pos + n := by
  induction h with
  | zero => simp
  | even _ ih => exact fun e he => by have := ih e he; omega
  | odd _ _ _ _ ih =>
    exact List.forall_mem_cons.mpr ⟨by dsimp only; omega, fun e he => by have := ih e he; omega⟩

theorem Recoding.odd_small (h : Recoding tb n v pos l) : ∀ e ∈ l, e.2 % 2 = 1 ∧ e.2.natAbs < 2 ^ (tb + 1) := by
  induction h with
  | zero => simp
  | even _ ih => exact ih
  | odd hodd hd _ _ ih => exact List.forall_mem_cons.mpr ⟨⟨hodd, hd⟩, ih⟩

theorem Recoding.ne_zero (h : Recoding tb n v pos l) : ∀ e ∈ l, e.2 ≠ 0 := fun e he h0 => by
  obtain ⟨hodd, _⟩ := h.odd_small e he
  omega

/-- Each digit is at least tb + 2 positions above those listed before it. -/
theorem Recoding.spaced (h : Recoding tb n v pos l) : l.Pairwise fun x y => x.1 + (tb + 2) ≤ y.1 := by
  induction h with
  | zero => exact .nil
  | even _ ih => exact ih
  | odd _ _ _ h ih =>
    exact .cons (fun e he => by have := h.le_pos_of_dvd (dvd_mul_right ..) e he; dsimp only; omega) ih

theorem Recoding.increasing (h : Recoding tb n v pos l) : l.Pairwise fun x y => x.1 < y.1 :=
  h.spaced.imp fun hxy => by omega

/-- Any two digits are at least tb + 2 positions apart, wherever they stand in the list. -/
theorem Recoding.add_le_of_lt (h : Recoding tb n v pos l) {x y : Nat × Int} (hx : x ∈ l) (hy : y ∈ l)
    (hxy : x.1 < y.1) : x.1 + (tb + 2) ≤ y.1 := by
  have hlater : l.Pairwise fun x y => x.1 < y.1 → x.1 + (tb + 2) ≤ y.1 := by
    refine h.spaced.imp ?_
    exact fun hle _ => hle
  have hearlier : l.Pairwise fun x y => y.1 < x.1 → y.1 + (tb + 2) ≤ x.1 :=
    h.increasing.imp fun hlt hgt => absurd hgt hlt.asymm
  exact hlater.forall_of_forall_of_flip (fun x _ hlt => absurd hlt (lt_irrefl x.1)) hearlier hx hy hxy

/-- The digits sum to the number. -/
theorem Recoding.sum_eq (h : Recoding tb n v pos l) : (l.map fun e => e.2 * 2 ^ e.1).sum = (v : Int) * 2 ^ pos := by
  induction h with
  | zero => simp
  | even _ ih => rw [ih]; push_cast; ring
  | odd _ _ hu _ ih => rw [List.map_cons, List.sum_cons, ih, hu]; push_cast; ring

end

/-! ## The digit at a position -/

section
variable {l : List (Nat × Int)} {i : Nat}

theorem digitAt_cons (e : Nat × Int) (l : List (Nat × Int)) (i : Nat) :
    digitAt (e :: l) i = if i = e.1 then e.2 else digitAt l i := by
  rw [digitAt, List.lookup_cons]
  split
  next h => rw [if_pos (beq_iff_eq.mp h), Option.getD_some]
  next h => rw [if_neg (beq_eq_false_iff_ne.mp h), digitAt]

theorem digitAt_eq_zero (h : ∀ e ∈ l, e.1 ≠ i) : digitAt l i = 0 := by
  rw [digitAt, List.lookup_eq_none_iff.mpr fun e he => bne_iff_ne.mpr (h e he).symm, Option.getD_none]

theorem mem_of_digitAt_ne_zero (h : digitAt l i ≠ 0) : (i, digitAt l i) ∈ l := by
  induction l with
  | nil => exact absurd rfl h
  | cons e l ih =>
    rw [digitAt_cons] at h ⊢
    split
    next he => exact he ▸ List.mem_cons_self
    next he => exact List.mem_cons_of_mem _ (ih (by rwa [if_neg he] at h))

theorem digitAt_of_mem (hl : l.Pairwise fun x y => x.1 < y.1) {e : Nat × Int} (he : e ∈ l) :
    digitAt l e.1 = e.2 := by
  induction hl with
  | nil => simp at he
  | @cons a l ha _ ih =>
    rw [digitAt_cons]
    obtain rfl | he := List.mem_cons.mp he
    · exact if_pos rfl
    · rw [if_neg (ha e he).ne', ih he]

/-- The weighted sum of the digits over positions is their sum over the list. -/
theorem sum_digitAt (hl : l.Pairwise fun x y => x.1 < y.1) {n : Nat} (hn : ∀ e ∈ l, e.1 < n) :
    ∑ i ∈ Finset.range n, digitAt l i * 2 ^ i = (l.map fun e => e.2 * 2 ^ e.1).sum := by
  induction hl with
  | nil => simp [digitAt]
  | @cons a l ha _ ih =>
    obtain ⟨han, hln⟩ := List.forall_mem_cons.mp hn
    have hterm : ∀ i, digitAt (a :: l) i * 2 ^ i =
        (if i = a.1 then a.2 * 2 ^ a.1 else 0) + digitAt l i * 2 ^ i := fun i => by
      rw [digitAt_cons]
      split
      next h => rw [h, digitAt_eq_zero fun e he => (ha e he).ne', zero_mul, add_zero]
      next => rw [zero_add]
    simp only [hterm]
    rw [Finset.sum_add_distrib, Finset.sum_ite_eq', if_pos (Finset.mem_range.mpr han), ih hln, List.map_cons,
      List.sum_cons]

end

/-! ## The statement -/

/-- The digit at a position, 0 where there is none, is below 2^(tb+1) in magnitude. -/
theorem Recoding.natAbs_digitAt_lt {tb n v pos : Nat} {l : List (Nat × Int)} (h : Recoding tb n v pos l) (i : Nat) :
    (digitAt l i).natAbs < 2 ^ (tb + 1) := by
  by_cases h0 : digitAt l i = 0
  · rw [h0]
    exact Nat.two_pow_pos (tb + 1)
  · exact (h.odd_small _ (mem_of_digitAt_ne_zero h0)).2

/-- A recoding within the positions 0 to 446 is the non-adjacent form of width tb + 2. -/
theorem Recoding.isNaf {tb v : Nat} {l : List (Nat × Int)} (h : Recoding tb 447 v 0 l) :
    IsNaf (tb + 2) v (digitAt l) := by
  have hlt : ∀ e ∈ l, e.1 < 447 := fun e he => by simpa using h.pos_lt e he
  refine ⟨fun i hi => h.odd_small _ (mem_of_digitAt_ne_zero hi),
    fun i j hij hi hj => h.add_le_of_lt (mem_of_digitAt_ne_zero hi) (mem_of_digitAt_ne_zero hj) hij,
    fun i hi => digitAt_eq_zero fun e he => ((hlt e he).trans_le hi).ne, ?_⟩
  rw [sum_map_range, sum_digitAt h.increasing hlt, h.sum_eq, pow_zero, mul_one]

/-- A scalar's recoding uses no position above 446. -/
theorem recoding_recodeWnaf (v : Sc) (tb : Nat) : Recoding tb 447 v.val 0 (recodeWnaf v.val tb) := by
  have hv : v.val ≤ 2 ^ 446 := v.isLt.le.trans (by decide +kernel)
  exact recoding_recodeFrom 0 (by rw [pow_succ']; exact Nat.mul_le_mul_left 2 hv) (Nat.le_succ 447)

/-- Settles O47: the model's recoding is a `Recoding`, whose digits are the non-adjacent form; the two examples are
evaluated. -/
theorem wnafRecoding : Obligations.WnafRecoding := by
  refine ⟨fun v tb _ => ?_, by decide, by decide⟩
  have h := recoding_recodeWnaf v tb
  exact ⟨h.isNaf, h.increasing, h.ne_zero⟩

end Sys2Proof.Machine
end

section
/-! PROOFS. PSMUL and PDSMUL are the sequences of 46_scalarmul.md R804 and R822 (statements
FixedWindowMultiplication, DoubleBaseMultiplication): each loop is the sequence of its points, each step is told by
the signed digits of its position, and the table of odd multiples by its accumulated points. -/

namespace Sys2Proof.Machine

/-! ## PSMUL -/

/-- One window's point, its entry written as the multiple 2·window - 31 of any table that agrees with tbl (R803). -/
theorem windowStep_eq {tbl : List Niels} {f : Nat → Niels} (hf : ∀ i < 16, tableEntry tbl i = f i) (s w : Nat)
    (q : ExtPoint) : windowStep tbl s w q =
      addPN (dbl (dbl (dbl (dbl (dbl q true) true) true) true) false)
        (signedMultiple f (2 * (s / 32 ^ w % 32 : Nat) - 31)) (w != 0) := by
  rw [windowStep, windowDigit_eq, signedEntry_eq (Nat.mod_lt _ (by decide)) hf]

/-- Settles O42: on a fresh T the point written is the end of the window loop, whose points are those of
`windowLoop_sequence` over the table of `oddTable_sequence`. -/
theorem fixedWindowMultiplication : Obligations.FixedWindowMultiplication := by
  simp only [Obligations.FixedWindowMultiplication, ← field8_eq_reg4]
  refine fun d a b s ha => ⟨encodes_of_fields rfl rfl, completes_setP (execPsmul_fresh ha) fun t ht => ?_⟩
  obtain ⟨acc, hacc0, haccs, htable⟩ := oddTable_sequence (s.getP a).coords 15
  obtain ⟨q, hstart, hstep, hend⟩ :=
    windowLoop_sequence (oddTable (s.getP a).coords 16) (offsetHalve (s.getS b)).val 90 ExtPoint.identity
  refine ⟨(offsetHalve (s.getS b)).val, acc, q, (offsetHalve (s.getS b)).isLt, offsetHalve_double _, hacc0,
    fun i _ => haccs i, hstart, fun w hw => (hstep w hw).trans (windowStep_eq htable _ w _), ?_⟩
  rw [ht, windowMultiply, hend]

/-! ## PDSMUL -/

/-- Tables that agree on their first n entries give the same multiples for digits below 2·n in magnitude. -/
theorem signedMultiple_congr {f g : Nat → Niels} {n : Nat} (h : ∀ i < n, f i = g i) {d : Int}
    (hd : d.natAbs < 2 * n) : signedMultiple f d = signedMultiple g d := by
  rw [signedMultiple, signedMultiple, h _ (by omega)]

section
variable {l : List (Nat × Int)}

/-- In a list without zero digits, a position has a digit or the digit there is 0. -/
theorem lookup_eq_ite_digitAt (hl : ∀ e ∈ l, e.2 ≠ 0) (i : Nat) :
    l.lookup i = if digitAt l i = 0 then none else some (digitAt l i) := by
  unfold digitAt
  cases h : l.lookup i with
  | none => rfl
  | some d =>
    obtain ⟨l₁, l₂, rfl, -⟩ := List.lookup_eq_some_iff.mp h
    have hd : d ≠ 0 := hl (i, d) (by simp)
    rw [Option.getD_some, if_neg hd]

/-- The fold of `positions` is the least bound above its start and every digit's position. -/
theorem foldl_max_le_iff (n m : Nat) :
    l.foldl (fun n e => max n (e.1 + 1)) n ≤ m ↔ n ≤ m ∧ ∀ e ∈ l, e.1 < m := by
  induction l generalizing n with
  | nil => simp
  | cons e l ih => rw [List.foldl_cons, ih, max_le_iff, List.forall_mem_cons, and_assoc, Nat.succ_le_iff]

end

section
variable {cp cv : List (Nat × Int)}

/-- The positions end below m exactly when every digit lies below m. -/
theorem positions_le_iff (m : Nat) : positions cp cv ≤ m ↔ ∀ e ∈ cp ++ cv, e.1 < m := by
  rw [positions, foldl_max_le_iff]
  exact and_iff_right (Nat.zero_le m)

/-- Neither stream has a digit from the end of the positions on. -/
theorem digitAt_of_positions_le {i : Nat} (h : positions cp cv ≤ i) : digitAt cp i = 0 ∧ digitAt cv i = 0 := by
  have hlt := (positions_le_iff i).mp h
  exact ⟨digitAt_eq_zero fun e he => (hlt e (List.mem_append_left cv he)).ne,
    digitAt_eq_zero fun e he => (hlt e (List.mem_append_right cp he)).ne⟩

/-- The highest position has a digit in one of the two streams. -/
theorem digitAt_top (hcp : cp.Pairwise fun x y => x.1 < y.1) (hcv : cv.Pairwise fun x y => x.1 < y.1)
    (hp : ∀ e ∈ cp, e.2 ≠ 0) (hv : ∀ e ∈ cv, e.2 ≠ 0) : positions cp cv = 0 ∨
      digitAt cp (positions cp cv - 1) ≠ 0 ∨ digitAt cv (positions cp cv - 1) ≠ 0 := by
  refine or_iff_not_imp_left.mpr fun h0 => ?_
  have hle := (positions_le_iff (positions cp cv)).mp le_rfl
  have htop : ¬ ∀ e ∈ cp ++ cv, e.1 < positions cp cv - 1 := fun h => by
    have := (positions_le_iff _).mpr h
    omega
  push Not at htop
  obtain ⟨e, he, hge⟩ := htop
  have hpos : positions cp cv - 1 = e.1 := by have := hle e he; omega
  rw [hpos]
  refine (List.mem_append.mp he).imp (fun h => ?_) fun h => ?_
  · rw [digitAt_of_mem hcp h]; exact hp e h
  · rw [digitAt_of_mem hcv h]; exact hv e h

/-- One position's point, told by the digits there (R822). -/
theorem doubleBaseStep_eq {tv : List Niels} {f : Nat → Niels} (hf : ∀ i < 8, tableEntry tv i = f i)
    (hp : ∀ e ∈ cp, e.2 ≠ 0) (hv : ∀ e ∈ cv, e.2 ≠ 0) {i : Nat} (hsmall : (digitAt cv i).natAbs < 16)
    (b : AffinePoint) (q : ExtPoint) : doubleBaseStep b cp cv tv i q =
      (let doubled := dbl q false
       let added := if digitAt cv i = 0 then doubled else addPN doubled (signedMultiple f (digitAt cv i)) false
       if digitAt cp i = 0 then added else addN added (signedMultiple (wnafRom b) (digitAt cp i)) false) := by
  rw [doubleBaseStep, lookup_eq_ite_digitAt hp, lookup_eq_ite_digitAt hv]
  have hentry := signedMultiple_congr hf hsmall
  by_cases hcv : digitAt cv i = 0 <;> by_cases hcp : digitAt cp i = 0 <;>
    simp only [hcv, hcp, if_true, if_false, wnafEntry_eq, hentry]

end

/-! ### The statement -/

/-- Settles O44: on a fresh T the point written is the end of the double-base loop over the two recodings, whose
points are those of `doubleBaseLoop_sequence`, from the highest position with a digit on. -/
theorem doubleBaseMultiplication : Obligations.DoubleBaseMultiplication := by
  simp only [Obligations.DoubleBaseMultiplication, ← field8_eq_reg4]
  refine fun d a b c s hb => ⟨encodes_of_fields rfl rfl, completes_setP (execPdsmul_fresh hb) fun t ht => ?_⟩
  have hp := recoding_recodeWnaf (s.getS a) 5
  have hv := recoding_recodeWnaf (s.getS c) 3
  obtain ⟨acc, hacc0, haccs, htable⟩ := oddTable_sequence (s.getP b).coords 7
  obtain ⟨q, hstart, hstep, hend⟩ := doubleBaseLoop_sequence basePoint (recodeWnaf (s.getS a).val 5)
    (recodeWnaf (s.getS c).val 3) (oddTable (s.getP b).coords 8)
    (positions (recodeWnaf (s.getS a).val 5) (recodeWnaf (s.getS c).val 3)) ExtPoint.identity
  refine ⟨_, _, acc, q, _, hp.isNaf, hv.isNaf, hacc0, fun i _ => haccs i, fun i => digitAt_of_positions_le,
    digitAt_top hp.increasing hv.increasing hp.ne_zero hv.ne_zero, hstart,
    fun i hi => (hstep i hi).trans ?_, ?_⟩
  · exact doubleBaseStep_eq htable hp.ne_zero hv.ne_zero (hv.natAbs_digitAt_lt i) _ _
  · rw [ht, doubleBaseMultiply, hend]

end Sys2Proof.Machine
end

section
/-! PROOFS. Every command's outcome (60_exceptions.md R1000, R1010; statement CommandFrame), the two faults of the
memory commands (R1005, 20_memory.md R211; statement MemoryFaults) and the stale operands (R1004; statement
StaleOperands). -/

namespace Sys2Proof.Machine

/-- Everything a command can answer: updates of what its rule names, an exception of its own, or HALT's effect. -/
theorem exec_outcomes (i : Instr) (s : State) : ∃ t, exec i s = .next t ∧
    (Updates (writesOf i s) s t ∨
      (∃ c info, (c = .dmemMisaligned ∨ c = .dmemRange ∨ c = .staleT) ∧ t = s.raise c info) ∨
      (i = .halt ∧ t = s.halt)) := by
  by_cases hi : i = .halt
  · subst hi
    exact ⟨s.halt, rfl, .inr (.inr ⟨rfl, rfl⟩)⟩
  · obtain ⟨t, ht, hcases⟩ := exec_answers i s hi
    exact ⟨t, ht, hcases.imp_right .inl⟩

/-- Settles O48: the updates of a command write only what `writesOf` names. -/
theorem commandFrame : Obligations.CommandFrame := by
  intro i s
  obtain ⟨t, ht, hup | ⟨c, info, hc, rfl⟩ | hhalt⟩ := exec_outcomes i s
  · exact ⟨t, ht, .inl hup.onlyWrites⟩
  · exact ⟨_, ht, .inr (.inl ⟨c, info, ht, hc⟩)⟩
  · exact ⟨t, ht, .inr (.inr hhalt)⟩

/-- The information word of a memory fault is the effective address, zero-extended (R1005). -/
theorem setWidth_effAddr (s : State) (am : Bool) (base : BitVec 16) :
    (s.effAddr am base).setWidth 32 = BitVec.ofNat 32 (s.effAddr am base).toNat := (BitVec.ofNat_toNat 32 _).symm

/-- A command that is a memory command of n bytes takes both faults on its effective address. -/
theorem traps_memoryCommand {i : Instr} {n : Nat} {am : Bool} {base : BitVec 16} {s : State} {act : Nat → State}
    (he : exec i s = memoryCommand n am base s act) :
    ((s.effAddr am base).toNat % 4 ≠ 0 →
      Traps i s .dmemMisaligned (BitVec.ofNat 32 (s.effAddr am base).toNat)) ∧
    ((s.effAddr am base).toNat % 4 = 0 → 4096 < (s.effAddr am base).toNat + n →
      Traps i s .dmemRange (BitVec.ofNat 32 (s.effAddr am base).toNat)) := by
  rw [← setWidth_effAddr]
  exact ⟨fun h => he.trans (memoryCommand_misaligned act h),
    fun h h' => he.trans (memoryCommand_range act h h')⟩

/-- Settles O32: all seven are memory commands of their widths. -/
theorem memoryFaults : Obligations.MemoryFaults := by
  simp only [Obligations.MemoryFaults, ← effAddr_toNat, List.forall_mem_cons, List.not_mem_nil, false_imp_iff,
    implies_true, and_true, true_and]
  exact fun fd sd md am strip base s =>
    ⟨traps_memoryCommand (exec_mld s md am base), traps_memoryCommand (exec_mst s md am base),
      traps_memoryCommand (exec_fld s fd md am base), traps_memoryCommand (exec_fldm s fd md am strip base),
      traps_memoryCommand (exec_fst s fd am base), traps_memoryCommand (exec_sld s sd md am base),
      traps_memoryCommand (exec_sst s sd am base)⟩

/-- A command that first checks a stale point takes STALE_T with the register's index. -/
theorem traps_withFreshT {i : Instr} {a : PReg} {s : State} {k : ExtPoint → Result}
    (he : exec i s = withFreshT a s k) (ha : (s.getP a).ts = true) : Traps i s .staleT (BitVec.ofNat 32 a.val) :=
  he.trans (withFreshT_stale k ha)

/-- Settles O36: nine commands begin with the check of their point, PADD checks its second point next, and the four
others complete without one. -/
theorem staleOperands : Obligations.StaleOperands := by
  simp only [Obligations.StaleOperands, List.forall_mem_cons, List.not_mem_nil, false_imp_iff, implies_true, and_true]
  refine fun d a b n m k l g bd s => ⟨fun ha => ?_, fun ha hb => ?_, ?_⟩
  · exact ⟨traps_withFreshT (exec_paddn s d a n bd) ha, traps_withFreshT (exec_psubn s d a n bd) ha,
      traps_withFreshT (exec_paddpn s d a n bd) ha, traps_withFreshT (exec_psubpn s d a n bd) ha,
      traps_withFreshT (exec_padd s d a b bd) ha, traps_withFreshT (exec_pton s n a) ha,
      traps_withFreshT (exec_pvalid s m a) ha, traps_withFreshT (exec_psmul s d a k) ha,
      traps_withFreshT (exec_pdsmul s d k a l) ha⟩
  · exact traps_withFreshT ((exec_padd s d a b bd).trans (withFreshT_fresh _ ha)) hb
  · exact ⟨⟨_, exec_pdbl s d a bd, rfl, .refl s⟩, ⟨_, exec_peq s m a b, rfl, .refl s⟩,
      ⟨_, exec_pxf s g a, rfl, .refl s⟩, ⟨_, exec_pmov s d a, rfl, .refl s⟩⟩

end Sys2Proof.Machine
end

section
/-! PROOFS. The sequencer's commands (47_sequencer.md R902, R903, R910-R918; statements CounterCommands,
HaltEndsTheRun, BranchCommands, DecrementAndBranch). -/

namespace Sys2Proof.Machine

/-- Adding a 16-bit word modulo 2^16 is adding its signed value (R903). -/
theorem toNat_add_eq_emod (x off : BitVec 16) : ((x + off).toNat : Int) = (x.toNat + off.toInt) % 2 ^ 16 := by
  rw [BitVec.toNat_add, BitVec.toInt_eq_toNat_cond]
  split <;> omega

/-- A command that branches where p holds and else goes on, after updates that leave pc alone. -/
theorem branches_of {i : Instr} {s u : State} {off : BitVec 16} {w : Writes} {p q : Prop} [Decidable p] [Decidable q]
    (he : exec i s = .next (if p then u.branch off else u.advance)) (hpq : p ↔ q) (hpc : u.pc = s.pc)
    (hw : OnlyWrites w s u) :
    ∃ t, exec i s = .next t ∧ OnlyWrites w s t ∧ t.lc = u.lc ∧
      (t.pc.toNat : Int) = if q then (s.pc.toNat + off.toInt) % 2 ^ 16 else ((s.pc.toNat : Int) + 1) % 2 ^ 16 := by
  refine ⟨_, he, ?_⟩
  by_cases h : p
  · rw [if_pos h, if_pos (hpq.mp h), ← hpc]
    exact ⟨hw.branch off, rfl, toNat_add_eq_emod u.pc off⟩
  · rw [if_neg h, if_neg (mt hpq.mpr h), ← hpc]
    exact ⟨hw.advance, rfl, toNat_add_eq_emod u.pc 1⟩

/-- Settles O9: each is one register update, or none, and the next pc. -/
theorem counterCommands : Obligations.CounterCommands := by
  simp only [Obligations.CounterCommands, ← immOf16_eq]
  exact fun u s =>
    ⟨⟨encodes_of_fields rfl rfl, completes_of (exec_nop s) rfl (.refl _ s) trivial⟩,
      ⟨encodes_of_fields rfl rfl, completes_of (exec_setlc s u) rfl ((OnlyWrites.refl _ s).setLc u rfl) rfl⟩,
      ⟨encodes_of_fields rfl rfl, completes_of (exec_seta s u) rfl ((OnlyWrites.refl _ s).setAr u rfl) rfl⟩,
      ⟨encodes_of_fields rfl rfl, completes_of (exec_adda s u) rfl ((OnlyWrites.refl _ s).setAr _ rfl)
        (toNat_add_eq_emod s.ar u)⟩⟩

/-- Settles O10: with DONE set the interrupt output is IE (60_exceptions.md R1020). -/
theorem haltEndsTheRun : Obligations.HaltEndsTheRun := by
  refine fun s => ⟨encodes_of_fields rfl rfl, exec_halt s, fun t ht => ?_⟩
  obtain rfl : s.halt = t := Host.Outcome.next.inj ht
  exact ⟨rfl, rfl, rfl, by simp [State.irq]⟩

/-- Settles O11: JMP always branches, BMT and BMF by their mask word. -/
theorem branchCommands : Obligations.BranchCommands := by
  simp only [Obligations.BranchCommands, ← immOf16_eq, ← field8_eq_reg4]
  intro c off s
  obtain ⟨t, ht, htw, -, htpc⟩ := branches_of (exec_bmt s c off) (maskTrue_iff s c) rfl (.refl {} s)
  obtain ⟨u, hu, huw, -, hupc⟩ := branches_of (exec_bmf s c off) (maskFalse_iff s c) rfl (.refl {} s)
  exact ⟨⟨encodes_of_fields rfl rfl, _, exec_jmp s off, (OnlyWrites.refl _ s).branch off, toNat_add_eq_emod s.pc off⟩,
    ⟨encodes_of_fields rfl rfl, t, ht, htw, htpc⟩, ⟨encodes_of_fields rfl rfl, u, hu, huw, hupc⟩⟩

/-- Settles O12: the decremented lc is 0 exactly where lc was 1. -/
theorem decrementAndBranch : Obligations.DecrementAndBranch := by
  simp only [Obligations.DecrementAndBranch, ← immOf16_eq]
  intro off s
  have htaken : s.lc - 1 ≠ 0 ↔ ¬ s.lc.toNat = 1 := by bv_omega
  obtain ⟨t, ht, hw, hlc, hpc⟩ := branches_of (exec_djnz s off) htaken (State.setLc_pc s _)
    ((OnlyWrites.refl { lc := true } s).setLc _ rfl)
  refine ⟨encodes_of_fields rfl rfl, t, ht, hw, ?_, hpc.trans (ite_not ..)⟩
  rw [hlc, State.setLc_lc, BitVec.sub_eq_add_neg, toNat_add_eq_emod]
  rfl

end Sys2Proof.Machine
end

section
/-! PROOFS. The turn of the core and what stops a run (47_sequencer.md R900, 60_exceptions.md R1002-R1013; statements
StepRunsTheDecodedCommand, FetchExceptions, RunOutcome), and a write of CTRL (10_state.md R141, 47_sequencer.md R901,
70_reset_and_hazards.md R1101; statements ControlWrite, SoftReset). -/

namespace Sys2Proof.Machine

/-! ## The turn of the core -/

section
variable {s : State}

/-- Where the host is silent, or its next action lets the core step, a step is a turn of the core. -/
theorem step_coreTurn {rest : List HostAction} (h : (s.host = [] ∧ rest = []) ∨ s.host = .letCoreStep :: rest) :
    step s = coreTurn { s with host := rest } := by
  obtain ⟨hhost, rfl⟩ | hhost := h
  · rw [step_silent hhost, ← hhost]
  · exact step_letCoreStep hhost

/-- ABORTED is taken at a boundary, where clearing `inProgress` changes nothing. -/
theorem takeAbort_eq_raise (hp : s.inProgress = false) :
    s.takeAbort = { (s.setInProgress false).raise .aborted 0 with abortLatch := false } := by
  rw [State.setInProgress_self s hp]
  rfl

section
variable (hrun : s.run = .running) (hc : s.inProgress = true ∨ s.abortLatch = false)
include hrun hc

theorem coreTurn_range (hpc : 512 ≤ s.pc.toNat) :
    coreTurn s = raised (s.setInProgress false) .pcRange (BitVec.ofNat 32 s.pc.toNat) := by
  rw [coreTurn_command hrun hc, runCommand_range (s := s.setInProgress false) hpc, BitVec.ofNat_toNat]
  rfl

theorem coreTurn_decoded {i : Instr} (hpc : s.pc.toNat < 512)
    (hd : decode (BitVec.ofNat 64 (bytesValue s.imem (8 * s.pc.toNat) 8)) = .ok i) :
    coreTurn s = exec i (s.setInProgress false) :=
  (coreTurn_command hrun hc).trans
    (runCommand_decoded (s := s.setInProgress false) hpc ((congrArg decode (imemWord_eq s _)).trans hd))

theorem coreTurn_rejected {e : DecodeError} (hpc : s.pc.toNat < 512)
    (hd : decode (BitVec.ofNat 64 (bytesValue s.imem (8 * s.pc.toNat) 8)) = .error e) :
    coreTurn s = raisedDecode (s.setInProgress false) e :=
  (coreTurn_command hrun hc).trans
    (runCommand_rejected (s := s.setInProgress false) hpc ((congrArg decode (imemWord_eq s _)).trans hd))

end

end

/-- Settles O7: the turn runs the decoded command; at a boundary clearing `inProgress` changes nothing. -/
theorem stepRunsTheDecodedCommand : Obligations.StepRunsTheDecodedCommand := by
  intro s i hrun hpc hd
  have hturn (rest : List HostAction) (hc : s.inProgress = true ∨ s.abortLatch = false) :
      coreTurn { s with host := rest } = exec i ({ s with host := rest }.setInProgress false) :=
    coreTurn_decoded (s := { s with host := rest }) hrun hc hpc hd
  refine ⟨fun hp ha => ⟨fun hhost => ?_, fun rest hhost => ?_⟩,
    fun hp => ⟨fun hhost => ?_, fun rest hhost => ?_⟩⟩
  · rw [step_silent hhost, coreTurn_decoded hrun (.inr ha) hpc hd, State.setInProgress_self s hp]
  · rw [step_letCoreStep hhost, hturn rest (.inr ha), State.setInProgress_self { s with host := rest } hp]
  · exact (step_silent hhost).trans (coreTurn_decoded hrun (.inl hp) hpc hd)
  · exact (step_letCoreStep hhost).trans (hturn rest (.inl hp))

/-- Settles O8: the branches of a turn in their order, and those of a boundary passed alone. -/
theorem fetchExceptions : Obligations.FetchExceptions := by
  intro s rest stopped word aborts runs
  have htake (hp : s.inProgress = false) :
      { s with host := rest }.takeAbort = { stopped 8 0 with abortLatch := false } :=
    takeAbort_eq_raise (s := { s with host := rest }) hp
  refine ⟨fun hhost => ?_, fun hhost => ?_⟩
  · rw [step_coreTurn hhost]
    refine ⟨coreTurn_idle (s := { s with host := rest }), fun ⟨hrun, hp, ha⟩ => ?_,
      fun ⟨hrun, hc⟩ => coreTurn_range (s := { s with host := rest }) hrun hc,
      fun ⟨hrun, hc⟩ hpc info => ?_⟩
    · rw [coreTurn_abort (s := { s with host := rest }) hrun hp ha, htake hp]
    · have hrejected {e : DecodeError} := coreTurn_rejected (s := { s with host := rest }) (e := e) hrun hc hpc
      exact ⟨hrejected, hrejected, hrejected⟩
  · rw [step_letCoreBegin hhost]
    refine ⟨fun hrun => congrArg _ (passBoundary_idle (s := { s with host := rest }) hrun), fun ⟨hrun, hp, ha⟩ => ?_,
      fun ⟨hrun, hc⟩ => congrArg _ (passBoundary_command (s := { s with host := rest }) hrun hc)⟩
    rw [passBoundary_abort (s := { s with host := rest }) hrun hp ha, htake hp]

/-! ## How a run ends -/

/-- Everything running the command at pc can answer: the decoded command's outcome, or an exception of the fetch
or of the decoder. -/
theorem runCommand_cases {s t : State} (he : runCommand s = .next t) :
    (∃ i, s.pc.toNat < 512 ∧ decode (BitVec.ofNat 64 (bytesValue s.imem (8 * s.pc.toNat) 8)) = .ok i ∧
      exec i s = .next t) ∨
    ∃ c info, t = s.raise c info := by
  have raised_inj {c : Cause} {info : BitVec 32} (h : raised s c info = .next t) : t = s.raise c info :=
    (Host.Outcome.next.inj h).symm
  rcases Nat.lt_or_ge s.pc.toNat 512 with hpc | hpc
  · cases hd : decode (s.imemWord s.pc.toNat) with
    | ok i => exact .inl ⟨i, hpc, imemWord_eq s _ ▸ hd, (runCommand_decoded hpc hd).symm.trans he⟩
    | error e =>
      rw [runCommand_rejected hpc hd] at he
      cases e <;> exact .inr ⟨_, _, raised_inj he⟩
  · exact .inr ⟨_, _, raised_inj ((runCommand_range hpc).symm.trans he)⟩

/-- The run of s ended in t by HALT, or by an exception (R1013). -/
def RunEnded (s t : State) : Prop :=
  (t.done = true ∧ t.err = false ∧ t.cause = 0 ∧ t.pc = s.pc) ∨
  (t.err = true ∧ t.done = false ∧ 1 ≤ t.cause ∧ t.cause ≤ 8 ∧ t.epc = t.pc ∧ t.pc = s.pc)

section
variable {s t : State}

theorem runEnded_raise (hs : s.Inv) (hrun : s.run = .running) (c : Cause) (info : BitVec 32) :
    RunEnded s (s.raise c info) := by
  obtain ⟨-, -, -, -, -, -, hr, -⟩ := hs
  obtain ⟨hdone, -, -⟩ := hr hrun
  obtain ⟨hne, hle⟩ := causeCode_range c
  have hge : 1 ≤ causeCode c := by bv_omega
  exact .inr ⟨rfl, hdone, hge, hle, rfl, rfl⟩

theorem runEnded_halt (hs : s.Inv) (hrun : s.run = .running) : RunEnded s s.halt := by
  obtain ⟨-, -, -, -, -, -, hr, -⟩ := hs
  obtain ⟨-, herr, hcause⟩ := hr hrun
  exact .inl ⟨rfl, herr, hcause, rfl⟩

/-- A command that ends the run is HALT or took an exception: updates leave the core running. -/
theorem runCommand_ended (hs : s.Inv) (hrun : s.run = .running) (he : runCommand s = .next t) (ht : t.run = .idle) :
    RunEnded s t := by
  obtain ⟨i, -, -, hi⟩ | ⟨c, info, rfl⟩ := runCommand_cases he
  · obtain ⟨u, hu, hcases⟩ := exec_outcomes i s
    obtain rfl : u = t := Host.Outcome.next.inj (hu.symm.trans hi)
    obtain hup | ⟨c, info, -, rfl⟩ | ⟨-, rfl⟩ := hcases
    · obtain ⟨-, -, -, -, -, -, -, -, hsame, -⟩ := hup.onlyWrites
      rw [hsame, hrun] at ht
      cases ht
    · exact runEnded_raise hs hrun c info
    · exact runEnded_halt hs hrun
  · exact runEnded_raise hs hrun c info

theorem coreTurn_ended (hs : s.Inv) (hrun : s.run = .running) (he : coreTurn s = .next t) (ht : t.run = .idle) :
    RunEnded s t := by
  obtain ⟨hp, ha⟩ | hc := at_boundary_or_command s
  · obtain rfl := Host.Outcome.next.inj ((coreTurn_abort hrun hp ha).symm.trans he)
    exact runEnded_raise hs hrun .aborted 0
  · exact runCommand_ended (s := s.setInProgress false) (hs.setInProgress nofun) hrun
      ((coreTurn_command hrun hc).symm.trans he) ht

theorem passBoundary_ended (hs : s.Inv) (hrun : s.run = .running) (ht : s.passBoundary.run = .idle) :
    RunEnded s s.passBoundary := by
  obtain ⟨hp, ha⟩ | hc := at_boundary_or_command s
  · rw [passBoundary_abort hrun hp ha]
    exact runEnded_raise hs hrun .aborted 0
  · rw [passBoundary_command hrun hc, State.setInProgress_run, hrun] at ht
    cases ht

end

/-! ## Writes of CTRL -/

section
variable {s : State} {v : BitVec 32}

/-- A soft reset is a power-on that keeps IMEM and the host's actions (R1101). -/
theorem softReset_eq (s : State) :
    ∃ dmem hostRead n, s.softReset = State.powerOn s.imem dmem s.host hostRead n := by
  rw [State.softReset]
  split <;> exact ⟨_, _, _, rfl⟩

theorem hasResetValues_softReset (s : State) : HasResetValues s.softReset := by
  obtain ⟨dmem, hostRead, n, h⟩ := softReset_eq s
  rw [h]
  exact hasResetValues_powerOn _ _ _ _ _

theorem writeCtrl_srst (hv : v.getLsbD 2 = true) : s.writeCtrl v = s.softReset := if_pos hv

/-- Without SRST: IE; then ABORT while RUNNING, or START while IDLE (R141). -/
theorem writeCtrl_not_srst (hv : v.getLsbD 2 = false) : s.writeCtrl v =
    if s.run = .running then { s with ie := v.getLsbD 3, abortLatch := s.abortLatch || v.getLsbD 1 }
    else if v.getLsbD 0 = true then { s with ie := v.getLsbD 3 }.start
    else { s with ie := v.getLsbD 3 } := by
  rw [State.writeCtrl, if_neg (Bool.not_eq_true _ ▸ hv)]
  simp only [busy_iff]
  cases v.getLsbD 1 <;> simp only [Bool.or_true, Bool.or_false, Bool.false_eq_true, if_true, if_false]

/-- A write of CTRL ends a run only by a soft reset. -/
theorem writeCtrl_ended (hrun : s.run = .running) (ht : (s.writeCtrl v).run = .idle) :
    HasResetValues (s.writeCtrl v) := by
  cases hv : v.getLsbD 2 with
  | true => rw [writeCtrl_srst hv]; exact hasResetValues_softReset s
  | false =>
    rw [writeCtrl_not_srst hv, if_pos hrun] at ht
    exact absurd (hrun.symm.trans ht) nofun

theorem writeControl_run {o : Nat} (ho : o ≠ 0x004) : (s.writeControl o v).run = s.run := by
  rw [State.writeControl, if_neg ho]
  split
  · rfl
  · split
    · rw [State.writeEntry]
      split <;> rfl
    · rfl

/-- A host write ends a run only by a soft reset. -/
theorem hostWrite_ended {offset : BitVec 14} {size : AccessSize} (hrun : s.run = .running)
    (ht : (s.hostWrite offset size v).run = .idle) : HasResetValues (s.hostWrite offset size v) := by
  have hkeeps {t : State} (hsame : t.run = s.run) (ht : t.run = .idle) : HasResetValues t :=
    absurd (hrun.symm.trans (hsame.symm.trans ht)) nofun
  obtain h | h | ⟨-, h⟩ | ⟨a, -, h | h⟩ := hostWrite_cases s offset size v <;> rw [h] at ht ⊢
  · exact hkeeps rfl ht
  · exact hkeeps rfl ht
  · by_cases ho : offset.toNat = 0x004
    · rw [ho] at ht ⊢
      exact writeCtrl_ended hrun ht
    · exact hkeeps (writeControl_run ho) ht
  · exact hkeeps rfl ht
  · exact hkeeps rfl ht

end

/-- Settles O56: the register at the offset is CTRL. -/
theorem controlWrite : Obligations.ControlWrite := by
  intro s v rest hhost hv
  rw [step_write_control hhost (by decide) (by decide)]
  exact congrArg _ (writeCtrl_not_srst (s := { s with host := rest }) hv)

theorem hostReads_run (s : State) (offset : BitVec 14) (size : AccessSize) :
    (s.hostReads offset size).run = s.run := by
  rw [State.hostReads]
  obtain h | h | h := readWindow_state s offset size
  · rw [h]
  · rw [h, State.conflict_run]
  · rw [h]

/-- Settles O54: a turn or a boundary ends a run by HALT or an exception, and a host action only by a reset. -/
theorem runOutcome : Obligations.RunOutcome := by
  intro s t hs hrun he ht
  cases hh : s.host with
  | nil => exact (coreTurn_ended hs hrun ((step_silent hh).symm.trans he) ht).imp_right .inl
  | cons a rest =>
    cases a with
    | letCoreStep =>
      exact (coreTurn_ended (s := { s with host := rest }) hs hrun ((step_letCoreStep hh).symm.trans he) ht).imp_right
        .inl
    | letCoreBegin =>
      obtain rfl := Host.Outcome.next.inj ((step_letCoreBegin hh).symm.trans he)
      exact (passBoundary_ended (s := { s with host := rest }) hs hrun ht).imp_right .inl
    | write offset size v =>
      obtain rfl := Host.Outcome.next.inj ((step_write hh).symm.trans he)
      exact .inr (.inr ⟨hostWrite_ended (s := { s with host := rest }) hrun ht, nofun⟩)
    | read offset size =>
      obtain rfl := Host.Outcome.next.inj ((step_read hh).symm.trans he)
      exact absurd (hrun.symm.trans ((hostReads_run { s with host := rest } offset size).symm.trans ht)) nofun
    | powerOnReset imemInit dmemInit =>
      obtain rfl := Host.Outcome.next.inj ((step_powerOnReset hh).symm.trans he)
      exact .inr (.inr ⟨hasResetValues_powerOn _ _ _ _ _, nofun⟩)

/-! ## Soft reset -/

/-- What a command writes depends on the state only through ar. -/
theorem writesOf_congr {s t : State} (h : t.ar = s.ar) (i : Instr) : writesOf i t = writesOf i s := by
  cases i with
  | mst a am base | fst a am base | sst a am base => simp only [writesOf, effAddr_congr h am base]
  | _ => rfl

/-- Running the command at pc changes only the bytes that the decoded command names. -/
theorem runCommand_byte {s t : State} (he : runCommand s = .next t) (a : Nat) : t.dmem.read a = s.dmem.read a ∨
    ∃ i, s.pc.toNat < 512 ∧ decode (BitVec.ofNat 64 (bytesValue s.imem (8 * s.pc.toNat) 8)) = .ok i ∧
      (writesOf i s).start ≤ a ∧ a < (writesOf i s).start + (writesOf i s).len ∧ exec i s = .next t := by
  obtain ⟨i, hpc, hd, hi⟩ | ⟨c, info, rfl⟩ := runCommand_cases he
  · obtain ⟨u, hu, hcases⟩ := exec_outcomes i s
    obtain rfl : u = t := Host.Outcome.next.inj (hu.symm.trans hi)
    obtain hup | ⟨c, info, -, rfl⟩ | ⟨-, rfl⟩ := hcases
    · obtain ⟨-, -, -, -, -, -, -, hbytes, -⟩ := hup.onlyWrites
      by_cases ha : (writesOf i s).start ≤ a ∧ a < (writesOf i s).start + (writesOf i s).len
      · exact .inr ⟨i, hpc, hd, ha.1, ha.2, hi⟩
      · exact .inl (hbytes a ha)
    · exact .inl rfl
    · exact .inl rfl
  · exact .inl rfl

/-- Each byte that a cancelled command leaves is the old one or the one that the command would have left. -/
theorem cancelledDmem_read {s : State} (hw : s.dmem.wf = true) (a : Nat) :
    s.cancelledDmem.read a = s.dmem.read a ∨
      ∃ t, runCommand s = .next t ∧ s.cancelledDmem.read a = t.dmem.read a := by
  rw [State.cancelledDmem]
  cases he : runCommand s with
  | next t => exact (cancelledBytes_read _ hw).imp_right fun ⟨_, h⟩ => ⟨t, rfl, h⟩
  | fault r | refused r => exact .inl rfl

/-- A soft reset cancels only a command in progress; elsewhere DMEM stays (R1101). -/
theorem softReset_dmem (s : State) :
    s.softReset.dmem = if s.run = .running ∧ s.inProgress = true then s.cancelledDmem else s.dmem := by
  simp only [State.softReset, Bool.and_eq_true, busy_iff]
  split <;> rfl

/-- Each byte after a soft reset is the old one, or one that the command in progress names and would have left. -/
theorem softReset_byte {s : State} (hw : s.dmem.wf = true) (a : Nat) : s.softReset.dmem.read a = s.dmem.read a ∨
    ∃ i t, s.run = .running ∧ s.inProgress = true ∧ s.pc.toNat < 512 ∧
      decode (BitVec.ofNat 64 (bytesValue s.imem (8 * s.pc.toNat) 8)) = .ok i ∧
      (writesOf i s).start ≤ a ∧ a < (writesOf i s).start + (writesOf i s).len ∧
      exec i s = .next t ∧ s.softReset.dmem.read a = t.dmem.read a := by
  rw [softReset_dmem]
  split
  · next hcancel =>
    obtain ⟨hrun, hp⟩ := hcancel
    obtain h | ⟨t, he, ht⟩ := cancelledDmem_read hw a
    · exact .inl h
    · refine (runCommand_byte he a).imp ht.trans fun ⟨i, hpc, hd, hlo, hhi, hi⟩ => ?_
      exact ⟨i, t, hrun, hp, hpc, hd, hlo, hhi, hi, ht⟩
  · exact .inl rfl

/-- Settles O51: a soft reset is a power-on whose DMEM may hold bytes of the cancelled store. -/
theorem softReset : Obligations.SoftReset := by
  intro s v rest hs hhost hv
  obtain ⟨hwf, -⟩ := hs
  obtain ⟨dmem, hostRead, n, hreset⟩ := softReset_eq { s with host := rest }
  refine ⟨{ s with host := rest }.softReset, ?_, hasResetValues_softReset _, by rw [hreset]; rfl, by rw [hreset]; rfl,
    fun hnone => ?_, fun a => ?_⟩
  · rw [step_write_control hhost (by decide) (by decide)]
    exact congrArg _ (writeCtrl_srst hv)
  · rw [softReset_dmem, if_neg]
    rintro ⟨hrun, hp⟩
    obtain h | h := hnone
    · exact absurd (hrun.symm.trans h) nofun
    · exact absurd (hp.symm.trans h) nofun
  · refine (softReset_byte (s := { s with host := rest }) hwf a).imp_right
      fun ⟨i, t, hrun, hp, hpc, hd, hlo, hhi, hi, ht⟩ => ?_
    rw [writesOf_congr (s := s) (t := { s with host := rest }) rfl] at hlo hhi
    exact ⟨i, t, hrun, hp, hpc, hd, hlo, hhi, hi, ht⟩

end Sys2Proof.Machine
end

section
/-! PROOFS. Secrets stay hidden (70_reset_and_hazards.md R1140; statement SecretsStayHidden): every operation takes
two states that agree in public to two that agree in public, whatever it writes to the secret registers and to DMEM. -/

namespace Sys2Proof.Machine

/-! ## The public part of a state -/

/-- s with everything that is not public made the same in all states. -/
def State.hide (s : State) : State :=
  { s with
    f := Vector.replicate 16 Fe.zero, sc := Vector.replicate 8 (Sc.ofNat 0)
    p := s.p.map fun q => ⟨ExtPoint.identity, q.ts⟩
    n := Vector.replicate 8 Niels.identity, m := Vector.replicate 8 0
    dmem := [], hostRead := none, freeCount := 0 }

theorem hide_getP (s : State) (r : PReg) : s.hide.getP r = ⟨ExtPoint.identity, (s.getP r).ts⟩ := by
  simp [State.hide, State.getP]

theorem hide_getP_ts (s : State) (r : PReg) : (s.hide.getP r).ts = (s.getP r).ts := by rw [hide_getP]

theorem hide_setP (s : State) (d : PReg) (v : PointReg) :
    (s.setP d v).hide = s.hide.setP d ⟨ExtPoint.identity, v.ts⟩ := by
  simp [State.hide, State.setP, Vector.map_set]

/-- Agreement in public is equality of the public parts. -/
theorem publicEq_iff_hide {s t : State} : PublicEq s t ↔ t.hide = s.hide := by
  constructor
  · rintro ⟨hpc, hlc, har, hrun, hlatch, hp, hie, hdone, herr, hhac, hentry, hcause, hepc, heinfo, himem, hhost, hts⟩
    have hpoint (r : PReg) : t.hide.getP r = s.hide.getP r := by rw [hide_getP, hide_getP, hts]
    have hpoints : t.hide.p = s.hide.p := Vector.ext fun k hk => hpoint ⟨k, hk⟩
    simp only [State.hide] at hpoints ⊢
    simp only [hpc, hlc, har, hrun, hlatch, hp, hie, hdone, herr, hhac, hentry, hcause, hepc, heinfo, himem, hhost,
      hpoints]
  · intro h
    have hts (r : PReg) : (t.getP r).ts = (s.getP r).ts := by rw [← hide_getP_ts, h, hide_getP_ts]
    simp only [State.hide, State.mk.injEq] at h
    obtain ⟨-, -, -, -, -, hpc, hlc, har, hrun, hlatch, hp, hie, hdone, herr, hhac, hentry, hcause, hepc, heinfo, himem,
      -, hhost, -⟩ := h
    exact ⟨hpc, hlc, har, hrun, hlatch, hp, hie, hdone, herr, hhac, hentry, hcause, hepc, heinfo, himem, hhost, hts⟩

section
variable {s t : State}

/-- An operation that acts on the public part alone keeps the agreement. -/
theorem PublicEq.map {F : State → State} (h : PublicEq s t) (hF : ∀ u : State, (F u).hide = F u.hide) :
    PublicEq (F s) (F t) :=
  publicEq_iff_hide.mpr (by rw [hF, hF, publicEq_iff_hide.mp h])

/-- What is read of the public part alone is the same in both. -/
theorem PublicEq.reads {α : Type} (h : PublicEq s t) (g : State → α) (hg : ∀ u : State, g u.hide = g u) :
    g t = g s := by
  rw [← hg t, ← hg s, publicEq_iff_hide.mp h]

theorem PublicEq.pc_eq (h : PublicEq s t) : t.pc = s.pc := h.reads State.pc fun _ => rfl

theorem PublicEq.lc_eq (h : PublicEq s t) : t.lc = s.lc := h.reads State.lc fun _ => rfl

theorem PublicEq.ar_eq (h : PublicEq s t) : t.ar = s.ar := h.reads State.ar fun _ => rfl

theorem PublicEq.run_eq (h : PublicEq s t) : t.run = s.run := h.reads State.run fun _ => rfl

theorem PublicEq.abortLatch_eq (h : PublicEq s t) : t.abortLatch = s.abortLatch := h.reads State.abortLatch fun _ => rfl

theorem PublicEq.inProgress_eq (h : PublicEq s t) : t.inProgress = s.inProgress := h.reads State.inProgress fun _ => rfl

theorem PublicEq.imem_eq (h : PublicEq s t) : t.imem = s.imem := h.reads State.imem fun _ => rfl

theorem PublicEq.host_eq (h : PublicEq s t) : t.host = s.host := h.reads State.host fun _ => rfl

theorem PublicEq.busy_eq (h : PublicEq s t) : t.busy = s.busy := h.reads State.busy fun _ => rfl

theorem PublicEq.ts_eq (h : PublicEq s t) (r : PReg) : (t.getP r).ts = (s.getP r).ts :=
  h.reads (fun u => (u.getP r).ts) fun u => hide_getP_ts u r

/-! ## Updates of two states that agree in public -/

theorem PublicEq.setF (h : PublicEq s t) (d : FReg) (v w : Fe) : PublicEq (s.setF d v) (t.setF d w) := h

theorem PublicEq.setS (h : PublicEq s t) (d : SReg) (v w : Sc) : PublicEq (s.setS d v) (t.setS d w) := h

theorem PublicEq.setN (h : PublicEq s t) (d : NReg) (v w : Niels) : PublicEq (s.setN d v) (t.setN d w) := h

theorem PublicEq.setM (h : PublicEq s t) (d : MReg) (v w : BitVec 32) : PublicEq (s.setM d v) (t.setM d w) := h

theorem PublicEq.storeLE (h : PublicEq s t) (a n v w : Nat) : PublicEq (s.storeLE a n v) (t.storeLE a n w) := h

theorem PublicEq.decodeField (h : PublicEq s t) (d : FReg) (c : MReg) (v w : Nat) :
    PublicEq (s.decodeField d c v) (t.decodeField d c w) := h

theorem PublicEq.setGroup (h : PublicEq s t) (g : FGroup) (x y z w x' y' z' w' : Fe) :
    PublicEq (s.setGroup g x y z w) (t.setGroup g x' y' z' w') := h

/-- The stale-T bits are public, so the two points written must agree in theirs. -/
theorem PublicEq.setP (h : PublicEq s t) (d : PReg) {v w : PointReg} (hvw : w.ts = v.ts) :
    PublicEq (s.setP d v) (t.setP d w) := by
  rw [publicEq_iff_hide, hide_setP, hide_setP, hvw, publicEq_iff_hide.mp h]

theorem PublicEq.setLc (h : PublicEq s t) (v : BitVec 16) : PublicEq (s.setLc v) (t.setLc v) :=
  h.map (F := fun u => u.setLc v) fun _ => rfl

theorem PublicEq.setAr (h : PublicEq s t) (v : BitVec 16) : PublicEq (s.setAr v) (t.setAr v) :=
  h.map (F := fun u => u.setAr v) fun _ => rfl

theorem PublicEq.advance (h : PublicEq s t) : PublicEq s.advance t.advance := h.map fun _ => rfl

theorem PublicEq.branch (h : PublicEq s t) (off : BitVec 16) : PublicEq (s.branch off) (t.branch off) :=
  h.map (F := fun u => u.branch off) fun _ => rfl

theorem PublicEq.halt (h : PublicEq s t) : PublicEq s.halt t.halt := h.map fun _ => rfl

theorem PublicEq.raise (h : PublicEq s t) (c : Cause) (info : BitVec 32) : PublicEq (s.raise c info) (t.raise c info) :=
  h.map (F := fun u => u.raise c info) fun _ => rfl

theorem PublicEq.takeAbort (h : PublicEq s t) : PublicEq s.takeAbort t.takeAbort := h.map fun _ => rfl

theorem PublicEq.setInProgress (h : PublicEq s t) (b : Bool) : PublicEq (s.setInProgress b) (t.setInProgress b) :=
  h.map (F := fun u => u.setInProgress b) fun _ => rfl

theorem PublicEq.setHost (h : PublicEq s t) (rest : List HostAction) :
    PublicEq { s with host := rest } { t with host := rest } :=
  h.map (F := fun u => { u with host := rest }) fun _ => rfl

theorem PublicEq.conflict (h : PublicEq s t) : PublicEq s.conflict t.conflict := h.map fun _ => rfl

/-! ## Results that agree in public -/

/-- Both results are next states, and these agree in public. -/
def PublicResults (r q : Result) : Prop := ∃ s t, r = .next s ∧ q = .next t ∧ PublicEq s t

theorem PublicResults.next (h : PublicEq s t) : PublicResults (.next s) (.next t) := ⟨s, t, rfl, rfl, h⟩

theorem PublicResults.complete (h : PublicEq s t) : PublicResults (complete s) (complete t) := .next h.advance

theorem PublicResults.raised (h : PublicEq s t) (c : Cause) (info : BitVec 32) :
    PublicResults (raised s c info) (raised t c info) := .next (h.raise c info)

/-- The address and so the faults of a memory command are public. -/
theorem PublicResults.memoryCommand {n : Nat} {am : Bool} {base : BitVec 16} {act act' : Nat → State}
    (h : PublicEq s t) (hact : ∀ a, PublicEq (act a) (act' a)) :
    PublicResults (memoryCommand n am base s act) (memoryCommand n am base t act') := by
  simp only [Machine.memoryCommand, effAddr_congr h.ar_eq am base]
  split
  · exact .raised h _ _
  · split
    · exact .raised h _ _
    · exact .complete (hact _)

/-- The stale-T check of a point is public. -/
theorem PublicResults.withFreshT {a : PReg} {k k' : ExtPoint → Result} (h : PublicEq s t)
    (hk : ∀ q q', PublicResults (k q) (k' q')) : PublicResults (withFreshT a s k) (withFreshT a t k') := by
  rw [Machine.withFreshT, Machine.withFreshT, h.ts_eq a]
  split
  · exact .raised h _ _
  · exact hk _ _

end

/-! ## Commands -/

/-- DJNZ goes on where the decremented lc is 0, and else branches (47_sequencer.md R916). -/
theorem exec_djnz_eq (off : BitVec 16) (s : State) : exec (.djnz off) s = .next
    (if s.lc - 1 = 0 then (s.setLc (s.lc - 1)).advance else (s.setLc (s.lc - 1)).branch off) :=
  congrArg _ (ite_not ..)

/-- Every command but BMT and BMF takes states that agree in public to states that agree in public. -/
theorem exec_public {i : Instr} {s t : State} (hi : ¬ branchesOnMask i) (h : PublicEq s t) :
    PublicResults (exec i s) (exec i t) := by
  cases i with
  | bmt c off => exact absurd ⟨c, off, .inl rfl⟩ hi
  | bmf c off => exact absurd ⟨c, off, .inr rfl⟩ hi
  | nop => exact .complete h
  | halt => exact .next h.halt
  | jmp off => exact .next (h.branch off)
  | setlc u => exact .complete (h.setLc u)
  | seta u => exact .complete (h.setAr u)
  | adda v =>
    rw [exec_adda, exec_adda, execAdda, execAdda, h.ar_eq]
    exact .complete (h.setAr _)
  | djnz off =>
    rw [exec_djnz_eq, exec_djnz_eq, h.lc_eq]
    split
    · exact .next (h.setLc _).advance
    · exact .next ((h.setLc _).branch off)
  | fadd d | fsub d | fneg d | fmul d | fsqr d | fmulc d | fwred d | fsred d | fmov d | fconst d | finv d
  | fsel d | fcneg d => exact .complete (h.setF d _ _)
  | fisr d a c => exact .complete ((h.setF d _ _).setM c _ _)
  | fcswap a b c =>
    rw [exec_fcswap_eq_setF, exec_fcswap_eq_setF]
    exact .complete ((h.setF a _ _).setF b _ _)
  | feq d | mset d | mand d | mor d | mxor d | mnot d | peq d => exact .complete (h.setM d _ _)
  | mld d am base =>
    rw [exec_mld, exec_mld, execMld, execMld]
    exact .memoryCommand h fun _ => h.setM d _ _
  | fld d c am base =>
    rw [exec_fld, exec_fld, execFld, execFld]
    exact .memoryCommand h fun _ => h.decodeField d c _ _
  | fldm d c am strip base =>
    rw [exec_fldm, exec_fldm, execFldm, execFldm]
    exact .memoryCommand h fun _ => h.decodeField d c _ _
  | sld d c am base =>
    rw [exec_sld, exec_sld, execSld, execSld]
    exact .memoryCommand h fun _ => (h.setS d _ _).setM c _ _
  | mst | fst | sst =>
    simp only [exec_mst, exec_fst, exec_sst, execMst, execFst, execSst]
    exact .memoryCommand h fun ea => h.storeLE ea _ _ _
  | sadd d | ssub d | smont d | smul d | shalve d | smov d | sconst d => exact .complete (h.setS d _ _)
  | pdbl d | pid d | pfx d | pbmul d => exact .complete (h.setP d rfl)
  | pmov d a => exact .complete (h.setP d (h.ts_eq a))
  | paddn d | psubn d | paddpn d | psubpn d =>
    simp only [exec_paddn, exec_psubn, exec_paddpn, exec_psubpn, execPaddn, execPsubn, execPaddpn, execPsubpn]
    exact .withFreshT h fun _ _ => .complete (h.setP d rfl)
  | psmul d | pdsmul d =>
    simp only [exec_psmul, exec_pdsmul, execPsmul, execPdsmul]
    exact .withFreshT h fun _ _ => .complete (h.setP d rfl)
  | padd d =>
    rw [exec_padd, exec_padd, execPadd, execPadd]
    exact .withFreshT h fun _ _ => .withFreshT h fun _ _ => .complete (h.setP d rfl)
  | pton d =>
    rw [exec_pton, exec_pton, execPton, execPton]
    exact .withFreshT h fun _ _ => .complete (h.setN d _ _)
  | ncneg d | nfx d => exact .complete (h.setN d _ _)
  | pvalid d =>
    rw [exec_pvalid, exec_pvalid, execPvalid, execPvalid]
    exact .withFreshT h fun _ _ => .complete (h.setM d _ _)
  | pxf g | nxf g => exact .complete (h.setGroup g _ _ _ _ _ _ _ _)

/-! ## The turn of the core -/

section
variable {s t : State}

/-- The command at pc is not a branch on a mask (47_sequencer.md R920). -/
def NoMaskBranch (s : State) : Prop :=
  ∀ i, decode (BitVec.ofNat 64 (bytesValue s.imem (8 * s.pc.toNat) 8)) = .ok i → ¬ branchesOnMask i

theorem runCommand_public (h : PublicEq s t) (hb : NoMaskBranch s) : PublicResults (runCommand s) (runCommand t) := by
  rw [runCommand, runCommand, h.pc_eq, State.imemWord, State.imemWord, h.imem_eq]
  split
  · exact .raised h _ _
  · cases hd : decode (BitVec.ofNat 64 (s.imem.readLE (8 * s.pc.toNat) 8)) with
    | ok i => exact exec_public (hb i (readLE_eq_bytesValue .. ▸ hd)) h
    | error e =>
      cases e with
      | illegalOpcode info | illegalOperand info | badImmediate info => exact .raised h _ info

theorem coreTurn_public (h : PublicEq s t) (hb : NoMaskBranch s) : PublicResults (coreTurn s) (coreTurn t) := by
  rw [coreTurn, coreTurn, h.run_eq, h.inProgress_eq, h.abortLatch_eq]
  split
  · exact .next h
  · split
    · exact runCommand_public (h.setInProgress false) hb
    · split
      · exact .next h.takeAbort
      · exact runCommand_public h hb

theorem PublicEq.passBoundary (h : PublicEq s t) : PublicEq s.passBoundary t.passBoundary := by
  rw [State.passBoundary, State.passBoundary, h.run_eq, h.inProgress_eq, h.abortLatch_eq]
  split
  · exact h
  · split
    · exact h
    · split
      · exact h.takeAbort
      · exact h.setInProgress true

/-! ## The host's accesses -/

/-- A reset state shows the host's actions and IMEM. -/
theorem publicEq_powerOn {imem dmem dmem' : Memory} {host : List HostAction} {hostRead hostRead' : Option (BitVec 32)}
    {n n' : Nat} : PublicEq (State.powerOn imem dmem host hostRead n) (State.powerOn imem dmem' host hostRead' n') :=
  publicEq_iff_hide.mpr rfl

theorem PublicEq.softReset (h : PublicEq s t) : PublicEq s.softReset t.softReset := by
  obtain ⟨dmem, hostRead, n, hs⟩ := softReset_eq s
  obtain ⟨dmem', hostRead', n', ht⟩ := softReset_eq t
  rw [hs, ht, h.imem_eq, h.host_eq]
  exact publicEq_powerOn

theorem PublicEq.writeCtrl (h : PublicEq s t) (v : BitVec 32) : PublicEq (s.writeCtrl v) (t.writeCtrl v) := by
  cases hv : v.getLsbD 2 with
  | true =>
    rw [writeCtrl_srst hv, writeCtrl_srst hv]
    exact h.softReset
  | false =>
    refine h.map (F := fun u => u.writeCtrl v) fun u => ?_
    simp only [writeCtrl_not_srst hv, apply_ite State.hide]
    rfl

theorem PublicEq.writeControl (h : PublicEq s t) (o : Nat) (v : BitVec 32) :
    PublicEq (s.writeControl o v) (t.writeControl o v) := by
  rw [State.writeControl, State.writeControl]
  split
  · exact h.writeCtrl v
  · split
    · exact h.map (F := fun u => u.writeStatus v) fun _ => rfl
    · split
      · refine h.map (F := fun u => u.writeEntry v) fun u => ?_
        rw [State.writeEntry, apply_ite State.hide]
        rfl
      · exact h

theorem PublicEq.hostWrite (h : PublicEq s t) (offset : BitVec 14) (size : AccessSize) (v : BitVec 32) :
    PublicEq (s.hostWrite offset size v) (t.hostWrite offset size v) := by
  rw [State.hostWrite, State.hostWrite, h.busy_eq]
  split
  · exact h
  · split
    · exact h.writeControl _ v
    · split
      · exact h.conflict
      · exact h.map (F := fun u => { u with imem := u.imem.writeLE (windowIndex offset) 4 v.toNat }) fun _ => rfl
    · split
      · exact h.conflict
      · exact h
    · exact h

/-- A read of the control block draws at most a free value, which is not in the public part. -/
theorem hide_readControl (s : State) (o : Nat) : (s.readControl o).2.hide = s.hide := by
  obtain h | h := readControl_state s o
  · rw [h]
  · rw [h]
    rfl

theorem PublicEq.readControl (h : PublicEq s t) (o : Nat) : PublicEq (s.readControl o).2 (t.readControl o).2 := by
  rw [publicEq_iff_hide, hide_readControl, hide_readControl, publicEq_iff_hide.mp h]

theorem PublicEq.readWindow (h : PublicEq s t) (offset : BitVec 14) (size : AccessSize) :
    PublicEq (s.readWindow offset size).2 (t.readWindow offset size).2 := by
  rw [State.readWindow, State.readWindow, h.busy_eq]
  split
  · exact h
  · split
    · exact h.readControl _
    · split
      · exact h.conflict
      · exact h
    · split
      · exact h.conflict
      · exact h
    · exact h

theorem PublicEq.hostReads (h : PublicEq s t) (offset : BitVec 14) (size : AccessSize) :
    PublicEq (s.hostReads offset size) (t.hostReads offset size) := h.readWindow offset size

/-! ## The step -/

theorem step_public (h : PublicEq s t) (hb : NoMaskBranch s) : PublicResults (step s) (step t) := by
  cases hs : s.host with
  | nil =>
    rw [step_silent hs, step_silent (h.host_eq.trans hs)]
    exact coreTurn_public h hb
  | cons a rest =>
    have ht := h.host_eq.trans hs
    cases a with
    | letCoreStep =>
      rw [step_letCoreStep hs, step_letCoreStep ht]
      exact coreTurn_public (h.setHost rest) hb
    | letCoreBegin =>
      rw [step_letCoreBegin hs, step_letCoreBegin ht]
      exact .next (h.setHost rest).passBoundary
    | write offset size v =>
      rw [step_write hs, step_write ht]
      exact .next ((h.setHost rest).hostWrite offset size v)
    | read offset size =>
      rw [step_read hs, step_read ht]
      exact .next ((h.setHost rest).hostReads offset size)
    | powerOnReset imemInit dmemInit =>
      rw [step_powerOnReset hs, step_powerOnReset ht]
      exact .next publicEq_powerOn

end

/-- Settles O55: a step's public part depends on the public part alone; what a command writes, on ar alone. -/
theorem secretsStayHidden : Obligations.SecretsStayHidden := by
  refine ⟨fun s t s' t' h hs ht hb => ?_,
    fun i s t h => ⟨(writesOf_congr h.ar_eq i).symm, fun am base => (effAddr_congr h.ar_eq am base).symm⟩⟩
  obtain ⟨u, u', hu, hu', hpublic⟩ := step_public h hb
  obtain rfl := Host.Outcome.next.inj (hu.symm.trans hs)
  obtain rfl := Host.Outcome.next.inj (hu'.symm.trans ht)
  exact hpublic

end Sys2Proof.Machine
end
